-- ==== Sys2Proof/Word.lean ====
section
/-! DEFINITION. Word.lean: the words the core works with (00_scope.md R7; 20_memory.md R54). -/

namespace Sys2Proof

/-- One byte of a buffer: the only width a buffer access has (R54). -/
abbrev Byte := BitVec 8

/-- A word of the register interface, and the width `LEN_W` of the lengths (R7, R20). -/
abbrev Word := BitVec 32

/-- The bit cursor, `BITPOS_W` = 35 bits (R7). -/
abbrev BitPos := BitVec 35

/-- An entry of a fixed table or of the trie arena, `ID_W` = 10 bits (R7). -/
abbrev Entry := BitVec 10

/-- A stored code length, 0 to 17 (R36). -/
abbrev CodeLen := BitVec 5

end Sys2Proof
end

