-- ==== Sys2Proof/Config.lean ====
section
/-! DEFINITION. Config.lean: what an implementation fixes: the variants, the alphabets, the open parameter, the format's
constants (00_scope.md R5 to R8), and the free values the spec leaves open (93_implementation_defined.md U1, U2, U3, U8). -/

namespace Sys2Proof

/-- The two variants of the format (R1); `CTRL.VARIANT` 0 and 1 (R21). -/
inductive Variant where
  | classic
  | tiano
  deriving DecidableEq, Repr

/-- The three Huffman alphabets: Extra Set, Char&Length Set, Position Set (R120). -/
inductive Alphabet where
  | t
  | c
  | p
  deriving DecidableEq, Repr

/-- The values of the open parameter `PEEK_PAST_END` (R8, R60). -/
inductive PeekPastEnd where
  | fault
  | zeroFill
  deriving DecidableEq, Repr

namespace Config

/-- `N` of an alphabet: its number of symbols (R5, R6, R120). -/
def numSymbols : Alphabet → Nat
  | .t => 19
  | .c => 510
  | .p => 31

/-- `TB` of an alphabet: the index width of its fixed table (R5, R120). -/
def tableBits : Alphabet → Nat
  | .t => 8
  | .c => 12
  | .p => 8

/-- `CB_P`: the width of the P count field (R5). -/
def posCountBits : Variant → Nat
  | .classic => 4
  | .tiano => 5

/-- `MAX_LEN`: the longest legal code length (R5, R121). -/
@[simp] abbrev maxLen : Nat := 16

/-- `PT_CAP`: the slots of the generic length array (R5). -/
@[simp] abbrev ptCap : Nat := 31

/-- The slots of the Char&Length length array (R36, R150). -/
@[simp] abbrev cCap : Nat := 510

/-- `HDR_BYTES` (R5). -/
@[simp] abbrev hdrBytes : Nat := 8

/-- `EMPTY` = 0x3FF, the marker of an entry that holds neither leaf nor node (R7, R37). -/
def emptyEntry : Entry := 0x3FF#10

/-- Free value: what a host read of `OUT_LEN` returns after the failed job that `n` counts (R25, U2; log 10). -/
opaque freeOutLen : Nat → Word

/-- Free value: what a host read of `BITPOS` returns after the failed job that `n` counts (R26, U2; log 10). -/
opaque freeBitPos : Nat → BitPos

/-- Free value: the byte of `DST` at an index after the error or reset that `n` counts (R195, R211, U1, U3; log 11). -/
opaque freeDst : Nat → Nat → Byte

/-- Free value: what the host's `n`-th racing read of a `DST` byte returns while BUSY (U8; log 12). -/
opaque freeRace : Nat → Nat → Byte

end Config

end Sys2Proof
end

