-- ==== Sys2Proof/Syntax.lean ====
section
/-! DEFINITION. Syntax.lean: the elements of the compressed stream, one constructor per row of spec/opcode_table.json
(00_scope.md R10; 30_encoding.md R71 to R75). -/

namespace Sys2Proof

/-- An element of the stream with its decoded operands. A codeword element carries what its symbol says, not the
codeword: that is the table's (R74). -/
inductive Instr where
  /-- HDR: `compressed_size` and `orig_size` (R71). -/
  | hdr (csize osize : BitVec 32)
  /-- BLKHDR: the block symbol count (R72). -/
  | blkhdr (n : BitVec 16)
  /-- T_CNT: the count of the T array (R72). -/
  | tCnt (m : BitVec 5)
  /-- T_DEGEN: the constant of a degenerate T table (R72). -/
  | tDegen (v : BitVec 5)
  /-- P_CNT in its 4-bit (`classic`) or 5-bit (`tiano`) form (R72, R81). -/
  | pCnt (f : Variant) (m : BitVec 5)
  /-- P_DEGEN in its 4-bit (`classic`) or 5-bit (`tiano`) form (R72, R81). -/
  | pDegen (f : Variant) (v : BitVec 5)
  /-- LEN_SHORT: a length 0 to 6 (R73). -/
  | lenShort (l : BitVec 3)
  /-- LEN_LONG: `k` one-bits in the tail, length `7 + k` (R73). -/
  | lenLong (k : Nat)
  /-- ZRUN2: the zero-run of the T array (R72). -/
  | zrun2 (z : BitVec 2)
  /-- C_CNT: the count of the C array (R72). -/
  | cCnt (m : BitVec 9)
  /-- C_DEGEN: the constant of a degenerate C table (R72). -/
  | cDegen (v : BitVec 9)
  /-- T_ZERO: T symbol 0 (R75, R76). -/
  | tZero
  /-- T_RUN4: T symbol 1 and four raw bits (R75, R76). -/
  | tRun4 (r : BitVec 4)
  /-- T_RUN9: T symbol 2 and nine raw bits (R75, R76). -/
  | tRun9 (r : BitVec 9)
  /-- T_LEN: T symbol `v ≥ 3` (R75, R76). -/
  | tLen (v : BitVec 5)
  /-- LIT: C symbol `b < 256` (R75, R77). -/
  | lit (b : BitVec 8)
  /-- BACKREF: C symbol `v ≥ 256` (R75, R77). -/
  | backref (v : BitVec 9)
  /-- POS_0: P symbol 0 (R75, R78). -/
  | pos0
  /-- POS_1: P symbol 1 (R75, R78). -/
  | pos1
  /-- POS_N: P symbol `v ≥ 2` and its suffix `x` of `v - 1` raw bits (R75, R78). -/
  | posN (v : BitVec 5) (x : BitVec 30)
  deriving DecidableEq, Repr

end Sys2Proof
end

