-- ==== Sys2Proof/WellFormed.lean ====
section
/-! DEFINITION. WellFormed.lean: which operand values an element's encoding admits (30_encoding.md R72 to R78). -/

namespace Sys2Proof

/-- The operands lie in the ranges the encoding gives them: a `classic` P field has four bits (R72), a LEN_SHORT field is
not 7 (R73), T_LEN is symbol 3 or above (R76), BACKREF is symbol 256 or above (R77), POS_N is symbol 2 or above with a
suffix of `v - 1` bits (R78). Every other element admits all its operand values. -/
def Instr.wf : Instr → Bool
  | .hdr _ _ => true
  | .blkhdr _ => true
  | .tCnt _ => true
  | .tDegen _ => true
  | .pCnt f m => decide (m.toNat < 2 ^ Config.posCountBits f)
  | .pDegen f v => decide (v.toNat < 2 ^ Config.posCountBits f)
  | .lenShort l => decide (l.toNat ≠ 7)
  | .lenLong _ => true
  | .zrun2 _ => true
  | .cCnt _ => true
  | .cDegen _ => true
  | .tZero => true
  | .tRun4 _ => true
  | .tRun9 _ => true
  | .tLen v => decide (3 ≤ v.toNat)
  | .lit _ => true
  | .backref v => decide (256 ≤ v.toNat)
  | .pos0 => true
  | .pos1 => true
  | .posN v x => decide (2 ≤ v.toNat) && decide (x.toNat < 2 ^ (v.toNat - 1))

end Sys2Proof
end

