-- ==== Sys2Proof/Decode.lean ====
section
/-! DEFINITION. Decode.lean: reading one element from the bits at the cursor (20_memory.md R55 to R60; 30_encoding.md R70
to R81; 42_huffman_table.md R129 to R136), and after it the encoder, written from the same formats. -/

namespace Sys2Proof

/-! ## Positions (30_encoding.md R80) -/

/-- What the position in the stream selects: the rows of the element map. A count field and the degenerate constant that
follows a zero count share a phase and are two positions. -/
inductive Place where
  | frame
  | blkCount
  | tCount
  | tDegen
  | pCount (f : Variant)
  | pDegen (f : Variant)
  | ptEntry
  | ptZrun
  | cCount
  | cDegen
  | cEntry
  | symbol
  | dist
  deriving DecidableEq, Repr

/-- The position at which an element stands (R80). -/
def Instr.place : Instr → Place
  | .hdr _ _ => .frame
  | .blkhdr _ => .blkCount
  | .tCnt _ => .tCount
  | .tDegen _ => .tDegen
  | .pCnt f _ => .pCount f
  | .pDegen f _ => .pDegen f
  | .lenShort _ => .ptEntry
  | .lenLong _ => .ptEntry
  | .zrun2 _ => .ptZrun
  | .cCnt _ => .cCount
  | .cDegen _ => .cDegen
  | .tZero => .cEntry
  | .tRun4 _ => .cEntry
  | .tRun9 _ => .cEntry
  | .tLen _ => .cEntry
  | .lit _ => .symbol
  | .backref _ => .symbol
  | .pos0 => .dist
  | .pos1 => .dist
  | .posN _ _ => .dist

/-! ## Bits (20_memory.md R55 to R60) -/

/-- Why no element could be read. `rest` is what stood at the cursor after the last `POP` that succeeded. -/
inductive DecodeError where
  /-- a `POP`, a `PEEK` or a trie walk needs a bit beyond the end of the sequence (R59, R60, R132) -/
  | exhausted (rest : List Bool)
  /-- a lookup met an `EMPTY` entry (R134) -/
  | emptyEntry (rest : List Bool)
  /-- fewer than eight header bytes (R101) -/
  | shortHeader
  deriving DecidableEq, Repr

/-- The low `n` bits of `v`, most significant first (R55, R56). -/
def bitsOf : Nat → Nat → List Bool
  | 0, _ => []
  | n + 1, v => v.testBit n :: bitsOf n v

/-- The bits of some bytes in stream order: the most significant bit of the first byte first (R55). -/
def bitsOfBytes (bytes : List Byte) : List Bool :=
  bytes.flatMap fun b => bitsOf 8 b.toNat

/-- The next `n` bits as a number, the first bit read the most significant, after `acc` (R56, R59). -/
def takeBits : Nat → Nat → List Bool → Option (Nat × List Bool)
  | 0, acc, bits => some (acc, bits)
  | _ + 1, _, [] => none
  | n + 1, acc, b :: bits => takeBits n (2 * acc + b.toNat) bits

/-- `POP(n)` (R59): the next `n` bits, or exhaustion with the cursor where it was. -/
def popBits (n : Nat) (bits : List Bool) : Except DecodeError (Nat × List Bool) :=
  match takeBits n 0 bits with
  | some r => .ok r
  | none => .error (.exhausted bits)

/-- The next `n` bits as a number after `acc`, a missing bit read as 0 (R60 under `ZeroFill`). -/
def zeroFilled : Nat → Nat → List Bool → Nat
  | 0, acc, _ => acc
  | n + 1, acc, [] => zeroFilled n (2 * acc) []
  | n + 1, acc, b :: bits => zeroFilled n (2 * acc + b.toNat) bits

/-- `PEEK(n)` (R60) under the parameter `PEEK_PAST_END`. -/
def peekBits (pk : PeekPastEnd) (n : Nat) (bits : List Bool) : Except DecodeError Nat :=
  match takeBits n 0 bits with
  | some r => .ok r.1
  | none =>
    match pk with
    | .fault => .error (.exhausted bits)
    | .zeroFill => .ok (zeroFilled n 0 bits)

/-- The unary tail of LEN_LONG (R73, R144): how many one-bits stand before the first zero-bit, which is consumed. -/
def popTail : List Bool → Option (Nat × List Bool)
  | [] => none
  | false :: bits => some (0, bits)
  | true :: bits => (popTail bits).map fun r => (r.1 + 1, r.2)

/-- The next `n` bytes of the header. -/
def takeBytes : Nat → List Bool → Option (List Nat × List Bool)
  | 0, bits => some ([], bits)
  | n + 1, bits =>
    match takeBits 8 0 bits with
    | none => none
    | some (b, rest) => (takeBytes n rest).map fun r => (b :: r.1, r.2)

/-- `LE32`, for any number of bytes: the first byte is the least significant (R56). -/
def leNat : List Nat → Nat
  | [] => 0
  | b :: bytes => b + 256 * leNat bytes

/-! ## The dual-path lookup (42_huffman_table.md R129 to R135) -/

/-- The table of an alphabet as its last build or degenerate read left it (R120, R130). -/
structure HufTable where
  /-- the alphabet -/
  alph : Alphabet
  /-- `PT_DEGEN` or `C_DEGEN` -/
  degen : Bool
  /-- `PT_CONST` or `C_CONST` -/
  const : Nat
  /-- the length array -/
  lens : List CodeLen
  /-- the fixed table -/
  fix : List Entry
  /-- the 0-children of the arena -/
  left : List Entry
  /-- the 1-children of the arena -/
  right : List Entry
  deriving DecidableEq, Repr

/-- `L[v]`, the code length of a symbol in the table's length array (R133). -/
def HufTable.lenOf (t : HufTable) (v : Nat) : Nat :=
  (t.lens.getD v 0).toNat

/-- The bits a codeword of symbol `v` takes: its code length, or none for a degenerate table (R74, R131). -/
def HufTable.codeBits (t : HufTable) (v : Nat) : Nat :=
  if t.degen then 0 else t.lenOf v

/-- How a walk down the overflow trie ends (R132, R134). -/
inductive Walked where
  /-- at the leaf of a symbol -/
  | leaf (v : Nat)
  /-- the bit sequence ends first -/
  | ranOut
  /-- at an `EMPTY` entry -/
  | empty
  deriving DecidableEq, Repr

/-- The overflow path (R132): from entry `e`, one bit a step, until a leaf. An index outside the arena reads as
`EMPTY`, and an `EMPTY` entry stops the walk (R134; log 19). -/
def HufTable.walk (t : HufTable) (e : Entry) (bits : List Bool) : Walked :=
  if e = Config.emptyEntry then .empty
  else if e.toNat < Config.numSymbols t.alph then .leaf e.toNat
  else
    match bits with
    | [] => .ranOut
    | b :: rest =>
      t.walk (if b then t.right.getD e.toNat Config.emptyEntry else t.left.getD e.toNat Config.emptyEntry) rest
  termination_by structural bits

/-- `DecodeSym` (R129 to R133): the symbol at the cursor and what follows its codeword. -/
def HufTable.decodeSym (t : HufTable) (pk : PeekPastEnd) (bits : List Bool) :
    Except DecodeError (Nat × List Bool) :=
  if t.degen then .ok (t.const, bits)
  else
    match peekBits pk (Config.tableBits t.alph) bits with
    | .error e => .error e
    | .ok w =>
      match t.walk (t.fix.getD w Config.emptyEntry) (bits.drop (Config.tableBits t.alph)) with
      | .empty => .error (.emptyEntry bits)
      | .ranOut => .error (.exhausted bits)
      | .leaf v =>
        match popBits (t.lenOf v) bits with
        | .error e => .error e
        | .ok (_, rest) => .ok (v, rest)

/-! ## The decoder -/

/-- A field of `n` bits, made into an element (format `F-FIELD`, R72). -/
def decodeField (n : Nat) (mk : Nat → Instr) (bits : List Bool) : Except DecodeError (Instr × List Bool) :=
  match popBits n bits with
  | .error e => .error e
  | .ok (v, rest) => .ok (mk v, rest)

/-- HDR (R71): eight bytes, two little-endian words. -/
def decodeHdr (bits : List Bool) : Except DecodeError (Instr × List Bool) :=
  match takeBytes 4 bits with
  | none => .error .shortHeader
  | some (c, rest) =>
    match takeBytes 4 rest with
    | none => .error .shortHeader
    | some (o, rest') => .ok (.hdr (BitVec.ofNat 32 (leNat c)) (BitVec.ofNat 32 (leNat o)), rest')

/-- LEN_SHORT or LEN_LONG (format `F-LEN`, R73). A tail that meets the end of the sequence has consumed it all. -/
def decodeLen (bits : List Bool) : Except DecodeError (Instr × List Bool) :=
  match popBits 3 bits with
  | .error e => .error e
  | .ok (l, rest) =>
    if l = 7 then
      match popTail rest with
      | none => .error (.exhausted [])
      | some (k, rest') => .ok (.lenLong k, rest')
    else .ok (.lenShort (BitVec.ofNat 3 l), rest)

/-- The elements of the C array, by the decoded T symbol (R76, R80). -/
def decodeCEntry (pk : PeekPastEnd) (t : HufTable) (bits : List Bool) : Except DecodeError (Instr × List Bool) :=
  match t.decodeSym pk bits with
  | .error e => .error e
  | .ok (v, rest) =>
    if v = 0 then .ok (.tZero, rest)
    else if v = 1 then decodeField 4 (fun r => .tRun4 (BitVec.ofNat 4 r)) rest
    else if v = 2 then decodeField 9 (fun r => .tRun9 (BitVec.ofNat 9 r)) rest
    else .ok (.tLen (BitVec.ofNat 5 v), rest)

/-- The coded symbols of a block, by the decoded C symbol (R77, R80). -/
def decodeSymbol (pk : PeekPastEnd) (t : HufTable) (bits : List Bool) : Except DecodeError (Instr × List Bool) :=
  match t.decodeSym pk bits with
  | .error e => .error e
  | .ok (v, rest) =>
    if v < 256 then .ok (.lit (BitVec.ofNat 8 v), rest)
    else .ok (.backref (BitVec.ofNat 9 v), rest)

/-- The `pos` element, by the decoded P symbol (R78, R80). -/
def decodeDist (pk : PeekPastEnd) (t : HufTable) (bits : List Bool) : Except DecodeError (Instr × List Bool) :=
  match t.decodeSym pk bits with
  | .error e => .error e
  | .ok (v, rest) =>
    if v = 0 then .ok (.pos0, rest)
    else if v = 1 then .ok (.pos1, rest)
    else decodeField (v - 1) (fun x => .posN (BitVec.ofNat 5 v) (BitVec.ofNat 30 x)) rest

/-- The element at a position, read from the bits there (R80). `t` is the table of the position's alphabet; the fields
that are no codewords do not use it. -/
def decode (pk : PeekPastEnd) (t : HufTable) : Place → List Bool → Except DecodeError (Instr × List Bool)
  | .frame, bits => decodeHdr bits
  | .blkCount, bits => decodeField 16 (fun n => .blkhdr (BitVec.ofNat 16 n)) bits
  | .tCount, bits => decodeField 5 (fun m => .tCnt (BitVec.ofNat 5 m)) bits
  | .tDegen, bits => decodeField 5 (fun v => .tDegen (BitVec.ofNat 5 v)) bits
  | .pCount f, bits => decodeField (Config.posCountBits f) (fun m => .pCnt f (BitVec.ofNat 5 m)) bits
  | .pDegen f, bits => decodeField (Config.posCountBits f) (fun v => .pDegen f (BitVec.ofNat 5 v)) bits
  | .ptEntry, bits => decodeLen bits
  | .ptZrun, bits => decodeField 2 (fun z => .zrun2 (BitVec.ofNat 2 z)) bits
  | .cCount, bits => decodeField 9 (fun m => .cCnt (BitVec.ofNat 9 m)) bits
  | .cDegen, bits => decodeField 9 (fun v => .cDegen (BitVec.ofNat 9 v)) bits
  | .cEntry, bits => decodeCEntry pk t bits
  | .symbol, bits => decodeSymbol pk t bits
  | .dist, bits => decodeDist pk t bits

/-! ## The canonical code (42_huffman_table.md R121 to R125) -/

/-- `count[len]` over the examined slots (R121). -/
def countLen (lens : List CodeLen) (len : Nat) : Nat :=
  lens.countP fun l => l.toNat = len

/-- `start[len]` (R122), in exact arithmetic; `start[0]` stands for `start[1]` = 0. -/
def startOf (lens : List CodeLen) : Nat → Nat
  | 0 => 0
  | 1 => 0
  | len + 2 => startOf lens (len + 1) + countLen lens (len + 1) * 2 ^ (16 - (len + 1))

/-- The 16-bit left-aligned codeword of symbol `v` (R125): the symbols of its length below it come first. -/
def codeOf (lens : List CodeLen) (v : Nat) : Nat :=
  startOf lens (lens.getD v 0).toNat
    + countLen (lens.take v) (lens.getD v 0).toNat * 2 ^ (16 - (lens.getD v 0).toNat)

/-- The codeword of symbol `v`, in stream order: the top `len` bits of its left-aligned code, or no bit for a degenerate
table (R125, R131). -/
def HufTable.codeword (t : HufTable) (v : Nat) : List Bool :=
  if t.degen then []
  else
    bitsOf (t.lenOf v)
      (codeOf (t.lens.take (Config.numSymbols t.alph)) v / 2 ^ (16 - t.lenOf v))

/-! ## The encoder -/

/-- Four bytes, least significant first, in stream order (R56, R71). -/
def encodeLE32 (v : Nat) : List Bool :=
  bitsOf 8 (v % 256) ++ bitsOf 8 (v / 256 % 256) ++ bitsOf 8 (v / 65536 % 256) ++ bitsOf 8 (v / 16777216 % 256)

/-- The bits of an element (R71 to R75), `t` being the table of the alphabet of its codeword. -/
def encode (t : HufTable) : Instr → List Bool
  | .hdr c o => encodeLE32 c.toNat ++ encodeLE32 o.toNat
  | .blkhdr n => bitsOf 16 n.toNat
  | .tCnt m => bitsOf 5 m.toNat
  | .tDegen v => bitsOf 5 v.toNat
  | .pCnt f m => bitsOf (Config.posCountBits f) m.toNat
  | .pDegen f v => bitsOf (Config.posCountBits f) v.toNat
  | .lenShort l => bitsOf 3 l.toNat
  | .lenLong k => [true, true, true] ++ List.replicate k true ++ [false]
  | .zrun2 z => bitsOf 2 z.toNat
  | .cCnt m => bitsOf 9 m.toNat
  | .cDegen v => bitsOf 9 v.toNat
  | .tZero => t.codeword 0
  | .tRun4 r => t.codeword 1 ++ bitsOf 4 r.toNat
  | .tRun9 r => t.codeword 2 ++ bitsOf 9 r.toNat
  | .tLen v => t.codeword v.toNat
  | .lit b => t.codeword b.toNat
  | .backref v => t.codeword v.toNat
  | .pos0 => t.codeword 0
  | .pos1 => t.codeword 1
  | .posN v x => t.codeword v.toNat ++ bitsOf (v.toNat - 1) x.toNat

/-- How many bits an element takes (the totals of R71 to R75). -/
def Instr.bitLength (t : HufTable) : Instr → Nat
  | .hdr _ _ => 64
  | .blkhdr _ => 16
  | .tCnt _ => 5
  | .tDegen _ => 5
  | .pCnt f _ => Config.posCountBits f
  | .pDegen f _ => Config.posCountBits f
  | .lenShort _ => 3
  | .lenLong k => 4 + k
  | .zrun2 _ => 2
  | .cCnt _ => 9
  | .cDegen _ => 9
  | .tZero => t.codeBits 0
  | .tRun4 _ => t.codeBits 1 + 4
  | .tRun9 _ => t.codeBits 2 + 9
  | .tLen v => t.codeBits v.toNat
  | .lit b => t.codeBits b.toNat
  | .backref v => t.codeBits v.toNat
  | .pos0 => t.codeBits 0
  | .pos1 => t.codeBits 1
  | .posN v _ => t.codeBits v.toNat + (v.toNat - 1)

/-- A codeword's symbol, for the elements that begin with one (R75). -/
def Instr.codeSymbol : Instr → Option Nat
  | .hdr _ _ => none
  | .blkhdr _ => none
  | .tCnt _ => none
  | .tDegen _ => none
  | .pCnt _ _ => none
  | .pDegen _ _ => none
  | .lenShort _ => none
  | .lenLong _ => none
  | .zrun2 _ => none
  | .cCnt _ => none
  | .cDegen _ => none
  | .tZero => some 0
  | .tRun4 _ => some 1
  | .tRun9 _ => some 2
  | .tLen v => some v.toNat
  | .lit b => some b.toNat
  | .backref v => some v.toNat
  | .pos0 => some 0
  | .pos1 => some 1
  | .posN v _ => some v.toNat

/-! ## The opcode table's numbering (log 4) -/

/-- The alphabet whose codewords stand at a position (R80); T where the position has none. -/
def Place.alphabet : Place → Alphabet
  | .symbol => .c
  | .dist => .p
  | _ => .t

/-- A table with nothing in it, for positions that use none. -/
def HufTable.none : HufTable :=
  { alph := .t, degen := false, const := 0, lens := [], fix := [], left := [], right := [] }

/-- The position at which a table word of `nbits` bits is read. Bits alone select no element (R80, C9): the header is the
table's only element of 64 bits, the block count the one of 16, and any other width is read where the bits themselves
select the element, at a length entry (R73). -/
def tableWordPlace (nbits : Nat) : Place :=
  if nbits = 64 then .frame else if nbits = 16 then .blkCount else .ptEntry

/-- The bytes that hold a table word. The header's bits are those of its bytes, the first byte the low one (R56, R71). Of
any other element bit `j` of the word is the bit at offset `j` of the element (30_encoding.md section 2), and zero bits
follow it. -/
def tableWordBytes (nbits w : Nat) : List Byte :=
  if nbits = 64 then (List.range 8).map fun j => BitVec.ofNat 8 (w / 256 ^ j)
  else
    (List.range ((nbits + 7) / 8 + 8)).map fun j =>
      BitVec.ofNat 8 (zeroFilled 8 0 ((List.range 8).map fun i => decide (8 * j + i < nbits) && w.testBit (8 * j + i)))

/-- The element the decoder reads from a word numbered as spec/opcode_table.json numbers it (log 4). -/
def decodeTableWord (nbits w : Nat) : Option Instr :=
  match decode .fault HufTable.none (tableWordPlace nbits) (bitsOfBytes (tableWordBytes nbits w)) with
  | .ok (i, _) => some i
  | .error _ => none

end Sys2Proof
end

