-- ==== Sys2Proof/Machine/State.lean ====
section
/-! DEFINITION. Machine/State.lean: the state of the core (10_state.md; 20_memory.md R50, R51), the reasons a step can
stop, and the state after reset (70_reset_and_hazards.md R210). -/

namespace Sys2Proof.Machine

/-- A buffer: its nonzero bytes by rising index (log 8). -/
abbrev Memory := List Host.Cell

/-- `STATUS.ERR` (R22, R190). -/
inductive ErrCode where
  | ok
  | invalidSrcSize
  | invalidDstSize
  | malformedSrcData
  deriving DecidableEq, Repr

/-- The cause tags of R191 to R193, kept for the model's trace only (R193; log 16). -/
inductive Cause where
  | shortSrc
  | csize
  | osize
  | exhausted
  | lengthTooLong
  | badCodeSet
  | badDistance
  | internal
  deriving DecidableEq, Repr

/-- `PHASE` (R28). -/
inductive Phase where
  | idle
  | frame
  | symbol
  | blkCount
  | ptCount
  | ptEntry
  | ptZrun
  | ptBuild
  | cCount
  | cEntry
  | cBuild
  | dist
  | copy
  deriving DecidableEq, Repr

/-- `ALPH` (R33): which generic array is being read, 0 = T and 1 = P. -/
inductive GenAlph where
  | t
  | p
  deriving DecidableEq, Repr

/-- What the host can do to the core (R216), and letting the engine step (log 1). -/
inductive HostMove where
  /-- the host leaves this step to the engine -/
  | engine
  /-- a register write: byte offset, access width in bytes, value (R20) -/
  | writeReg (offset width : Nat) (value : Word)
  /-- a register read: byte offset, access width in bytes (R20) -/
  | readReg (offset width : Nat)
  /-- the host supplies the source buffer (R213) -/
  | supplySrc (bytes : List Byte)
  /-- the host supplies the destination buffer, with what it holds (R213) -/
  | supplyDst (bytes : List Byte)
  /-- the host reads a byte of the destination buffer (R216) -/
  | readDst (index : Nat)
  /-- the host asserts reset (R210, R211) -/
  | reset
  deriving DecidableEq, Repr

/-- Stops on states that no run reaches (log 18). -/
inductive Fault where
  /-- Raised by the output write unit for a write at or beyond `DST_LEN`. R52 says the engine makes none. Safe. -/
  | dstWriteOutside
  /-- Raised by COPY for a read at or beyond `DST_LEN`. R52 says the engine makes none. Safe. -/
  | dstReadOutside
  /-- Raised by a length entry for a slot outside its length memory (R36, R142, R152 keep it inside). Safe. -/
  | slotOutside
  deriving DecidableEq, Repr

/-- Situations to which the spec gives no effect. -/
inductive Refusal where
  /-- Raised by exec for an instruction that has no meaning yet. Safe. -/
  | notModelled (mnemonic : String)
  /-- Raised by a meaning whose element is not one the position selects, or whose operands its encoding does not admit
  (R80, C9): no step of the engine presents one. Safe (log 17). -/
  | notSelected
  /-- Raised by a host access to the registers that is no aligned 32-bit word (R20, U5). Safe. -/
  | badRegisterAccess
  /-- Raised by the host supplying a buffer while BUSY (R62, R64, U6). Safe. -/
  | bufferBusy
  /-- Raised by a START whose SRC_LEN or DST_LEN exceeds the buffer supplied (R214, R215, U7). Safe. -/
  | launchTooLong
  /-- Raised by a host read of a DST byte outside the buffer supplied: there is no such byte (R51). Safe. -/
  | noSuchDstByte
  deriving DecidableEq, Repr

/-- The state. Every field up to `right` is the spec's; `src`, `dst` and their sizes are the host's buffers; `peek` is the
parameter; the rest are the model's own (INVENTORY.md, State). -/
structure State where
  /-- `CTRL.VARIANT` (R21) -/
  variant : Variant
  /-- `STATUS.BUSY` (R22) -/
  busy : Bool
  /-- `STATUS.DONE` (R22) -/
  done : Bool
  /-- `STATUS.ERR` (R22) -/
  err : ErrCode
  /-- `SRC_LEN` (R23) -/
  srcLen : Word
  /-- `DST_LEN` (R24) -/
  dstLen : Word
  /-- `PHASE` (R28) -/
  phase : Phase
  /-- `VAR` (R29) -/
  var : Variant
  /-- `BITPOS` (R30) -/
  bitPos : BitPos
  /-- `OUT_LEN` (R31) -/
  outLen : Word
  /-- `REMAIN` (R32) -/
  remain : BitVec 16
  /-- `ALPH` (R33) -/
  alph : GenAlph
  /-- `CNT` (R33) -/
  cnt : BitVec 9
  /-- `IDX` (R33) -/
  idx : BitVec 10
  /-- `CPY_LEN` (R34) -/
  cpyLen : BitVec 9
  /-- `CPY_SRC` (R34) -/
  cpySrc : Word
  /-- `PT_DEGEN` (R35) -/
  ptDegen : Bool
  /-- `PT_CONST` (R35) -/
  ptConst : BitVec 5
  /-- `C_DEGEN` (R35) -/
  cDegen : Bool
  /-- `C_CONST` (R35) -/
  cConst : BitVec 9
  /-- `PT_LEN[0..30]` (R36) -/
  ptLen : Vector CodeLen 31
  /-- `C_LEN[0..509]` (R36) -/
  cLen : Vector CodeLen 510
  /-- `PT_FIX[0..255]` (R37) -/
  ptFix : Vector Entry 256
  /-- `C_FIX[0..4095]` (R37) -/
  cFix : Vector Entry 4096
  /-- `LEFT[0..1018]` (R38) -/
  left : Vector Entry 1019
  /-- `RIGHT[0..1018]` (R38) -/
  right : Vector Entry 1019
  /-- the source buffer `SRC` (R50) -/
  src : Memory
  /-- the destination buffer `DST` (R51) -/
  dst : Memory
  /-- the size of the buffer the host supplies as `SRC` (R215) -/
  srcCap : Nat
  /-- the size of the buffer the host supplies as `DST` (R214) -/
  dstCap : Nat
  /-- the parameter `PEEK_PAST_END` (R8; log 5) -/
  peek : PeekPastEnd
  /-- the cause tag of the last error (R193; log 16) -/
  cause : Option Cause
  /-- the index ranges (first, one past the last) of the destination buffer whose contents are unspecified (R195, R211;
  log 11) -/
  dstLost : List (Nat × Nat)
  /-- the counter the free values are applied to (log 22) -/
  free : Nat
  /-- the host's pending moves, oldest first (log 1) -/
  host : List HostMove
  /-- the value the host's last read returned (log 1) -/
  rdata : Word
  deriving DecidableEq, Repr

/-- The machine right after reset (R42, R210): every register zero, `PHASE = IDLE`, `PEEK_PAST_END` at its default (R8).
The table memories, which the spec leaves unspecified, are zero (log 7); no buffer has been supplied (log 8). -/
def State.reset : State where
  variant := .classic
  busy := false
  done := false
  err := .ok
  srcLen := 0
  dstLen := 0
  phase := .idle
  var := .classic
  bitPos := 0
  outLen := 0
  remain := 0
  alph := .t
  cnt := 0
  idx := 0
  cpyLen := 0
  cpySrc := 0
  ptDegen := false
  ptConst := 0
  cDegen := false
  cConst := 0
  ptLen := Vector.replicate 31 0
  cLen := Vector.replicate 510 0
  ptFix := Vector.replicate 256 0
  cFix := Vector.replicate 4096 0
  left := Vector.replicate 1019 0
  right := Vector.replicate 1019 0
  src := []
  dst := []
  srcCap := 0
  dstCap := 0
  peek := .fault
  cause := none
  dstLost := []
  free := 0
  host := []
  rdata := 0

end Sys2Proof.Machine
end

