-- ==== Sys2Proof/Machine/Flags.lean ====
section
/-! DEFINITION. Machine/Flags.lean: the status register and the control register as words (10_state.md R21, R22;
60_exceptions.md R190). The core has no other flag (R40). -/

namespace Sys2Proof.Machine

/-- The code of an error kind in `STATUS.ERR` (R22, R190). -/
def ErrCode.code : ErrCode → BitVec 2
  | .ok => 0#2
  | .invalidSrcSize => 1#2
  | .invalidDstSize => 2#2
  | .malformedSrcData => 3#2

/-- A variant's value in `CTRL.VARIANT` and `VAR` (R21, R29). -/
def variantBit : Variant → BitVec 1
  | .classic => 0#1
  | .tiano => 1#1

/-- The variant that a bit of a CTRL write selects (R21). -/
def variantOfBit (b : Bool) : Variant :=
  if b then .tiano else .classic

/-- `STATUS` as the host reads it: BUSY in bit 0, DONE in bit 1, ERR in bits 3:2, the rest 0 (R22). -/
def State.statusWord (s : State) : Word :=
  0#28 ++ (s.err.code ++ (BitVec.ofBool s.done ++ BitVec.ofBool s.busy))

/-- `CTRL` as the host reads it: START reads 0, VARIANT in bit 1, the rest 0 (R21). -/
def State.ctrlWord (s : State) : Word :=
  0#30 ++ (variantBit s.variant ++ 0#1)

/-- The last job ended in an error (R22). -/
def State.failed (s : State) : Bool :=
  s.done && decide (s.err ≠ .ok)

end Sys2Proof.Machine
end

