-- ==== Sys2Proof/Machine/Ops.lean ====
section
/-! DEFINITION. Machine/Ops.lean: the named operations over buffers, table memories and registers; the bit reader
(20_memory.md R50 to R60); raising an error (60_exceptions.md R194) and finishing a job (41_framer.md R106). -/

namespace Sys2Proof.Machine

/-- What a meaning answers. -/
abbrev Out := Host.Outcome State Fault Refusal

/-! ## Buffers -/

/-- What an unlisted byte of a buffer reads as (log 8). -/
def Memory.unlisted : Byte := 0#8

/-- The byte at an index of a buffer. -/
def Memory.read : Memory → Nat → Byte
  | [], _ => Memory.unlisted
  | (k, b) :: rest, a => if k = a then b else Memory.read rest a

/-- The canonical form: indices strictly rising, no entry equal to what an unlisted byte reads as. -/
def Memory.wf : Memory → Bool
  | [] => true
  | (k, b) :: rest => decide (b ≠ Memory.unlisted) && rest.all (fun c => decide (k < c.1)) && Memory.wf rest

/-- Putting a byte before the cells of higher index, or nothing where it is what an unlisted byte reads as. -/
def Memory.put (a : Nat) (b : Byte) (rest : Memory) : Memory :=
  if b = Memory.unlisted then rest else (a, b) :: rest

/-- Writing a byte, in canonical form. -/
def Memory.write : Memory → Nat → Byte → Memory
  | [], a, b => Memory.put a b []
  | (k, c) :: rest, a, b =>
    if a < k then Memory.put a b ((k, c) :: rest)
    else if a = k then Memory.put a b rest
    else (k, c) :: Memory.write rest a b

/-- A buffer that holds some bytes from index `a` on. -/
def Memory.ofBytes : Nat → List Byte → Memory
  | _, [] => []
  | a, b :: rest => Memory.put a b (Memory.ofBytes (a + 1) rest)

/-! ## Unspecified bytes of the destination buffer (log 11) -/

/-- An index lies in one of some ranges. -/
def lostAt (ranges : List (Nat × Nat)) (i : Nat) : Bool :=
  ranges.any fun r => decide (r.1 ≤ i ∧ i < r.2)

/-- What is left of some ranges at and above an index. -/
def lostFrom (n : Nat) : List (Nat × Nat) → List (Nat × Nat)
  | [] => []
  | r :: rest => if r.2 ≤ n then lostFrom n rest else (max r.1 n, r.2) :: lostFrom n rest

/-- The ranges after every byte below an index has become unspecified: `DST[0 .. DST_LEN)` and no other byte (R195). -/
def loseBelow (n : Nat) (ranges : List (Nat × Nat)) : List (Nat × Nat) :=
  if n = 0 then ranges else (0, n) :: lostFrom n ranges

/-! ## Table memories -/

/-- One entry written; an index outside the memory changes nothing. -/
def setEntry {α : Type} {n : Nat} (v : Vector α n) (i : Nat) (x : α) : Vector α n :=
  ⟨⟨v.toList.set i x⟩, by simp⟩

/-- `k` entries from `first` on written with one value (R125). -/
def fillEntries {α : Type} {n : Nat} (v : Vector α n) (first k : Nat) (x : α) : Vector α n :=
  ⟨⟨(v.toList.take first ++ List.replicate k x).take n ++ v.toList.drop (first + k)⟩, by simp; omega⟩

/-! ## The source buffer and the bit reader -/

/-- `TOTAL_BITS` = 8 x (SRC_LEN - 8) (R57, R105; log 6). -/
def State.totalBits (s : State) : Nat :=
  8 * (s.srcLen.toNat - Config.hdrBytes)

/-- `SrcRead(i)`, defined only below SRC_LEN (R50). -/
def State.srcRead (s : State) (i : Nat) : Option Byte :=
  if i < s.srcLen.toNat then some (s.src.read i) else none

/-- `BIT(k)`: bit `7 - (k mod 8)` of byte `SRC[8 + k / 8]`; it exists only below TOTAL_BITS (R55, R58). -/
def State.bit (s : State) (k : Nat) : Option Bool :=
  if k < s.totalBits then (s.srcRead (Config.hdrBytes + k / 8)).map fun b => b.getLsbD (7 - k % 8) else none

/-- At most `fuel` bits of the sequence from bit `k` on. -/
def State.bitsFrom (s : State) : Nat → Nat → List Bool
  | 0, _ => []
  | fuel + 1, k =>
    match s.bit k with
    | none => []
    | some b => b :: State.bitsFrom s fuel (k + 1)

/-- The unread bits of the sequence: `TOTAL_BITS - BITPOS` of them (R57). -/
def State.bits (s : State) : List Bool :=
  s.bitsFrom (s.totalBits - s.bitPos.toNat) s.bitPos.toNat

/-- The bytes of the header that exist, at most eight (R56, R101). -/
def State.headerBytes (s : State) : List Byte :=
  (List.range Config.hdrBytes).filterMap s.srcRead

/-- The cursor moved on by `n` bits (R59). -/
def State.advance (n : Nat) (s : State) : State :=
  { s with bitPos := BitVec.ofNat 35 (s.bitPos.toNat + n) }

/-! ## The end of a job -/

/-- `raise K(info)` (R194): the one way an error is taken. STATUS becomes {BUSY 0, DONE 1, ERR code(K)}, PHASE becomes
IDLE, nothing else of the machine changes. The contents of `DST[0 .. DST_LEN)` are unspecified from here on (R195), which
the model's own fields record (log 10, 11, 16, 22). -/
def State.raise (k : ErrCode) (c : Cause) (s : State) : State :=
  { s with busy := false, done := true, err := k, phase := .idle, cause := some c,
           dstLost := loseBelow s.dstLen.toNat s.dstLost, free := s.free + 1 }

/-- `Finish(OK)` (R106): STATUS becomes {BUSY 0, DONE 1, ERR 0}, PHASE becomes IDLE. An error has no return (R197):
this and START are the only other ways out of a job and of IDLE. -/
def State.finish (s : State) : State :=
  { s with busy := false, done := true, err := .ok, phase := .idle }

/-- `PHASE <- p`. -/
def State.goto (p : Phase) (s : State) : State :=
  { s with phase := p }

/-- `MalformedSrcData` with its cause tag (R193). -/
def malformed (c : Cause) (s : State) : Out :=
  .next (s.raise .malformedSrcData c)

/-- `POP(n)` (R59) and then the rest of a meaning: a failing `POP` does not move the cursor. -/
def popThen (n : Nat) (s : State) (k : State → Out) : Out :=
  if s.bitPos.toNat + n ≤ s.totalBits then k (s.advance n) else malformed .exhausted s

/-- The tail of LEN_LONG, `n` one-bits and a zero-bit popped one at a time (R144): a tail that meets the end of the
sequence has consumed all of it. -/
def tailThen (n : Nat) (s : State) (k : State → Out) : Out :=
  if s.bitPos.toNat + (n + 1) ≤ s.totalBits then k (s.advance (n + 1))
  else malformed .exhausted (s.advance (s.totalBits - s.bitPos.toNat))

/-! ## The output write unit -/

/-- `DstRead(i)`: the byte exists only below DST_LEN (R51). -/
def State.dstRead (s : State) (i : Nat) : Option Byte :=
  if i < s.dstLen.toNat then some (s.dst.read i) else none

/-- The register part of `Write(b)`: `DstWrite(OUT_LEN, b)` and `OUT_LEN <- OUT_LEN + 1` (R165). -/
def State.store (b : Byte) (s : State) : State :=
  { s with dst := s.dst.write s.outLen.toNat b, outLen := s.outLen + 1 }

/-- The job's end when DST is full (R106, R165): `DST[0 .. DST_LEN)` holds the output (R62). What an earlier job left
unspecified at or above DST_LEN stays so, and every other byte there keeps its value (the model's reading, log 11). -/
def State.finishFull (s : State) : State :=
  { s.finish with dstLost := lostFrom s.dstLen.toNat s.dstLost }

/-- `Write(b)` (R165) and then the rest of the step, unless the write fills DST and ends the job. -/
def writeThen (b : Byte) (s : State) (k : State → Out) : Out :=
  if s.outLen.toNat < s.dstLen.toNat then
    if (s.store b).outLen = s.dstLen then .next (s.store b).finishFull else k (s.store b)
  else .fault .dstWriteOutside

end Sys2Proof.Machine
end

