-- ==== Sys2Proof/Machine/Operands.lean ====
section
/-! DEFINITION. Machine/Operands.lean: what an element reads from the state before it acts: its position (30_encoding.md
R80), the table of its alphabet (42_huffman_table.md R120), and its codeword (R131 to R133). -/

namespace Sys2Proof.Machine

/-! ## Positions -/

/-- The state stands at a position (R28, R80). The entry loops read an element only while their condition holds (R142,
R152); a degenerate constant follows a count of 0 (R141, R151); a coded symbol needs REMAIN above 0 (R161). -/
def State.isAt (s : State) : Place → Bool
  | .frame => decide (s.phase = .frame)
  | .blkCount => decide (s.phase = .blkCount)
  | .tCount => decide (s.phase = .ptCount ∧ s.alph = .t)
  | .tDegen => decide (s.phase = .ptCount ∧ s.alph = .t ∧ s.cnt = 0)
  | .pCount f => decide (s.phase = .ptCount ∧ s.alph = .p ∧ s.var = f)
  | .pDegen f => decide (s.phase = .ptCount ∧ s.alph = .p ∧ s.var = f ∧ s.cnt = 0)
  | .ptEntry => decide (s.phase = .ptEntry ∧ s.idx.toNat < s.cnt.toNat)
  | .ptZrun => decide (s.phase = .ptZrun)
  | .cCount => decide (s.phase = .cCount)
  | .cDegen => decide (s.phase = .cCount ∧ s.cnt = 0)
  | .cEntry => decide (s.phase = .cEntry ∧ s.idx.toNat < s.cnt.toNat ∧ s.idx.toNat < Config.cCap)
  | .symbol => decide (s.phase = .symbol ∧ s.remain ≠ 0)
  | .dist => decide (s.phase = .dist)

/-- The element is one that the position selects and that its encoding admits. -/
def State.selects (s : State) (i : Instr) : Bool :=
  i.wf && s.isAt i.place

/-- A meaning, where its element is selected (log 17). -/
def ifSelected (i : Instr) (s : State) (k : State → Out) : Out :=
  if s.selects i then k s else .refused .notSelected

/-! ## Tables and codewords -/

/-- The table of an alphabet (R120). T and P share their memories and their degenerate bit. -/
def State.table (s : State) : Alphabet → HufTable
  | .t =>
    { alph := .t, degen := s.ptDegen, const := s.ptConst.toNat, lens := s.ptLen.toList, fix := s.ptFix.toList,
      left := s.left.toList, right := s.right.toList }
  | .c =>
    { alph := .c, degen := s.cDegen, const := s.cConst.toNat, lens := s.cLen.toList, fix := s.cFix.toList,
      left := s.left.toList, right := s.right.toList }
  | .p =>
    { alph := .p, degen := s.ptDegen, const := s.ptConst.toNat, lens := s.ptLen.toList, fix := s.ptFix.toList,
      left := s.left.toList, right := s.right.toList }

/-- The codeword of symbol `v` consumed, and then the rest of a meaning. A degenerate table consumes nothing and cannot
fail (R131). Otherwise the fixed-table `PEEK` may find too few bits under `Fault` (R60, R132), and `POP(L[v])` may (R133;
a trie walk that runs out of bits is the same failure, R132). -/
def codeThen (a : Alphabet) (v : Nat) (s : State) (k : State → Out) : Out :=
  if (s.table a).degen then k s
  else if s.peek = .fault ∧ s.totalBits < s.bitPos.toNat + Config.tableBits a then malformed .exhausted s
  else popThen ((s.table a).lenOf v) s k

/-! ## Reading the element at the cursor -/

/-- The bits the element of a position is read from: the header bytes, or the unread bits of the sequence (R57, R71). -/
def State.bitsAt (s : State) : Place → List Bool
  | .frame => bitsOfBytes s.headerBytes
  | _ => s.bits

/-- The element at the cursor, read at a position. -/
def State.fetch (s : State) (p : Place) : Except DecodeError (Instr × List Bool) :=
  decode s.peek (s.table p.alphabet) p (s.bitsAt p)

/-- No element could be read: the error its reading raises (R59, R101, R132, R134), the cursor standing after the last
`POP` that succeeded (R194; log 20). -/
def readFailed (s : State) : DecodeError → Out
  | .exhausted rest => malformed .exhausted (s.advance (s.bits.length - rest.length))
  | .emptyEntry rest => malformed .internal (s.advance (s.bits.length - rest.length))
  | .shortHeader => .next (s.raise .invalidSrcSize .shortSrc)

end Sys2Proof.Machine
end

