-- ==== Sys2Proof/Machine/Block.lean ====
section
/-! DEFINITION. Machine/Block.lean: the block driver and the overlapping copy (44_block_driver_output.md). -/

namespace Sys2Proof.Machine

/-- The block count loaded (R160): the T array follows. -/
def State.loadBlock (n : BitVec 16) (s : State) : State :=
  { s with remain := n, alph := .t, phase := .ptCount }

/-- `REMAIN <- REMAIN - 1`, once per coded symbol (R162). -/
def State.countSymbol (s : State) : State :=
  { s with remain := s.remain - 1 }

/-- CPY_LEN loaded by a back-reference (R164): the distance follows. -/
def State.loadCopy (len : Nat) (s : State) : State :=
  { s with cpyLen := BitVec.ofNat 9 len, phase := .dist }

/-- One byte of a copy counted (R166): both copy registers move, and the copy ends at CPY_LEN 0. -/
def State.countCopy (s : State) : State :=
  { s with cpySrc := s.cpySrc + 1, cpyLen := s.cpyLen - 1, phase := if s.cpyLen - 1 = 0 then .symbol else .copy }

/-- BLKHDR (R160). -/
def execBlkhdr (n : BitVec 16) (s : State) : Out :=
  ifSelected (.blkhdr n) s fun s => popThen 16 s fun s => .next (s.loadBlock n)

/-- LIT (R162, R163): one byte written; SYMBOL again unless that filled DST. -/
def execLit (b : BitVec 8) (s : State) : Out :=
  ifSelected (.lit b) s fun s =>
    codeThen .c b.toNat s fun s => writeThen b s.countSymbol fun s => .next (s.goto .symbol)

/-- BACKREF (R162, R164): the length `v - 253`; the distance follows. -/
def execBackref (v : BitVec 9) (s : State) : Out :=
  ifSelected (.backref v) s fun s =>
    codeThen .c v.toNat s fun s => .next (s.countSymbol.loadCopy (v.toNat - 253))

/-- SYMBOL with REMAIN = 0 (R161): a block header is due. -/
def nextBlock (s : State) : Out :=
  .next (s.goto .blkCount)

/-- COPY (R166): one byte read below the output, then written. When the write fills DST the job ends there (R167; the
copy registers then keep their values, log 15). -/
def copyByte (s : State) : Out :=
  match s.dstRead s.cpySrc.toNat with
  | none => .fault .dstReadOutside
  | some b => writeThen b s fun s => .next s.countCopy

end Sys2Proof.Machine
end

