-- ==== Sys2Proof/Machine/Framer.lean ====
section
/-! DEFINITION. Machine/Framer.lean: the stream framer (41_framer.md): starting a job and the header. -/

namespace Sys2Proof.Machine

/-- START's register writes (R100), the variant already sampled into CTRL. `cause` is the model's trace (log 16). -/
def State.startJob (s : State) : State :=
  { s with var := s.variant, busy := true, done := false, err := .ok, outLen := 0, bitPos := 0, remain := 0,
           cpyLen := 0, ptDegen := false, cDegen := false, phase := .frame, cause := none }

/-- The session start (R105). -/
def State.sessionStart (s : State) : State :=
  { s with bitPos := 0, outLen := 0, remain := 0, phase := .symbol }

/-- HDR (R101, R102, R196): the checks in their order, the empty fast path, the session start. -/
def execHdr (csize osize : BitVec 32) (s : State) : Out :=
  ifSelected (.hdr csize osize) s fun s =>
    if s.srcLen.toNat < Config.hdrBytes then .next (s.raise .invalidSrcSize .shortSrc)
    else if s.srcLen.toNat < csize.toNat then .next (s.raise .invalidSrcSize .csize)
    else if osize = 0 then .next s.finish
    else if osize ≠ s.dstLen then .next (s.raise .invalidDstSize .osize)
    else .next s.sessionStart

end Sys2Proof.Machine
end

