-- ==== Sys2Proof/Machine/LengthArrays.lean ====
section
/-! DEFINITION. Machine/LengthArrays.lean: the length-array decoders (43_length_arrays.md). -/

namespace Sys2Proof.Machine

/-! ## The generic array (T and P) -/

/-- The generic count loaded (R140): PT_LEN cleared, IDX 0. A count of 0 stays in the phase for its constant (R141). -/
def State.loadPtCount (c : BitVec 9) (s : State) : State :=
  { s with cnt := c, ptLen := Vector.replicate 31 0, idx := 0, phase := if c = 0 then s.phase else .ptEntry }

/-- The phase of the entry loop once IDX has moved (R142): on while IDX < CNT, else the build. -/
def State.ptLoopPhase (s : State) (i : Nat) : Phase :=
  if i < s.cnt.toNat then .ptEntry else .ptBuild

/-- One length entry placed (R142): PT_LEN[IDX] gets `min(l, 17)`, IDX moves on, and the zero-run follows the third entry
of a T array (R145). -/
def State.placePtLen (l : Nat) (s : State) : State :=
  { s with
    ptLen := setEntry s.ptLen s.idx.toNat (BitVec.ofNat 5 (min l 17))
    idx := BitVec.ofNat 10 (s.idx.toNat + 1)
    phase := if s.alph = .t ∧ s.idx.toNat + 1 = 3 then .ptZrun else s.ptLoopPhase (s.idx.toNat + 1) }

/-- A length entry's write, which R142 keeps inside PT_LEN (log 18). -/
def putPtLen (l : Nat) (s : State) : Out :=
  if s.idx.toNat < Config.ptCap then .next (s.placePtLen l) else .fault .slotOutside

/-- The zero-run of the T array (R145): IDX gets `min(IDX + z, 31)`. -/
def State.skipPt (z : Nat) (s : State) : State :=
  { s with
    idx := BitVec.ofNat 10 (min (s.idx.toNat + z) Config.ptCap)
    phase := s.ptLoopPhase (min (s.idx.toNat + z) Config.ptCap) }

/-- The constant of a degenerate generic table (R141). -/
def State.setPtConst (v : BitVec 5) (next : Phase) (s : State) : State :=
  { s with ptConst := v, ptDegen := true, phase := next }

/-- T_CNT (R140). -/
def execTCnt (m : BitVec 5) (s : State) : Out :=
  ifSelected (.tCnt m) s fun s => popThen 5 s fun s => .next (s.loadPtCount (m.zeroExtend 9))

/-- T_DEGEN (R141): the C array follows. -/
def execTDegen (v : BitVec 5) (s : State) : Out :=
  ifSelected (.tDegen v) s fun s => popThen 5 s fun s => .next (s.setPtConst v .cCount)

/-- P_CNT (R140), 4 or 5 bits by the variant. -/
def execPCnt (f : Variant) (m : BitVec 5) (s : State) : Out :=
  ifSelected (.pCnt f m) s fun s =>
    popThen (Config.posCountBits f) s fun s => .next (s.loadPtCount (m.zeroExtend 9))

/-- P_DEGEN (R141), 4 or 5 bits by the variant: the block's symbols follow. -/
def execPDegen (f : Variant) (v : BitVec 5) (s : State) : Out :=
  ifSelected (.pDegen f v) s fun s =>
    popThen (Config.posCountBits f) s fun s => .next (s.setPtConst v .symbol)

/-- LEN_SHORT (R143). -/
def execLenShort (l : BitVec 3) (s : State) : Out :=
  ifSelected (.lenShort l) s fun s => popThen 3 s fun s => putPtLen l.toNat s

/-- LEN_LONG (R144): three one-bits, then the tail; the length is `7 + k`. -/
def execLenLong (k : Nat) (s : State) : Out :=
  ifSelected (.lenLong k) s fun s => popThen 3 s fun s => tailThen k s fun s => putPtLen (7 + k) s

/-- ZRUN2 (R145). -/
def execZrun2 (z : BitVec 2) (s : State) : Out :=
  ifSelected (.zrun2 z) s fun s => popThen 2 s fun s => .next (s.skipPt z.toNat)

/-! ## The Char&Length array -/

/-- The C count loaded (R150): C_LEN cleared, IDX 0. A count of 0 stays in the phase for its constant (R151). -/
def State.loadCCount (c : BitVec 9) (s : State) : State :=
  { s with cnt := c, cLen := Vector.replicate 510 0, idx := 0, phase := if c = 0 then s.phase else .cEntry }

/-- The phase of the entry loop once IDX has moved (R152): on while IDX < CNT and IDX < 510, else the build. -/
def State.cLoopPhase (s : State) (i : Nat) : Phase :=
  if i < s.cnt.toNat ∧ i < Config.cCap then .cEntry else .cBuild

/-- A run of zero entries (R152): IDX gets `min(IDX + run, 510)`; C_LEN already holds 0 there. -/
def State.skipC (run : Nat) (s : State) : State :=
  { s with
    idx := BitVec.ofNat 10 (min (s.idx.toNat + run) Config.cCap)
    phase := s.cLoopPhase (min (s.idx.toNat + run) Config.cCap) }

/-- One C length placed (R156): C_LEN[IDX] gets `min(l, 17)`, IDX moves on. -/
def State.placeCLen (l : Nat) (s : State) : State :=
  { s with
    cLen := setEntry s.cLen s.idx.toNat (BitVec.ofNat 5 (min l 17))
    idx := BitVec.ofNat 10 (s.idx.toNat + 1)
    phase := s.cLoopPhase (s.idx.toNat + 1) }

/-- The constant of a degenerate C table (R151): the P array follows. -/
def State.setCConst (v : BitVec 9) (s : State) : State :=
  { s with cConst := v, cDegen := true, alph := .p, phase := .ptCount }

/-- C_CNT (R150). -/
def execCCnt (m : BitVec 9) (s : State) : Out :=
  ifSelected (.cCnt m) s fun s => popThen 9 s fun s => .next (s.loadCCount m)

/-- C_DEGEN (R151). -/
def execCDegen (v : BitVec 9) (s : State) : Out :=
  ifSelected (.cDegen v) s fun s => popThen 9 s fun s => .next (s.setCConst v)

/-- T_ZERO (R153). -/
def execTZero (s : State) : Out :=
  ifSelected .tZero s fun s => codeThen .t 0 s fun s => .next (s.skipC 1)

/-- T_RUN4 (R154). -/
def execTRun4 (r : BitVec 4) (s : State) : Out :=
  ifSelected (.tRun4 r) s fun s =>
    codeThen .t 1 s fun s => popThen 4 s fun s => .next (s.skipC (r.toNat + 3))

/-- T_RUN9 (R155). -/
def execTRun9 (r : BitVec 9) (s : State) : Out :=
  ifSelected (.tRun9 r) s fun s =>
    codeThen .t 2 s fun s => popThen 9 s fun s => .next (s.skipC (r.toNat + 20))

/-- T_LEN (R156): the length is `v - 2`. -/
def execTLen (v : BitVec 5) (s : State) : Out :=
  ifSelected (.tLen v) s fun s => codeThen .t v.toNat s fun s => .next (s.placeCLen (v.toNat - 2))

end Sys2Proof.Machine
end

