-- ==== Sys2Proof/Machine/Position.lean ====
section
/-! DEFINITION. Machine/Position.lean: the position decoder (45_position_decoder.md) and the range check its distance
meets (44_block_driver_output.md R164). -/

namespace Sys2Proof.Machine

/-- CPY_SRC loaded for a distance that passes the check (R164): the copy follows. -/
def State.aimCopy (d : Nat) (s : State) : State :=
  { s with cpySrc := BitVec.ofNat 32 (s.outLen.toNat - d - 1), phase := .copy }

/-- The range check of a distance (R164): `d + 1 > OUT_LEN` is MalformedSrcData. -/
def takeDistance (d : Nat) (s : State) : Out :=
  if s.outLen.toNat < d + 1 then malformed .badDistance s else .next (s.aimCopy d)

/-- The distance of P symbol `v ≥ 2` with suffix `x` (R78, R183). -/
def distanceOf (v x : Nat) : Nat :=
  2 ^ (v - 1) + x

/-- POS_0 (R181). -/
def execPos0 (s : State) : Out :=
  ifSelected .pos0 s fun s => codeThen .p 0 s fun s => takeDistance 0 s

/-- POS_1 (R182). -/
def execPos1 (s : State) : Out :=
  ifSelected .pos1 s fun s => codeThen .p 1 s fun s => takeDistance 1 s

/-- POS_N (R183): the suffix is read only after the whole codeword. -/
def execPosN (v : BitVec 5) (x : BitVec 30) (s : State) : Out :=
  ifSelected (.posN v x) s fun s =>
    codeThen .p v.toNat s fun s =>
      popThen (v.toNat - 1) s fun s => takeDistance (distanceOf v.toNat x.toNat) s

end Sys2Proof.Machine
end

