-- ==== Sys2Proof/Machine/Dispatch.lean ====
section
/-! DEFINITION. Machine/Dispatch.lean: one arm per row of spec/opcode_table.json, one meaning per arm. -/

namespace Sys2Proof.Machine

/-- What an element of the stream does, at the position that selects it. -/
def exec (i : Instr) (s : State) : Host.Outcome State Fault Refusal :=
  match i with
  | .hdr csize osize => Sys2Proof.Machine.execHdr csize osize s
  | .blkhdr n => Sys2Proof.Machine.execBlkhdr n s
  | .tCnt m => Sys2Proof.Machine.execTCnt m s
  | .tDegen v => Sys2Proof.Machine.execTDegen v s
  | .pCnt f m => Sys2Proof.Machine.execPCnt f m s
  | .pDegen f v => Sys2Proof.Machine.execPDegen f v s
  | .lenShort l => Sys2Proof.Machine.execLenShort l s
  | .lenLong k => Sys2Proof.Machine.execLenLong k s
  | .zrun2 z => Sys2Proof.Machine.execZrun2 z s
  | .cCnt m => Sys2Proof.Machine.execCCnt m s
  | .cDegen v => Sys2Proof.Machine.execCDegen v s
  | .tZero => Sys2Proof.Machine.execTZero s
  | .tRun4 r => Sys2Proof.Machine.execTRun4 r s
  | .tRun9 r => Sys2Proof.Machine.execTRun9 r s
  | .tLen v => Sys2Proof.Machine.execTLen v s
  | .lit b => Sys2Proof.Machine.execLit b s
  | .backref v => Sys2Proof.Machine.execBackref v s
  | .pos0 => Sys2Proof.Machine.execPos0 s
  | .pos1 => Sys2Proof.Machine.execPos1 s
  | .posN v x => Sys2Proof.Machine.execPosN v x s

end Sys2Proof.Machine
end

