-- ==== Sys2Proof/Machine/HostInterface.lean ====
section
/-! DEFINITION. Machine/HostInterface.lean: what the host can do (10_state.md R20 to R27; 41_framer.md R100;
70_reset_and_hazards.md R210 to R216). -/

namespace Sys2Proof.Machine

/-- Only aligned 32-bit accesses are defined (R20, U5). -/
def wordAccess (offset width : Nat) : Bool :=
  decide (width = 4) && decide (offset % 4 = 0)

/-- A CTRL write while BUSY = 0 (R21, R100): VARIANT from bit 1, and a job if bit 0 is 1. A launch whose lengths exceed
the buffers supplied has no meaning (R214, R215, U7; log 9). -/
def writeCtrl (w : Word) (s : State) : Out :=
  if w.getLsbD 0 then
    if s.srcLen.toNat ≤ s.srcCap ∧ s.dstLen.toNat ≤ s.dstCap then
      .next ({ s with variant := variantOfBit (w.getLsbD 1) } : State).startJob
    else .refused .launchTooLong
  else .next { s with variant := variantOfBit (w.getLsbD 1) }

/-- A register write (R20 to R27): ignored while BUSY, and at every offset but CTRL, SRC_LEN and DST_LEN. -/
def writeReg (offset width : Nat) (w : Word) (s : State) : Out :=
  if wordAccess offset width then
    if s.busy then .next s
    else if offset = 0x00 then writeCtrl w s
    else if offset = 0x08 then .next { s with srcLen := w }
    else if offset = 0x0C then .next { s with dstLen := w }
    else .next s
  else .refused .badRegisterAccess

/-- `OUT_LEN` as the host reads it: after a failed job, a free value (R25, U2; log 10). -/
def State.outLenRead (s : State) : Word :=
  if s.failed then Config.freeOutLen s.free else s.outLen

/-- `BITPOS` as the host reads it: after a failed job, a free value (R26, U2; log 10). -/
def State.bitPosRead (s : State) : BitPos :=
  if s.failed then Config.freeBitPos s.free else s.bitPos

/-- The value of a register (R20 to R26); an offset that is not listed reads 0. -/
def State.regValue (s : State) (offset : Nat) : Word :=
  if offset = 0x00 then s.ctrlWord
  else if offset = 0x04 then s.statusWord
  else if offset = 0x08 then s.srcLen
  else if offset = 0x0C then s.dstLen
  else if offset = 0x10 then s.outLenRead
  else if offset = 0x14 then s.bitPosRead.extractLsb' 0 32
  else if offset = 0x18 then (s.bitPosRead.extractLsb' 32 3).zeroExtend 32
  else 0

/-- A register read (R20, R27): always allowed, no side effect; the host has the value. -/
def readReg (offset width : Nat) (s : State) : Out :=
  if wordAccess offset width then .next { s with rdata := s.regValue offset } else .refused .badRegisterAccess

/-- The host supplies `SRC` (R213), which it must not touch while BUSY (R62, R64, U6). -/
def supplySrc (bytes : List Byte) (s : State) : Out :=
  if s.busy then .refused .bufferBusy
  else .next { s with src := Memory.ofBytes 0 bytes, srcCap := bytes.length }

/-- The host supplies `DST` (R213), which it must not touch while BUSY (R62, U6). -/
def supplyDst (bytes : List Byte) (s : State) : Out :=
  if s.busy then .refused .bufferBusy
  else .next { s with dst := Memory.ofBytes 0 bytes, dstCap := bytes.length, dstLost := [] }

/-- The byte's contents are unspecified (R195, R211; log 11). -/
def State.dstByteLost (s : State) (i : Nat) : Bool :=
  lostAt s.dstLost i

/-- The byte belongs to the `DST` of the running job, `DST[0 .. DST_LEN)` (R51, R62): a host read of it races. -/
def State.dstRacing (s : State) (i : Nat) : Bool :=
  s.busy && decide (i < s.dstLen.toNat)

/-- The byte of the destination buffer the host reads: racing with the running job (U8; log 12), unspecified after an
error or a reset during a job (R195, R211, U1, U3; log 11), else what the buffer holds (R62, R214). -/
def State.dstByteRead (s : State) (i : Nat) : Byte :=
  if s.dstRacing i then Config.freeRace s.free i
  else if s.dstByteLost i then Config.freeDst s.free i
  else s.dst.read i

/-- The host reads a byte of the destination buffer (R216). A racing read takes a fresh free value (log 12, 22). -/
def readDst (i : Nat) (s : State) : Out :=
  if i < s.dstCap then
    .next { s with rdata := (s.dstByteRead i).zeroExtend 32, free := if s.dstRacing i then s.free + 1 else s.free }
  else .refused .noSuchDstByte

/-- Reset (R210, R211): every register as after power-on. The buffers, the parameter and the host's own moves are no
registers; if a job was running, the contents of its `DST[0 .. DST_LEN)` are unspecified (log 11, 21). -/
def State.hostReset (s : State) : State :=
  { State.reset with
    src := s.src, dst := s.dst, srcCap := s.srcCap, dstCap := s.dstCap, peek := s.peek,
    dstLost := if s.busy then loseBelow s.dstLen.toNat s.dstLost else s.dstLost,
    free := if s.busy then s.free + 1 else s.free,
    host := s.host, rdata := s.rdata }

end Sys2Proof.Machine
end

