-- ==== Sys2Proof/Machine/Huffman.lean ====
section
/-! DEFINITION. Machine/Huffman.lean: the canonical Huffman table builder (42_huffman_table.md R121 to R128). -/

namespace Sys2Proof.Machine

/-- What a build writes: a fixed table of `n` entries, the arena, and its two running values, `next_node` and `code[]`
(R124 to R126). -/
structure BuildState (n : Nat) where
  fix : Vector Entry n
  left : Vector Entry 1019
  right : Vector Entry 1019
  nextNode : Nat
  codes : List Nat
  deriving DecidableEq, Repr

/-- The address `p` of rule R126: of an entry of the fixed table, or of a child of a node. -/
inductive EntryAddr where
  | fix (i : Nat)
  | left (i : Nat)
  | right (i : Nat)
  deriving DecidableEq, Repr

/-- `*p`. -/
def entryAt {n : Nat} (b : BuildState n) : EntryAddr → Entry
  | .fix i => b.fix.toList.getD i Config.emptyEntry
  | .left i => b.left.toList.getD i Config.emptyEntry
  | .right i => b.right.toList.getD i Config.emptyEntry

/-- `*p <- e`. -/
def setEntryAt {n : Nat} (b : BuildState n) (e : Entry) : EntryAddr → BuildState n
  | .fix i => { b with fix := setEntry b.fix i e }
  | .left i => { b with left := setEntry b.left i e }
  | .right i => { b with right := setEntry b.right i e }

/-- The allocation of a node at `p` when `*p = EMPTY`: both children EMPTY, `*p` its id (R126). -/
def allocNode {n : Nat} (b : BuildState n) (p : EntryAddr) : BuildState n :=
  if entryAt b p = Config.emptyEntry then
    setEntryAt
      { b with
        left := setEntry b.left b.nextNode Config.emptyEntry
        right := setEntry b.right b.nextNode Config.emptyEntry
        nextNode := b.nextNode + 1 }
      (BitVec.ofNat 10 b.nextNode) p
  else b

/-- The child address a codeword bit selects: 0 is LEFT, 1 is RIGHT (R126, D17). -/
def childAddr {n : Nat} (b : BuildState n) (p : EntryAddr) (bit : Bool) : EntryAddr :=
  if bit then .right (entryAt b p).toNat else .left (entryAt b p).toNat

/-- The walk of rule R126 along the remaining bits of a codeword, and its leaf. -/
def insertBits {n : Nat} (sym : Nat) : List Bool → EntryAddr → BuildState n → BuildState n
  | [], p, b => setEntryAt b (BitVec.ofNat 10 sym) p
  | bit :: bits, p, b =>
    insertBits sym bits (childAddr (allocNode b p) p bit) (allocNode b p)

/-- Step (c), a code no longer than the table's index: `2^(TB - len)` entries (R125). -/
def insertShort {n : Nat} (tb sym len code : Nat) (b : BuildState n) : BuildState n :=
  { b with fix := fillEntries b.fix (code / 2 ^ (16 - tb)) (2 ^ (tb - len)) (BitVec.ofNat 10 sym) }

/-- Step (d), a longer code (R126): from the entry its leading `TB` bits address, along its bits `15 - TB` downward. -/
def insertLong {n : Nat} (tb sym len code : Nat) (b : BuildState n) : BuildState n :=
  insertBits sym (bitsOf (len - tb) (code / 2 ^ (16 - len))) (.fix (code / 2 ^ (16 - tb))) b

/-- One symbol of the assignment loop (R125). -/
def insertSymbol {n : Nat} (tb sym len : Nat) (b : BuildState n) : BuildState n :=
  if len = 0 then b
  else
    let code := b.codes.getD len 0
    let b' := if len ≤ tb then insertShort tb sym len code b else insertLong tb sym len code b
    { b' with codes := b'.codes.set len (code + 2 ^ (16 - len)) }

/-- The assignment loop over the symbols from `sym` on (R125). -/
def assignCodes {n : Nat} (tb : Nat) : Nat → List CodeLen → BuildState n → BuildState n
  | _, [], b => b
  | sym, l :: rest, b => assignCodes tb (sym + 1) rest (insertSymbol tb sym l.toNat b)

/-- Every fixed-table entry EMPTY, `next_node` at `N`, `code[len]` at `start[len]` (R124, R125). -/
def initBuild (n numSym : Nat) (lens : List CodeLen) (left right : Vector Entry 1019) : BuildState n :=
  { fix := Vector.replicate n Config.emptyEntry, left := left, right := right, nextNode := numSym,
    codes := (List.range 17).map (startOf lens) }

/-- The two checks of a build: every examined length at most 16 (R121), then exact coverage, `start[17] = 2^16` (R123). -/
def checkLens (lens : List CodeLen) : Option Cause :=
  if lens.any fun l => decide (Config.maxLen < l.toNat) then some .lengthTooLong
  else if startOf lens 17 ≠ 2 ^ 16 then some .badCodeSet
  else none

/-- `Build(A, L)` over the first `N` slots of a length array (R121 to R126). -/
def build (n : Nat) (a : Alphabet) (lens : List CodeLen) (left right : Vector Entry 1019) :
    Except Cause (BuildState n) :=
  match checkLens (lens.take (Config.numSymbols a)) with
  | some c => .error c
  | none =>
    .ok (assignCodes (Config.tableBits a) 0 (lens.take (Config.numSymbols a))
      (initBuild n (Config.numSymbols a) (lens.take (Config.numSymbols a)) left right))

/-- The alphabet a generic array belongs to (R33, R140). -/
def GenAlph.alphabet : GenAlph → Alphabet
  | .t => .t
  | .p => .p

/-- The T or P table as a build leaves it (R128). -/
def State.setPtTable (b : BuildState 256) (s : State) : State :=
  { s with ptFix := b.fix, left := b.left, right := b.right, ptDegen := false }

/-- The C table as a build leaves it (R128). -/
def State.setCTable (b : BuildState 4096) (s : State) : State :=
  { s with cFix := b.fix, left := b.left, right := b.right, cDegen := false }

/-- PT_BUILD (R146): build T or P, then the C array or the block's symbols. -/
def buildPt (s : State) : Out :=
  match build 256 s.alph.alphabet s.ptLen.toList s.left s.right with
  | .error c => malformed c s
  | .ok b => .next ((s.setPtTable b).goto (match s.alph with | .t => .cCount | .p => .symbol))

/-- C_BUILD (R157): build C, then the P array. -/
def buildC (s : State) : Out :=
  match build 4096 .c s.cLen.toList s.left s.right with
  | .error c => malformed c s
  | .ok b => .next { (s.setCTable b) with alph := .p, phase := .ptCount }

end Sys2Proof.Machine
end

