-- ==== Sys2Proof/Machine/Engine.lean ====
section
/-! DEFINITION. Machine/Engine.lean: the engine's step by PHASE (10_state.md R28; 30_encoding.md R80), and whose move the
next step is (00_scope.md R9; log 1). -/

namespace Sys2Proof.Machine

/-- The element at a position read and executed, or the error its reading raises. -/
def runElement (p : Place) (s : State) : Out :=
  match s.fetch p with
  | .ok (i, _) => exec i s
  | .error e => readFailed s e

/-- A count field, and in the same step the degenerate constant that follows a count of 0 (R140, R141, R150, R151; log
13): a count of 0 is the only outcome that leaves PHASE as it was. -/
def runCount (count constant : Place) (s : State) : Out :=
  match runElement count s with
  | .next s' => if s'.phase = s.phase then runElement constant s' else .next s'
  | .fault f => .fault f
  | .refused r => .refused r

/-- The count position of a generic array, and that of its constant (R140). -/
def State.genPlaces (s : State) : Place × Place :=
  match s.alph with
  | .t => (.tCount, .tDegen)
  | .p => (.pCount s.var, .pDegen s.var)

/-- The engine's next step (R28). The entry loops leave for their build as soon as their condition fails (R142, R152;
log 14). At IDLE the engine takes no step (log 2). -/
def engineStep (s : State) : Out :=
  match s.phase with
  | .idle => .next s
  | .frame => runElement .frame s
  | .symbol => if s.remain = 0 then nextBlock s else runElement .symbol s
  | .blkCount => runElement .blkCount s
  | .ptCount => runCount s.genPlaces.1 s.genPlaces.2 s
  | .ptEntry => if s.isAt .ptEntry then runElement .ptEntry s else .next (s.goto .ptBuild)
  | .ptZrun => runElement .ptZrun s
  | .ptBuild => buildPt s
  | .cCount => runCount .cCount .cDegen s
  | .cEntry => if s.isAt .cEntry then runElement .cEntry s else .next (s.goto .cBuild)
  | .cBuild => buildC s
  | .dist => runElement .dist s
  | .copy => copyByte s

/-- A move of the host (R216). -/
def hostMove (m : HostMove) (s : State) : Out :=
  match m with
  | .engine => engineStep s
  | .writeReg offset width w => writeReg offset width w s
  | .readReg offset width => readReg offset width s
  | .supplySrc bytes => supplySrc bytes s
  | .supplyDst bytes => supplyDst bytes s
  | .readDst i => readDst i s
  | .reset => .next s.hostReset

/-- The next step: the host's oldest pending move, or the engine's step where the host has none (log 1). -/
def nextStep (s : State) : Out :=
  match s.host with
  | [] => engineStep s
  | m :: rest => hostMove m { s with host := rest }

/-- The position a table word is placed at, made the engine's next element (log 3, log 4): a job is running, PHASE and
what else selects that position, and no move of the host pending. -/
def State.placeWord (s : State) (p : Place) (bytes : List Byte) : State :=
  match p with
  | .frame =>
    { s with host := [], busy := true, done := false, err := .ok, phase := .frame,
             src := Memory.ofBytes 0 bytes, srcCap := bytes.length, srcLen := BitVec.ofNat 32 bytes.length }
  | .blkCount =>
    { s with host := [], busy := true, done := false, err := .ok, phase := .blkCount, bitPos := 0,
             src := Memory.ofBytes 8 bytes, srcCap := 8 + bytes.length, srcLen := BitVec.ofNat 32 (8 + bytes.length) }
  | _ =>
    { s with host := [], busy := true, done := false, err := .ok, phase := .ptEntry, bitPos := 0, cnt := 1, idx := 0,
             src := Memory.ofBytes 8 bytes, srcCap := 8 + bytes.length, srcLen := BitVec.ofNat 32 (8 + bytes.length) }

end Sys2Proof.Machine
end

