-- ==== Sys2Proof/Machine/Step.lean ====
section
/-! DEFINITION. Machine/Step.lean: one step of the machine, and a table word placed where the next step reads. -/

namespace Sys2Proof.Machine

/-- One step: the host's next move or the engine's next step (00_scope.md R9, R10). -/
def step (s : State) : Host.Outcome State Fault Refusal :=
  Sys2Proof.Machine.nextStep s

/-- The state with an instruction, its bits numbered as spec/opcode_table.json numbers them, where `step` reads its next
element (log 3, log 4). -/
def State.withFetchWord (s : State) (nbits w : Nat) : State :=
  s.placeWord (tableWordPlace nbits) (tableWordBytes nbits w)

end Sys2Proof.Machine
end

