-- ==== Sys2Proof/Safety.lean ====
section
/-! DEFINITION. Safety.lean: what a sound state of the core is, when an element has the bits it needs, and how much work a
job still has: the terms the claims use. -/

namespace Sys2Proof.Machine

/-- A session is running: a job past its header (R105). -/
abbrev State.inSession (s : State) : Prop :=
  s.phase ≠ .idle ∧ s.phase ≠ .frame

/-- Every cell of a buffer lies below its size. -/
def Memory.within (m : Memory) (size : Nat) : Prop :=
  ∀ c ∈ m, c.1 < size

/-- The invariant of the core: the buffers are canonical and lie inside what the host supplies; STATUS and PHASE agree
(R22); a launched job fits its buffers (R214, R215); in a session the cursor and the output stay inside (R30, R31, R165);
the length arrays, the distance and the copy stay in their ranges (R34, R142, R145, R152, R166). -/
structure State.Inv (s : State) : Prop where
  srcWf : s.src.wf = true
  dstWf : s.dst.wf = true
  srcInside : s.src.within s.srcCap
  dstInside : s.dst.within s.dstCap
  busyPhase : s.busy = true ↔ s.phase ≠ .idle
  busyDone : s.busy = true → s.done = false
  errDone : s.done = false → s.err = .ok
  launched : s.busy = true → s.srcLen.toNat ≤ s.srcCap ∧ s.dstLen.toNat ≤ s.dstCap
  fresh : s.phase = .frame → s.bitPos = 0 ∧ s.outLen = 0 ∧ s.remain = 0
  session : s.inSession →
    Config.hdrBytes ≤ s.srcLen.toNat ∧ s.bitPos.toNat ≤ s.totalBits ∧ s.outLen.toNat < s.dstLen.toNat
  ptEntry : s.phase = .ptEntry → s.idx.toNat < s.cnt.toNat ∧ s.cnt.toNat ≤ Config.ptCap
  ptZrun : s.phase = .ptZrun → s.alph = .t ∧ s.idx = 3 ∧ s.cnt.toNat ≤ Config.ptCap
  cEntry : s.phase = .cEntry → s.idx.toNat < s.cnt.toNat ∧ s.idx.toNat < Config.cCap
  dist : s.phase = .dist → 3 ≤ s.cpyLen.toNat ∧ s.cpyLen.toNat ≤ 258
  copy : s.phase = .copy → 1 ≤ s.cpyLen.toNat ∧ s.cpyLen.toNat ≤ 258 ∧ s.cpySrc.toNat < s.outLen.toNat

/-- The element finds every bit it needs: its own bits (R59), and for a codeword of a built table under `Fault` the bits
the fixed-table lookup peeks at (R60, R132). -/
abbrev State.roomFor (s : State) (i : Instr) : Prop :=
  s.bitPos.toNat + i.bitLength (s.table i.place.alphabet) ≤ s.totalBits ∧
  (i.codeSymbol ≠ none → (s.table i.place.alphabet).degen = false → s.peek = .fault →
    s.bitPos.toNat + Config.tableBits i.place.alphabet ≤ s.totalBits)

/-- How far a phase can go without consuming a bit or writing a byte (R108). -/
def State.phaseWork (s : State) : Nat :=
  match s.phase with
  | .idle => 0
  | .frame => 1000
  | .ptBuild => 700
  | .ptEntry => 800
  | .ptZrun => 800
  | .cEntry => 100 + (Config.cCap - s.idx.toNat)
  | .cBuild => 50
  | .ptCount => 40
  | .cCount => 40
  | .symbol => 30
  | .blkCount => 20
  | .dist => 20
  | .copy => 10

/-- A bound on the steps a job still takes (R108): first the bytes still to write, then the bits still to read, then what
the phase can do without either. -/
def State.work (s : State) : Nat :=
  ((s.dstLen.toNat - s.outLen.toNat) * (s.totalBits + 1) + (s.totalBits - s.bitPos.toNat)) * 1024 + s.phaseWork

/-- The value of the first `n` bits, the first the most significant and a missing one 0 (R56, R59, R60). -/
def msbValue (n : Nat) (bits : List Bool) : Nat :=
  ((List.range n).map fun j => (bits.getD j false).toNat * 2 ^ (n - 1 - j)).sum

/-- The code space that some lengths cover, in units of 16-bit codewords (R123). -/
def codeSpace (lens : List CodeLen) : Nat :=
  (lens.map fun l => if l.toNat = 0 then 0 else 2 ^ (16 - l.toNat)).sum

/-- `LE32` of four bytes of a buffer from an index on (R56). -/
def Memory.le32 (m : Memory) (a : Nat) : Nat :=
  (m.read a).toNat + 2 ^ 8 * (m.read (a + 1)).toNat + 2 ^ 16 * (m.read (a + 2)).toNat + 2 ^ 24 * (m.read (a + 3)).toNat

/-- The table of an alphabet that a build leaves (R120, R128). -/
def tableOf {n : Nat} (a : Alphabet) (const : Nat) (lens : List CodeLen) (b : BuildState n) : HufTable :=
  { alph := a, degen := false, const := const, lens := lens, fix := b.fix.toList, left := b.left.toList,
    right := b.right.toList }

/-- The job has ended: STATUS {BUSY 0, DONE 1, ERR k} and PHASE IDLE (R106, R194). -/
abbrev State.endedWith (t : State) (k : ErrCode) : Prop :=
  t.busy = false ∧ t.done = true ∧ t.err = k ∧ t.phase = .idle

/-- The cursor after an element's own bits (R59, R133). -/
def State.cursorAfter (s : State) (i : Instr) : BitPos :=
  BitVec.ofNat 35 (s.bitPos.toNat + i.bitLength (s.table i.place.alphabet))

end Sys2Proof.Machine
end

