-- ==== Sys2Proof/Certificates/Slice0/Obligations.lean ====
section
/-! DEFINITION. Certificates/Slice0/Obligations.lean: the statements for the provers, from the numbered rules of spec/. -/

open Sys2Proof Sys2Proof.Machine

/-! ## Decoding and encoding -/

/-- A few elements whose bits stand in 95_test_vectors.md (sections 2.4, P1, P2) decode to what those rows say. -/
def Obligations.DecodedWordsReadRight : Prop :=
  decode .fault HufTable.none .blkCount (bitsOf 16 0b0000000000000010 ++ [true]) = .ok (.blkhdr 2, [true]) ∧
  decode .fault HufTable.none .tCount (bitsOf 5 0b00100) = .ok (.tCnt 4, []) ∧
  decode .fault HufTable.none .cCount (bitsOf 9 0b100000011) = .ok (.cCnt 259, []) ∧
  decode .fault HufTable.none .ptEntry (bitsOf 3 0b110) = .ok (.lenShort 6, []) ∧
  decode .fault HufTable.none .ptEntry (bitsOf 5 0b11110) = .ok (.lenLong 1, []) ∧
  decode .fault HufTable.none .ptEntry (bitsOf 13 0b1111111111110) = .ok (.lenLong 9, []) ∧
  decode .fault HufTable.none (.pCount .classic) (bitsOf 5 0b01010) = .ok (.pCnt .classic 5, [false]) ∧
  decode .fault HufTable.none (.pCount .tiano) (bitsOf 5 0b01010) = .ok (.pCnt .tiano 10, [])

/-- Every element that holds no codeword (HDR, BLKHDR, the counts, the constants, LEN_SHORT, LEN_LONG, ZRUN2) decodes back
from its own bits, with every operand at every value its encoding admits, whatever follows (R71 to R73). -/
def Obligations.FieldElementsRoundTrip : Prop :=
  ∀ (i : Instr) (pk : PeekPastEnd) (t : HufTable) (rest : List Bool),
    i.wf = true → i.codeSymbol = none → decode pk t i.place (encode t i ++ rest) = .ok (i, rest)

/-- An element that begins with the constant of a degenerate table decodes back from its raw bits alone (R74, R131). -/
def Obligations.DegenerateCodewordRoundTrip : Prop :=
  ∀ (i : Instr) (v : Nat) (pk : PeekPastEnd) (t : HufTable) (rest : List Bool),
    i.wf = true → i.codeSymbol = some v → t.degen = true → t.const = v →
    decode pk t i.place (encode t i ++ rest) = .ok (i, rest)

/-- The dual path is correct (R136): with a table that `Build` made, every element that begins with a codeword of a used
symbol decodes back from its codeword and raw bits, whatever follows. Under `Fault` the fixed-table lookup needs its bits
there (R60); under `ZeroFill` the element's own bits are enough, however few follow. -/
def Obligations.BuiltTableRoundTrip : Prop :=
  ∀ (i : Instr) (v : Nat) (pk : PeekPastEnd) (lens : List CodeLen) (left right : Vector Entry 1019) (const : Nat)
    (b : BuildState (2 ^ Config.tableBits i.place.alphabet)) (rest : List Bool),
    i.wf = true → i.codeSymbol = some v → v < Config.numSymbols i.place.alphabet → 0 < (lens.getD v 0).toNat →
    build _ i.place.alphabet lens left right = .ok b →
    (pk = .fault →
      Config.tableBits i.place.alphabet ≤ (encode (tableOf i.place.alphabet const lens b) i ++ rest).length) →
    decode pk (tableOf i.place.alphabet const lens b) i.place
      (encode (tableOf i.place.alphabet const lens b) i ++ rest) = .ok (i, rest)

/-- No lookup in a built table meets an EMPTY entry, whatever the bits (R127, R134). -/
def Obligations.BuiltTableHasNoReachableEmpty : Prop :=
  ∀ (a : Alphabet) (lens : List CodeLen) (left right : Vector Entry 1019) (const : Nat)
    (b : BuildState (2 ^ Config.tableBits a)) (pk : PeekPastEnd) (bits rest : List Bool),
    build _ a lens left right = .ok b → (tableOf a const lens b).decodeSym pk bits ≠ .error (.emptyEntry rest)

/-- What is read at a position stands at that position (R80) and its operands are ones its encoding admits. -/
def Obligations.FetchedElementIsSelected : Prop :=
  ∀ (s : State) (p : Place) (i : Instr) (rest : List Bool),
    s.fetch p = .ok (i, rest) → i.place = p ∧ i.wf = true

/-- An element that is read has all its bits, the lookahead of a built table included, and the bits after it are what is
left when it has been consumed (R59, R60, R132, R133). -/
def Obligations.FetchedElementHasRoom : Prop :=
  ∀ (s : State) (p : Place) (i : Instr) (rest : List Bool),
    p ≠ .frame → s.bitPos.toNat ≤ s.totalBits → s.fetch p = .ok (i, rest) →
    s.roomFor i ∧ (s.advance (i.bitLength (s.table p.alphabet))).bits = rest

/-! ## Steps and elements -/

/-- When the host has no move and the state stands at a position that is neither a count nor a constant, one step is the
meaning of the element read there (R28, R80). -/
def Obligations.StepRunsDecodedElement : Prop :=
  ∀ (s : State) (p : Place) (i : Instr) (rest : List Bool),
    s.host = [] → s.isAt p = true →
    (p = .frame ∨ p = .blkCount ∨ p = .ptEntry ∨ p = .ptZrun ∨ p = .cEntry ∨ p = .symbol ∨ p = .dist) →
    s.fetch p = .ok (i, rest) → step s = exec i s

/-- At a count position one step is the meaning of the count field, and if that leaves PHASE as it was (a count of 0) also
the meaning of the constant read after it (R140, R141, R150, R151; that both stand in ONE step is the model's reading of
R28 and R140, log 13). -/
def Obligations.CountStepRunsCountThenConstant : Prop :=
  ∀ (s : State) (p q : Place) (i : Instr) (rest : List Bool) (t : State),
    ((p = .tCount ∧ q = .tDegen) ∨ (∃ f, p = .pCount f ∧ q = .pDegen f) ∨ (p = .cCount ∧ q = .cDegen)) →
    s.host = [] → s.isAt p = true → s.fetch p = .ok (i, rest) → exec i s = .next t →
    (t.phase ≠ s.phase → step s = .next t) ∧
    (t.phase = s.phase → ∀ (j : Instr) (rest' : List Bool), t.fetch q = .ok (j, rest') → step s = exec j t)

/-- An element that the position does not select, or with an operand its encoding does not admit, is refused by name: bits
alone select no element (R80; the refusal is the model's, log 17). -/
def Obligations.UnselectedElementsAreRefused : Prop :=
  ∀ (i : Instr) (s : State), (i.wf = false ∨ s.isAt i.place = false) → exec i s = .refused .notSelected

/-- The loops over a length array end exactly at their count (R142, R145, R152): a step at PT_ENTRY that goes on moves IDX by
one, and the zero-run follows the third entry of a T array; a step at PT_ZRUN skips at most 3 slots and stays within 31; a
step at C_ENTRY moves IDX on, at most to 510; and the build follows if and only if the loop's condition then fails. That the
condition is tested in the step that moves IDX is the model's reading, log 14. -/
def Obligations.ArrayLoopsEndExactlyAtTheirCount : Prop :=
  ∀ s t : State, s.Inv → s.host = [] → step s = .next t → t.busy = true →
    (s.phase = .ptEntry → t.cnt = s.cnt ∧ t.idx.toNat = s.idx.toNat + 1 ∧
      t.phase = if s.alph = .t ∧ t.idx.toNat = 3 then .ptZrun
                else if t.idx.toNat < t.cnt.toNat then .ptEntry else .ptBuild) ∧
    (s.phase = .ptZrun → t.cnt = s.cnt ∧ s.idx.toNat ≤ t.idx.toNat ∧ t.idx.toNat ≤ s.idx.toNat + 3 ∧ t.idx.toNat ≤ 31 ∧
      t.phase = if t.idx.toNat < t.cnt.toNat then .ptEntry else .ptBuild) ∧
    (s.phase = .cEntry → t.cnt = s.cnt ∧ s.idx.toNat < t.idx.toNat ∧ t.idx.toNat ≤ 510 ∧
      t.phase = if t.idx.toNat < t.cnt.toNat ∧ t.idx.toNat < 510 then .cEntry else .cBuild)

/-- The unread bits are the bits of the payload from BITPOS on: bit `k` is bit `7 - (k mod 8)` of `SRC[8 + k / 8]`, and no
bit exists at or beyond TOTAL_BITS (R55, R57, R58). -/
def Obligations.UnreadBitsAreThePayload : Prop :=
  ∀ (s : State) (j : Nat), s.bitPos.toNat ≤ s.totalBits →
    (s.bitPos.toNat + j < 8 * (s.srcLen.toNat - 8) →
      s.bits[j]? = some ((s.src.read (8 + (s.bitPos.toNat + j) / 8)).getLsbD (7 - (s.bitPos.toNat + j) % 8))) ∧
    (8 * (s.srcLen.toNat - 8) ≤ s.bitPos.toNat + j → s.bits[j]? = none)

/-- `POP(n)` gives the next `n` bits, the first bit read the most significant, and moves past them; with fewer bits left
it fails and the cursor stays (R56, R59). -/
def Obligations.PopReadsMostSignificantFirst : Prop :=
  ∀ (n : Nat) (bits : List Bool),
    (n ≤ bits.length → popBits n bits = .ok (msbValue n bits, bits.drop n)) ∧
    (bits.length < n → popBits n bits = .error (.exhausted bits))

/-- `PEEK(n)` gives the next `n` bits; past the end it fails under `Fault` and reads missing bits as 0 under `ZeroFill`
(R60). -/
def Obligations.PeekFollowsTheParameter : Prop :=
  ∀ (n : Nat) (bits : List Bool) (pk : PeekPastEnd),
    ((n ≤ bits.length ∨ pk = .zeroFill) → peekBits pk n bits = .ok (msbValue n bits)) ∧
    (bits.length < n → pk = .fault → peekBits pk n bits = .error (.exhausted bits))

/-! ## The framer -/

/-- At FRAME with eight header bytes, one step is HDR of the two little-endian words of `SRC[0..8)` (R56, R71, R101). -/
def Obligations.HeaderFieldsAreLittleEndian : Prop :=
  ∀ s : State, s.host = [] → s.phase = .frame → 8 ≤ s.srcLen.toNat →
    step s = exec (.hdr (BitVec.ofNat 32 (s.src.le32 0)) (BitVec.ofNat 32 (s.src.le32 4))) s

/-- HDR makes its checks in the order of R101 and R196: short source, `compressed_size`, the empty fast path,
`orig_size`, and then the session starts (R105). -/
def Obligations.HeaderChecksInOrder : Prop :=
  ∀ (s : State) (c o : BitVec 32), s.phase = .frame →
    (s.srcLen.toNat < 8 → ∃ t, exec (.hdr c o) s = .next t ∧ t.endedWith .invalidSrcSize) ∧
    (8 ≤ s.srcLen.toNat → s.srcLen.toNat < c.toNat →
      ∃ t, exec (.hdr c o) s = .next t ∧ t.endedWith .invalidSrcSize) ∧
    (8 ≤ s.srcLen.toNat → c.toNat ≤ s.srcLen.toNat → o = 0 →
      ∃ t, exec (.hdr c o) s = .next t ∧ t.endedWith .ok) ∧
    (8 ≤ s.srcLen.toNat → c.toNat ≤ s.srcLen.toNat → o ≠ 0 → o ≠ s.dstLen →
      ∃ t, exec (.hdr c o) s = .next t ∧ t.endedWith .invalidDstSize) ∧
    (8 ≤ s.srcLen.toNat → c.toNat ≤ s.srcLen.toNat → o ≠ 0 → o = s.dstLen →
      exec (.hdr c o) s = .next { s with bitPos := 0, outLen := 0, remain := 0, phase := .symbol })

/-- The empty fast path (R102): `orig_size = 0` succeeds at once after both InvalidSrcSize checks, whatever DST_LEN and
the bytes beyond the header hold: one step changes STATUS and PHASE and nothing else, so OUT_LEN and BITPOS stay 0. -/
def Obligations.EmptyOutputSucceedsAtOnce : Prop :=
  ∀ s : State, s.Inv → s.host = [] → s.phase = .frame → 8 ≤ s.srcLen.toNat → s.src.le32 0 ≤ s.srcLen.toNat →
    s.src.le32 4 = 0 →
    step s = .next { s with busy := false, done := true, err := .ok, phase := .idle } ∧ s.outLen = 0 ∧ s.bitPos = 0

/-! ## The block driver -/

/-- BLKHDR loads REMAIN and goes to the T array; nothing else changes (R160). -/
def Obligations.BlockHeaderLoadsRemain : Prop :=
  ∀ (s : State) (n : BitVec 16), s.phase = .blkCount → s.bitPos.toNat + 16 ≤ s.totalBits →
    exec (.blkhdr n) s =
      .next { s with bitPos := BitVec.ofNat 35 (s.bitPos.toNat + 16), remain := n, alph := .t, phase := .ptCount }

/-- The symbol dispatch (R161): REMAIN = 0 makes a block header due, otherwise one coded symbol is decoded. -/
def Obligations.SymbolDispatch : Prop :=
  ∀ s : State, s.host = [] → s.phase = .symbol →
    (s.remain = 0 → step s = .next { s with phase := .blkCount }) ∧
    (s.remain ≠ 0 → ∀ (i : Instr) (rest : List Bool), s.fetch .symbol = .ok (i, rest) → step s = exec i s)

/-- LIT (R162, R163, R165): REMAIN falls by one and the byte goes to `DST[OUT_LEN]`; the job succeeds if that fills DST,
otherwise SYMBOL follows. Nothing else changes but BITPOS. -/
def Obligations.LiteralWritesOneByte : Prop :=
  ∀ (s : State) (b : BitVec 8), s.phase = .symbol → s.remain ≠ 0 → s.roomFor (.lit b) →
    s.outLen.toNat < s.dstLen.toNat →
    (s.outLen + 1 ≠ s.dstLen →
      exec (.lit b) s = .next { s with bitPos := s.cursorAfter (.lit b), remain := s.remain - 1,
                                       dst := s.dst.write s.outLen.toNat b, outLen := s.outLen + 1 }) ∧
    (s.outLen + 1 = s.dstLen →
      ∃ t, exec (.lit b) s = .next t ∧ t.endedWith .ok ∧ t.outLen = s.dstLen ∧ t.remain = s.remain - 1 ∧
        t.bitPos = s.cursorAfter (.lit b) ∧ t.dst = s.dst.write s.outLen.toNat b)

/-- BACKREF (R162, R164): REMAIN falls by one, CPY_LEN becomes `v - 253`, the distance follows; the constants 510 and 511
give 257 and 258 (R77). -/
def Obligations.BackrefLoadsCopyLength : Prop :=
  ∀ (s : State) (v : BitVec 9), s.phase = .symbol → s.remain ≠ 0 → 256 ≤ v.toNat → s.roomFor (.backref v) →
    exec (.backref v) s = .next { s with bitPos := s.cursorAfter (.backref v), remain := s.remain - 1,
                                         cpyLen := BitVec.ofNat 9 (v.toNat - 253), phase := .dist }

/-- POS_0, POS_1 and POS_N (R164, R180 to R184): for a distance `d` below OUT_LEN, CPY_SRC becomes `OUT_LEN - d - 1` and
the copy follows; nothing else changes but BITPOS. `d` is 0, 1, or `2^(v-1)` plus the suffix. -/
def Obligations.PositionsAimTheCopy : Prop :=
  ∀ s : State, s.phase = .dist →
    (s.roomFor .pos0 → 1 ≤ s.outLen.toNat →
      exec .pos0 s = .next { s with bitPos := s.cursorAfter .pos0, cpySrc := BitVec.ofNat 32 (s.outLen.toNat - 1),
                                    phase := .copy }) ∧
    (s.roomFor .pos1 → 2 ≤ s.outLen.toNat →
      exec .pos1 s = .next { s with bitPos := s.cursorAfter .pos1, cpySrc := BitVec.ofNat 32 (s.outLen.toNat - 2),
                                    phase := .copy }) ∧
    (∀ (v : BitVec 5) (x : BitVec 30), 2 ≤ v.toNat → x.toNat < 2 ^ (v.toNat - 1) → s.roomFor (.posN v x) →
      2 ^ (v.toNat - 1) + x.toNat < s.outLen.toNat →
      exec (.posN v x) s =
        .next { s with bitPos := s.cursorAfter (.posN v x), phase := .copy,
                       cpySrc := BitVec.ofNat 32 (s.outLen.toNat - (2 ^ (v.toNat - 1) + x.toNat) - 1) })

/-- A distance at or beyond OUT_LEN is MalformedSrcData (R164, R193). -/
def Obligations.DistanceBeyondOutputIsMalformed : Prop :=
  ∀ s : State, s.phase = .dist →
    (s.roomFor .pos0 → s.outLen.toNat = 0 → ∃ t, exec .pos0 s = .next t ∧ t.endedWith .malformedSrcData) ∧
    (s.roomFor .pos1 → s.outLen.toNat ≤ 1 → ∃ t, exec .pos1 s = .next t ∧ t.endedWith .malformedSrcData) ∧
    (∀ (v : BitVec 5) (x : BitVec 30), 2 ≤ v.toNat → x.toNat < 2 ^ (v.toNat - 1) → s.roomFor (.posN v x) →
      s.outLen.toNat ≤ 2 ^ (v.toNat - 1) + x.toNat →
      ∃ t, exec (.posN v x) s = .next t ∧ t.endedWith .malformedSrcData)

/-- COPY (R166, R167): one byte is read at CPY_SRC and written at OUT_LEN; both indices move on and CPY_LEN falls by one,
or the job succeeds if the write fills DST. -/
def Obligations.CopyMovesOneByte : Prop :=
  ∀ s : State, s.Inv → s.host = [] → s.phase = .copy →
    (s.outLen + 1 ≠ s.dstLen →
      step s = .next { s with dst := s.dst.write s.outLen.toNat (s.dst.read s.cpySrc.toNat), outLen := s.outLen + 1,
                              cpySrc := s.cpySrc + 1, cpyLen := s.cpyLen - 1,
                              phase := if s.cpyLen = 1 then .symbol else .copy }) ∧
    (s.outLen + 1 = s.dstLen →
      ∃ t, step s = .next t ∧ t.endedWith .ok ∧ t.outLen = s.dstLen ∧ t.bitPos = s.bitPos ∧
        t.dst = s.dst.write s.outLen.toNat (s.dst.read s.cpySrc.toNat))

/-- The overlapping copy (R166, R217): `n` bytes of a copy that does not fill DST repeat the `d + 1` bytes before the
output with period `d + 1`, and change no byte below the output. -/
def Obligations.OverlappingCopyIsPeriodic : Prop :=
  ∀ (n : Nat) (s : State), s.Inv → s.host = [] → s.phase = .copy → n ≤ s.cpyLen.toNat →
    s.outLen.toNat + n < s.dstLen.toNat →
    ∃ t : State, Host.Core.run Sys2Proof.core n s = .next t ∧ t.outLen.toNat = s.outLen.toNat + n ∧
      (∀ j, j < n → t.dst.read (s.outLen.toNat + j) =
        s.dst.read (s.cpySrc.toNat + j % (s.outLen.toNat - s.cpySrc.toNat))) ∧
      (∀ a, a < s.outLen.toNat → t.dst.read a = s.dst.read a)

/-! ## The length arrays -/

/-- T_CNT and P_CNT (R140): CNT loaded, PT_LEN cleared, IDX 0; a count above 0 starts the entry loop, a count of 0 leaves
the phase for its constant. P_CNT has 4 bits under Classic and 5 under TianoVariant. -/
def Obligations.GenericCountClearsTheArray : Prop :=
  ∀ (s : State) (m : BitVec 5), s.phase = .ptCount →
    (s.alph = .t → s.bitPos.toNat + 5 ≤ s.totalBits →
      exec (.tCnt m) s = .next { s with bitPos := BitVec.ofNat 35 (s.bitPos.toNat + 5), cnt := m.zeroExtend 9,
                                        ptLen := Vector.replicate 31 0, idx := 0,
                                        phase := if m = 0 then .ptCount else .ptEntry }) ∧
    (∀ w : Nat, (s.var = .classic ∧ w = 4 ∨ s.var = .tiano ∧ w = 5) → s.alph = .p → m.toNat < 2 ^ w →
      s.bitPos.toNat + w ≤ s.totalBits →
      exec (.pCnt s.var m) s = .next { s with bitPos := BitVec.ofNat 35 (s.bitPos.toNat + w), cnt := m.zeroExtend 9,
                                              ptLen := Vector.replicate 31 0, idx := 0,
                                              phase := if m = 0 then .ptCount else .ptEntry })

/-- T_DEGEN and P_DEGEN (R141): after a count of 0 the constant is read with the width of the count; the C array, or the
block's symbols, follow. -/
def Obligations.GenericConstantMakesTheTableDegenerate : Prop :=
  ∀ (s : State) (v : BitVec 5), s.phase = .ptCount → s.cnt = 0 →
    (s.alph = .t → s.bitPos.toNat + 5 ≤ s.totalBits →
      exec (.tDegen v) s = .next { s with bitPos := BitVec.ofNat 35 (s.bitPos.toNat + 5), ptConst := v,
                                          ptDegen := true, phase := .cCount }) ∧
    (∀ w : Nat, (s.var = .classic ∧ w = 4 ∨ s.var = .tiano ∧ w = 5) → s.alph = .p → v.toNat < 2 ^ w →
      s.bitPos.toNat + w ≤ s.totalBits →
      exec (.pDegen s.var v) s = .next { s with bitPos := BitVec.ofNat 35 (s.bitPos.toNat + w), ptConst := v,
                                                ptDegen := true, phase := .symbol })

/-- LEN_SHORT and LEN_LONG (R142 to R144): PT_LEN[IDX] gets the length, saturated at 17 (R36), and IDX moves on; the
zero-run follows the third entry of a T array, else the loop goes on while IDX < CNT. -/
def Obligations.LengthEntryFillsOneSlot : Prop :=
  ∀ (s : State) (i : Instr) (len : Nat),
    ((∃ l : BitVec 3, i = .lenShort l ∧ l.toNat ≠ 7 ∧ len = l.toNat) ∨ (∃ k : Nat, i = .lenLong k ∧ len = 7 + k)) →
    s.phase = .ptEntry → s.idx.toNat < s.cnt.toNat → s.idx.toNat < 31 → s.roomFor i →
    exec i s = .next { s with bitPos := s.cursorAfter i,
                              ptLen := setEntry s.ptLen s.idx.toNat (BitVec.ofNat 5 (min len 17)),
                              idx := BitVec.ofNat 10 (s.idx.toNat + 1),
                              phase := if s.alph = .t ∧ s.idx.toNat + 1 = 3 then .ptZrun
                                       else if s.idx.toNat + 1 < s.cnt.toNat then .ptEntry else .ptBuild }

/-- ZRUN2 (R145): IDX gets `min(IDX + z, 31)`, and the entry loop goes on while IDX < CNT. -/
def Obligations.ZeroRunSkipsSlots : Prop :=
  ∀ (s : State) (z : BitVec 2), s.phase = .ptZrun → s.bitPos.toNat + 2 ≤ s.totalBits →
    exec (.zrun2 z) s =
      .next { s with bitPos := BitVec.ofNat 35 (s.bitPos.toNat + 2),
                     idx := BitVec.ofNat 10 (min (s.idx.toNat + z.toNat) 31),
                     phase := if min (s.idx.toNat + z.toNat) 31 < s.cnt.toNat then .ptEntry else .ptBuild }

/-- C_CNT (R150): CNT loaded, C_LEN cleared, IDX 0. C_DEGEN (R151): the constant set, the P array next. -/
def Obligations.CharCountAndConstant : Prop :=
  ∀ (s : State) (m : BitVec 9), s.phase = .cCount → s.bitPos.toNat + 9 ≤ s.totalBits →
    exec (.cCnt m) s = .next { s with bitPos := BitVec.ofNat 35 (s.bitPos.toNat + 9), cnt := m,
                                      cLen := Vector.replicate 510 0, idx := 0,
                                      phase := if m = 0 then .cCount else .cEntry } ∧
    (s.cnt = 0 →
      exec (.cDegen m) s = .next { s with bitPos := BitVec.ofNat 35 (s.bitPos.toNat + 9), cConst := m, cDegen := true,
                                          alph := .p, phase := .ptCount })

/-- T_ZERO, T_RUN4 and T_RUN9 (R152 to R155): IDX gets `min(IDX + run, 510)` with a run of 1, `r + 3` or `r + 20`; C_LEN
is not written. -/
def Obligations.ZeroRunsSkipCharSlots : Prop :=
  ∀ (s : State) (i : Instr) (run : Nat),
    (i = .tZero ∧ run = 1 ∨ (∃ r, i = .tRun4 r ∧ run = r.toNat + 3) ∨ (∃ r, i = .tRun9 r ∧ run = r.toNat + 20)) →
    s.phase = .cEntry → s.idx.toNat < s.cnt.toNat → s.idx.toNat < 510 → s.roomFor i →
    exec i s = .next { s with bitPos := s.cursorAfter i, idx := BitVec.ofNat 10 (min (s.idx.toNat + run) 510),
                              phase := if min (s.idx.toNat + run) 510 < s.cnt.toNat ∧ min (s.idx.toNat + run) 510 < 510
                                       then .cEntry else .cBuild }

/-- T_LEN (R152, R156): C_LEN[IDX] gets `v - 2`, saturated at 17 (R36), and IDX moves on. -/
def Obligations.LengthSymbolFillsOneCharSlot : Prop :=
  ∀ (s : State) (v : BitVec 5), s.phase = .cEntry → s.idx.toNat < s.cnt.toNat → s.idx.toNat < 510 → 3 ≤ v.toNat →
    s.roomFor (.tLen v) →
    exec (.tLen v) s =
      .next { s with bitPos := s.cursorAfter (.tLen v),
                     cLen := setEntry s.cLen s.idx.toNat (BitVec.ofNat 5 (min (v.toNat - 2) 17)),
                     idx := BitVec.ofNat 10 (s.idx.toNat + 1),
                     phase := if s.idx.toNat + 1 < s.cnt.toNat ∧ s.idx.toNat + 1 < 510 then .cEntry else .cBuild }

/-! ## The table builder -/

/-- `Build` accepts exactly the arrays whose examined lengths are at most 16 and cover the code space exactly; a length
above 16 is found first (R121, R122, R123, R196). -/
def Obligations.BuildAcceptsExactlyCompleteCodes : Prop :=
  ∀ (n : Nat) (a : Alphabet) (lens : List CodeLen) (left right : Vector Entry 1019),
    ((∃ l ∈ lens.take (Config.numSymbols a), 16 < l.toNat) →
      build n a lens left right = .error .lengthTooLong) ∧
    ((∀ l ∈ lens.take (Config.numSymbols a), l.toNat ≤ 16) → codeSpace (lens.take (Config.numSymbols a)) ≠ 65536 →
      build n a lens left right = .error .badCodeSet) ∧
    ((∀ l ∈ lens.take (Config.numSymbols a), l.toNat ≤ 16) → codeSpace (lens.take (Config.numSymbols a)) = 65536 →
      ∃ b, build n a lens left right = .ok b)

/-- PT_BUILD and C_BUILD (R128, R146, R157): a build that succeeds stores its fixed table and arena, clears the degenerate
bit and goes on (T: the C array; P: the block's symbols; C: the P array); one that fails ends the job. -/
def Obligations.BuildStepsStoreTheTable : Prop :=
  ∀ s : State, s.host = [] →
    (s.phase = .ptBuild → ∀ b, build 256 s.alph.alphabet s.ptLen.toList s.left s.right = .ok b →
      step s = .next { s with ptFix := b.fix, left := b.left, right := b.right, ptDegen := false,
                              phase := if s.alph = .t then .cCount else .symbol }) ∧
    (s.phase = .cBuild → ∀ b, build 4096 .c s.cLen.toList s.left s.right = .ok b →
      step s = .next { s with cFix := b.fix, left := b.left, right := b.right, cDegen := false, alph := .p,
                              phase := .ptCount }) ∧
    (s.phase = .ptBuild → ∀ c, build 256 s.alph.alphabet s.ptLen.toList s.left s.right = .error c →
      ∃ t, step s = .next t ∧ t.endedWith .malformedSrcData) ∧
    (s.phase = .cBuild → ∀ c, build 4096 .c s.cLen.toList s.left s.right = .error c →
      ∃ t, step s = .next t ∧ t.endedWith .malformedSrcData)

/-- A build writes no arena entry outside its alphabet's own node ids `[N, 2N - 1)`: so a C build never touches a T or P
node, and a T or P build never touches a C node (R120, R127, R128, R219). -/
def Obligations.BuildKeepsOtherNodes : Prop :=
  ∀ (n : Nat) (a : Alphabet) (lens : List CodeLen) (left right : Vector Entry 1019) (b : BuildState n) (j : Nat),
    n = 2 ^ Config.tableBits a → build n a lens left right = .ok b →
    (j < Config.numSymbols a ∨ 2 * Config.numSymbols a - 1 ≤ j) →
    b.left.toList[j]? = left.toList[j]? ∧ b.right.toList[j]? = right.toList[j]?

/-- A degenerate table answers its constant, reads no bit and cannot fail, whatever the table memories hold (R131). -/
def Obligations.DegenerateLookupConsumesNothing : Prop :=
  ∀ (s : State) (pk : PeekPastEnd) (bits : List Bool),
    (s.ptDegen = true → (s.table .t).decodeSym pk bits = .ok (s.ptConst.toNat, bits) ∧
      (s.table .p).decodeSym pk bits = .ok (s.ptConst.toNat, bits)) ∧
    (s.cDegen = true → (s.table .c).decodeSym pk bits = .ok (s.cConst.toNat, bits))

/-! ## Errors and the end of a job -/

/-- STATUS reads 0x2 after a success and 0x6, 0xA, 0xE after the three errors, whatever the state was; raising and
finishing leave PHASE at IDLE (R22, R106, R190, R194). -/
def Obligations.EndOfJobStatusWords : Prop :=
  ∀ (s : State) (c : Cause),
    s.finish.statusWord = 0x2 ∧ (s.raise .invalidSrcSize c).statusWord = 0x6 ∧
    (s.raise .invalidDstSize c).statusWord = 0xA ∧ (s.raise .malformedSrcData c).statusWord = 0xE ∧
    s.finish.phase = .idle ∧ (∀ k, (s.raise k c).phase = .idle)

/-- A stream that ends before an element is complete ends the job: InvalidSrcSize at the header, and MalformedSrcData at
every payload position (R59, R101, R141, R151, R169, R191), the constant after a count of 0 among them (count and constant
stand in one step, log 13). -/
def Obligations.ExhaustionEndsTheJob : Prop :=
  ∀ (s : State) (p : Place), s.host = [] → s.isAt p = true →
    ((p ≠ .tDegen ∧ p ≠ .cDegen ∧ ∀ f, p ≠ .pDegen f) → ∀ e : DecodeError, s.fetch p = .error e →
      ∃ t, step s = .next t ∧ t.endedWith (if p = .frame then .invalidSrcSize else .malformedSrcData)) ∧
    (∀ q : Place, ((p = .tCount ∧ q = .tDegen) ∨ (∃ f, p = .pCount f ∧ q = .pDegen f) ∨ (p = .cCount ∧ q = .cDegen)) →
      ∀ (i : Instr) (rest : List Bool) (u : State) (e : DecodeError), s.fetch p = .ok (i, rest) → exec i s = .next u →
        u.phase = s.phase → u.fetch q = .error e → ∃ t, step s = .next t ∧ t.endedWith .malformedSrcData)

/-- An element sets no flag: it leaves BUSY, DONE and ERR as they were, or it ends the job (R22, R40, R198). -/
def Obligations.ElementsKeepStatusOrEndTheJob : Prop :=
  ∀ (i : Instr) (s t : State), exec i s = .next t →
    (t.busy = s.busy ∧ t.done = s.done ∧ t.err = s.err) ∨ (∃ k, t.endedWith k)

/-- A running job's step leaves it running or ends it with DONE = 1 (R198). -/
def Obligations.JobsEndOnlyWithDone : Prop :=
  ∀ s t : State, s.Inv → s.busy = true → engineStep s = .next t →
    (t.busy = true ∧ t.done = false ∧ t.err = .ok) ∨ (∃ k, t.endedWith k)

/-- A job that succeeds has filled DST, or is the empty fast path with nothing written and nothing consumed (R25, R106,
R107). -/
def Obligations.SuccessMeansFullOutput : Prop :=
  ∀ s t : State, s.Inv → s.busy = true → engineStep s = .next t → t.busy = false → t.err = .ok →
    (s.phase ≠ .frame → t.outLen = t.dstLen) ∧ (s.phase = .frame → t.outLen = 0 ∧ t.bitPos = 0 ∧ t.dst = s.dst)

/-- After a job the engine takes no step: however often it is stepped, nothing changes until the host acts (R28, R197,
R205; that a step at IDLE is the identity is the model's, log 2). -/
def Obligations.IdleEngineChangesNothing : Prop :=
  ∀ (k : Nat) (s : State), s.host = [] → s.phase = .idle → Host.Core.run Sys2Proof.core k s = .next s

/-! ## The whole machine -/

/-- The invariant holds right after reset (R42, R210). -/
def Obligations.InvHoldsAtReset : Prop :=
  State.reset.Inv

/-- Every step, of the engine or of the host, keeps the invariant (R22, R30, R31, R34, R52, R142, R152, R165, R166). -/
def Obligations.EveryStepKeepsInv : Prop :=
  ∀ s t : State, s.Inv → step s = .next t → t.Inv

/-- In every state with the invariant the engine's step answers a next state: it makes no access outside SRC, DST or the
length memories, and meets no element out of its place (R52). It is the machine's step where the host has no move pending,
and where the host's oldest move leaves the step to the engine (R9; that the moves stand in State is the model's, log 1). -/
def Obligations.EngineStepAlwaysAnswers : Prop :=
  ∀ s : State, s.Inv →
    ∃ t, engineStep s = .next t ∧ (s.host = [] → step s = .next t) ∧
      ∀ rest, step { s with host := .engine :: rest } = engineStep { s with host := rest }

/-- Every job ends (R108): left to itself, a running job ends within `work` steps, with DONE = 1. -/
def Obligations.EveryJobEnds : Prop :=
  ∀ s : State, s.Inv → s.host = [] → s.busy = true →
    ∃ (k : Nat) (t : State), k ≤ s.work ∧ Host.Core.run Sys2Proof.core k s = .next t ∧ t.busy = false ∧ t.done = true

/-- An engine step writes at most one byte of DST, at OUT_LEN, and OUT_LEN then grows by exactly one (R31, R51, R165). -/
def Obligations.OutputGrowsByOneByte : Prop :=
  ∀ s t : State, s.Inv → engineStep s = .next t →
    (∀ a, a ≠ s.outLen.toNat → t.dst.read a = s.dst.read a) ∧
    ((t.outLen = s.outLen ∧ t.dst = s.dst) ∨ t.outLen.toNat = s.outLen.toNat + 1)

/-- The cursor never rewinds (R10, R30). -/
def Obligations.CursorNeverRewinds : Prop :=
  ∀ s t : State, s.Inv → engineStep s = .next t → s.bitPos.toNat ≤ t.bitPos.toNat

/-- The engine never writes SRC, the lengths, VARIANT or VAR: they are constant for the job (R27, R29, R50, R221). -/
def Obligations.EngineKeepsTheLaunch : Prop :=
  ∀ s t : State, engineStep s = .next t →
    t.src = s.src ∧ t.srcLen = s.srcLen ∧ t.dstLen = s.dstLen ∧ t.variant = s.variant ∧ t.var = s.var ∧
    t.srcCap = s.srcCap ∧ t.dstCap = s.dstCap ∧ t.host = s.host

/-- No step changes the parameter PEEK_PAST_END (R8; that it stands in the state is the model's, log 5). -/
def Obligations.ParameterIsConstant : Prop :=
  ∀ s t : State, step s = .next t → t.peek = s.peek

/-- Frame of the elements: memory. No element writes SRC, a fixed table or the arena; every element but LIT leaves every
byte of DST; LIT leaves every byte but the one at OUT_LEN (R39, R51, R165). -/
def Obligations.ElementsMemoryFrame : Prop :=
  ∀ (i : Instr) (s t : State), exec i s = .next t →
    t.src = s.src ∧ t.ptFix = s.ptFix ∧ t.cFix = s.cFix ∧ t.left = s.left ∧ t.right = s.right ∧
    (∀ a, ((∀ b, i ≠ .lit b) ∨ a ≠ s.outLen.toNat) → t.dst.read a = s.dst.read a)

/-- Frame of the elements: registers. Each register is changed only by the elements whose rule writes it: REMAIN by HDR,
BLKHDR and the coded symbols (R32), CPY_LEN by BACKREF and CPY_SRC by the positions (R34), ALPH by BLKHDR and C_DEGEN
(R33), CNT by the counts (R33), IDX by the counts, the length entries and the zero runs (R33), the degenerate bits and
constants by the constants (R35), OUT_LEN by HDR and LIT (R31), the length memories by their own array's elements (R36);
the launch registers by none. -/
def Obligations.ElementsRegisterFrame : Prop :=
  ∀ (i : Instr) (s t : State), exec i s = .next t →
    (t.variant = s.variant ∧ t.srcLen = s.srcLen ∧ t.dstLen = s.dstLen ∧ t.var = s.var) ∧
    ((i.place ≠ .frame ∧ i.place ≠ .blkCount ∧ i.place ≠ .symbol) → t.remain = s.remain) ∧
    ((∀ v, i ≠ .backref v) → t.cpyLen = s.cpyLen) ∧
    (i.place ≠ .dist → t.cpySrc = s.cpySrc) ∧
    (i.place ≠ .blkCount → i.place ≠ .cDegen → t.alph = s.alph) ∧
    ((i.place ≠ .tCount ∧ i.place ≠ .cCount ∧ ∀ f, i.place ≠ .pCount f) → t.cnt = s.cnt) ∧
    ((i.place ≠ .tCount ∧ i.place ≠ .cCount ∧ (∀ f, i.place ≠ .pCount f) ∧ i.place ≠ .ptEntry ∧ i.place ≠ .ptZrun ∧
      i.place ≠ .cEntry) → t.idx = s.idx) ∧
    ((i.place ≠ .tDegen ∧ ∀ f, i.place ≠ .pDegen f) → t.ptDegen = s.ptDegen ∧ t.ptConst = s.ptConst) ∧
    (i.place ≠ .cDegen → t.cDegen = s.cDegen ∧ t.cConst = s.cConst) ∧
    ((i.place ≠ .frame ∧ ∀ b, i ≠ .lit b) → t.outLen = s.outLen) ∧
    ((i.place ≠ .tCount ∧ (∀ f, i.place ≠ .pCount f) ∧ i.place ≠ .ptEntry) → t.ptLen = s.ptLen) ∧
    ((i.place ≠ .cCount ∧ ∀ v, i ≠ .tLen v) → t.cLen = s.cLen)

/-! ## The host interface -/

/-- While BUSY = 1 a register write changes nothing; a read is allowed at any time, gives the register's value and changes
no register (R27). Only the host's own list of moves and last read value change. -/
def Obligations.BusyWritesAreIgnored : Prop :=
  ∀ (s : State) (rest : List HostMove) (offset : Nat) (w : Word), offset % 4 = 0 →
    (s.busy = true → step { s with host := .writeReg offset 4 w :: rest } = .next { s with host := rest }) ∧
    step { s with host := .readReg offset 4 :: rest } = .next { s with host := rest, rdata := s.regValue offset }

/-- A CTRL write while BUSY = 0 (R21, R100): VARIANT from bit 1; with bit 0 a job starts, for lengths that the supplied
buffers hold (R214, R215), and STATUS reads 0x1. -/
def Obligations.StartLaunchesAJob : Prop :=
  ∀ (s : State) (rest : List HostMove) (w : Word), s.busy = false →
    (w.getLsbD 0 = false →
      step { s with host := .writeReg 0 4 w :: rest } =
        .next { s with host := rest, variant := if w.getLsbD 1 then .tiano else .classic }) ∧
    (w.getLsbD 0 = true → s.srcLen.toNat ≤ s.srcCap → s.dstLen.toNat ≤ s.dstCap →
      ∃ t, step { s with host := .writeReg 0 4 w :: rest } = .next t ∧ t.host = rest ∧
        t.variant = (if w.getLsbD 1 then .tiano else .classic) ∧ t.var = t.variant ∧
        t.statusWord = 0x1 ∧ t.outLen = 0 ∧ t.bitPos = 0 ∧ t.remain = 0 ∧ t.cpyLen = 0 ∧ t.ptDegen = false ∧
        t.cDegen = false ∧ t.phase = .frame ∧ t.srcLen = s.srcLen ∧ t.dstLen = s.dstLen ∧ t.src = s.src ∧ t.dst = s.dst)

/-- Writes of the two length registers while BUSY = 0 store the value; a write of a read-only or unlisted register is
ignored (R20, R22 to R26). -/
def Obligations.IdleRegisterWrites : Prop :=
  ∀ (s : State) (rest : List HostMove) (w : Word), s.busy = false →
    step { s with host := .writeReg 0x08 4 w :: rest } = .next { s with host := rest, srcLen := w } ∧
    step { s with host := .writeReg 0x0C 4 w :: rest } = .next { s with host := rest, dstLen := w } ∧
    (∀ offset, offset % 4 = 0 → offset ≠ 0x00 → offset ≠ 0x08 → offset ≠ 0x0C →
      step { s with host := .writeReg offset 4 w :: rest } = .next { s with host := rest })

/-- What the registers read (R20 to R26): a read of an aligned word gives the register's value, where CTRL has VARIANT in
bit 1 and START reading 0, STATUS has its three fields, BITPOS is split at bit 32, and an unlisted offset reads 0. OUT_LEN
and BITPOS are stated where no job has failed. -/
def Obligations.RegisterMapReads : Prop :=
  ∀ s : State,
    (∀ (rest : List HostMove) (offset : Nat), offset % 4 = 0 →
      step { s with host := .readReg offset 4 :: rest } = .next { s with host := rest, rdata := s.regValue offset }) ∧
    (s.regValue 0x00).toNat = (if s.variant = .tiano then 2 else 0) ∧
    (s.regValue 0x04).toNat = s.busy.toNat + 2 * s.done.toNat + 4 * s.err.code.toNat ∧
    s.regValue 0x08 = s.srcLen ∧ s.regValue 0x0C = s.dstLen ∧
    (¬ (s.done = true ∧ s.err ≠ .ok) → s.regValue 0x10 = s.outLen ∧
      (s.regValue 0x14).toNat = s.bitPos.toNat % 2 ^ 32 ∧ (s.regValue 0x18).toNat = s.bitPos.toNat / 2 ^ 32) ∧
    (∀ offset, 0x18 < offset → s.regValue offset = 0)

/-- The host moves that the spec calls undefined stop by name: a register access that is no aligned 32-bit word (R20, U5),
supplying a buffer while BUSY (R62, R64, U6), a launch longer than a buffer (R214, R215, U7), reading a byte beyond the
buffer (R51); the names and the buffers' sizes are the model's, log 9. -/
def Obligations.UndefinedHostMovesAreRefused : Prop :=
  ∀ (s : State) (rest : List HostMove),
    (∀ offset width w, (width ≠ 4 ∨ offset % 4 ≠ 0) →
      step { s with host := .writeReg offset width w :: rest } = .refused .badRegisterAccess ∧
      step { s with host := .readReg offset width :: rest } = .refused .badRegisterAccess) ∧
    (s.busy = true → ∀ bytes,
      step { s with host := .supplySrc bytes :: rest } = .refused .bufferBusy ∧
      step { s with host := .supplyDst bytes :: rest } = .refused .bufferBusy) ∧
    (s.busy = false → (s.srcCap < s.srcLen.toNat ∨ s.dstCap < s.dstLen.toNat) → ∀ w : Word, w.getLsbD 0 = true →
      step { s with host := .writeReg 0 4 w :: rest } = .refused .launchTooLong) ∧
    (∀ i, s.dstCap ≤ i → step { s with host := .readDst i :: rest } = .refused .noSuchDstByte)

/-- A buffer the host supplies while BUSY = 0 holds exactly its bytes, and none of them is unspecified (R50, R51, R213). -/
def Obligations.SuppliedBuffersHoldTheirBytes : Prop :=
  ∀ (s : State) (rest : List HostMove) (bytes : List Byte), s.busy = false →
    (∃ t, step { s with host := .supplySrc bytes :: rest } = .next t ∧ t.host = rest ∧ t.srcCap = bytes.length ∧
      t.src.wf = true ∧ ∀ a, a < bytes.length → some (t.src.read a) = bytes[a]?) ∧
    (∃ t, step { s with host := .supplyDst bytes :: rest } = .next t ∧ t.host = rest ∧ t.dstCap = bytes.length ∧
      t.dst.wf = true ∧ ∀ a, a < bytes.length → some (t.dst.read a) = bytes[a]? ∧ t.dstByteLost a = false)

/-- What the host reads of its destination buffer. After a job that filled DST it reads the output (R62, R216). A byte at or
above DST_LEN that no earlier job left unspecified reads as it stood, through any engine step, an error among them, and
through a reset (R52, R195, R214): a buffer larger than DST_LEN is harmless. -/
def Obligations.HostReadsTheOutput : Prop :=
  (∀ (s t : State) (rest : List HostMove), s.Inv → s.busy = true → s.phase ≠ .frame → engineStep s = .next t →
    t.busy = false → t.err = .ok → ∀ a, a < t.dstLen.toNat →
      ∃ u, step { t with host := .readDst a :: rest } = .next u ∧ u.host = rest ∧
        u.rdata.toNat = (t.dst.read a).toNat ∧ u.dst = t.dst ∧ u.statusWord = t.statusWord) ∧
  (∀ (s t : State) (rest : List HostMove) (a : Nat), s.Inv → (engineStep s = .next t ∨ hostMove .reset s = .next t) →
    s.dstLen.toNat ≤ a → a < s.dstCap → s.dstByteLost a = false →
      ∃ u, step { t with host := .readDst a :: rest } = .next u ∧ u.rdata.toNat = (s.dst.read a).toNat)

/-- What reset leaves (R210, R211): asserted at any time, every host-visible and datapath register is 0 and PHASE is
IDLE, as it is in the state after power-on. -/
def Obligations.ResetClearsEveryRegister : Prop :=
  ∀ (s t : State) (rest : List HostMove), (t = State.reset ∨ step { s with host := .reset :: rest } = .next t) →
    t.ctrlWord = 0 ∧ t.statusWord = 0 ∧ t.srcLen = 0 ∧ t.dstLen = 0 ∧ t.outLen = 0 ∧ t.bitPos = 0 ∧
    t.phase = .idle ∧ t.var = .classic ∧ t.remain = 0 ∧ t.alph = .t ∧ t.cnt = 0 ∧ t.idx = 0 ∧ t.cpyLen = 0 ∧
    t.cpySrc = 0 ∧ t.ptDegen = false ∧ t.ptConst = 0 ∧ t.cDegen = false ∧ t.cConst = 0
end

