-- ==== Sys2Proof/Laws/Bits.lean ====
section
/-! SUPPORT. Laws/Bits.lean: reading back the bits of a number, and what a read consumes. -/

namespace Sys2Proof

@[simp] theorem length_bitsOf (n v : Nat) : (bitsOf n v).length = n := by
  induction n with
  | zero => rfl
  | succ n ih => simp [bitsOf, ih]

/-- Reading `n` bits of `v` gives the low `n` bits of `v` after what was read before. -/
theorem takeBits_bitsOf (n acc v : Nat) (rest : List Bool) :
    takeBits n acc (bitsOf n v ++ rest) = some (acc * 2 ^ n + v % 2 ^ n, rest) := by
  induction n generalizing acc with
  | zero => simp [bitsOf, takeBits, Nat.mod_one]
  | succ n ih =>
    simp only [bitsOf, List.cons_append, takeBits, ih, Option.some.injEq, Prod.mk.injEq, and_true]
    have hb : (v.testBit n).toNat = v / 2 ^ n % 2 := by
      rw [Nat.testBit_eq_decide_div_mod_eq]
      rcases Nat.mod_two_eq_zero_or_one (v / 2 ^ n) with h | h <;> simp [h]
    rw [Nat.mod_pow_succ, hb]
    ring

/-- A field that holds `v` reads back as `v` (R56, R59). -/
theorem popBits_bitsOf {n v : Nat} (h : v < 2 ^ n) (rest : List Bool) :
    popBits n (bitsOf n v ++ rest) = .ok (v, rest) := by
  simp [popBits, takeBits_bitsOf, Nat.mod_eq_of_lt h]

/-- A read of `n` bits consumes `n` bits, and its value is below `2^n` times what came before. -/
theorem takeBits_some {n acc : Nat} {bits : List Bool} {v : Nat} {rest : List Bool}
    (h : takeBits n acc bits = some (v, rest)) :
    (∃ used, bits = used ++ rest ∧ used.length = n) ∧ acc * 2 ^ n ≤ v ∧ v < (acc + 1) * 2 ^ n := by
  induction n generalizing acc bits with
  | zero =>
    simp only [takeBits, Option.some.injEq, Prod.mk.injEq] at h
    obtain ⟨rfl, rfl⟩ := h
    exact ⟨⟨[], rfl, rfl⟩, by simp, by simp⟩
  | succ n ih =>
    cases bits with
    | nil => simp [takeBits] at h
    | cons b bits =>
      obtain ⟨⟨used, rfl, hl⟩, h1, h2⟩ := ih h
      refine ⟨⟨b :: used, rfl, by simp [hl]⟩, ?_, ?_⟩
      · rw [pow_succ]; cases b <;> simp at h1 ⊢ <;> nlinarith [Nat.two_pow_pos n]
      · rw [pow_succ]; cases b <;> simp at h2 ⊢ <;> nlinarith [Nat.two_pow_pos n]

/-- A read succeeds exactly when enough bits are there. -/
theorem takeBits_eq_none {n acc : Nat} {bits : List Bool} : takeBits n acc bits = none ↔ bits.length < n := by
  induction n generalizing acc bits with
  | zero => simp [takeBits]
  | succ n ih =>
    cases bits with
    | nil => simp [takeBits]
    | cons b bits => simp [takeBits, ih]

/-- `POP(n)` that succeeds: the bits it used and the range of its value (R59). -/
theorem popBits_ok {n : Nat} {bits : List Bool} {v : Nat} {rest : List Bool} (h : popBits n bits = .ok (v, rest)) :
    (∃ used, bits = used ++ rest ∧ used.length = n) ∧ v < 2 ^ n := by
  unfold popBits at h
  split at h
  · next r hr =>
    simp only [Except.ok.injEq] at h
    subst h
    obtain ⟨hu, -, hlt⟩ := takeBits_some hr
    exact ⟨hu, by simpa using hlt⟩
  · cases h

/-- `POP(n)` that fails: too few bits, and the cursor stays (R59). -/
theorem popBits_error {n : Nat} {bits : List Bool} {e : DecodeError} (h : popBits n bits = .error e) :
    bits.length < n ∧ e = .exhausted bits := by
  unfold popBits at h
  split at h
  · cases h
  · next hr =>
    cases h
    exact ⟨takeBits_eq_none.mp hr, rfl⟩

/-- The tail of `k` one-bits and a zero-bit reads as `k` (R73, R144). -/
theorem popTail_replicate (k : Nat) (rest : List Bool) :
    popTail (List.replicate k true ++ false :: rest) = some (k, rest) := by
  induction k with
  | zero => rfl
  | succ k ih => simp [List.replicate_succ, popTail, ih]

/-- A tail that ends: it used its one-bits and its zero-bit. -/
theorem popTail_some {bits : List Bool} {k : Nat} {rest : List Bool} (h : popTail bits = some (k, rest)) :
    ∃ used, bits = used ++ rest ∧ used.length = k + 1 := by
  induction bits generalizing k with
  | nil => simp [popTail] at h
  | cons b bits ih =>
    cases b with
    | false =>
      simp only [popTail, Option.some.injEq, Prod.mk.injEq] at h
      obtain ⟨rfl, rfl⟩ := h
      exact ⟨[false], rfl, rfl⟩
    | true =>
      simp only [popTail, Option.map_eq_some_iff, Prod.mk.injEq] at h
      obtain ⟨⟨k', r⟩, h, rfl, rfl⟩ := h
      obtain ⟨used, rfl, hl⟩ := ih h
      exact ⟨true :: used, rfl, by simp [hl]⟩

/-- A `PEEK` that succeeds under `Fault` had its bits (R60). -/
theorem peekBits_ok {n : Nat} {bits : List Bool} {w : Nat} (h : peekBits .fault n bits = .ok w) : n ≤ bits.length := by
  unfold peekBits at h
  split at h
  · next r hr =>
    by_contra hlt
    rw [takeBits_eq_none.mpr (by omega)] at hr
    cases hr
  · cases h

/-- A walk that ends at a leaf ends at a symbol of the alphabet (R132). -/
theorem HufTable.walk_leaf {t : HufTable} {e : Entry} {bits : List Bool} {v : Nat} (h : t.walk e bits = .leaf v) :
    v < Config.numSymbols t.alph := by
  induction bits generalizing e with
  | nil =>
    unfold HufTable.walk at h
    split at h
    · cases h
    · split at h
      · cases h; assumption
      · cases h
  | cons b bits ih =>
    unfold HufTable.walk at h
    split at h
    · cases h
    · split at h
      · cases h; assumption
      · exact ih h

/-- `DecodeSym` that succeeds (R131 to R133): a degenerate table gives its constant and uses nothing; a built table gives
a leaf, below `N`, and uses its code length; under `Fault` the lookup had its bits. -/
theorem HufTable.decodeSym_ok {t : HufTable} {pk : PeekPastEnd} {bits : List Bool} {v : Nat} {rest : List Bool}
    (h : t.decodeSym pk bits = .ok (v, rest)) :
    (∃ used, bits = used ++ rest ∧ used.length = t.codeBits v) ∧
    (t.degen = true → v = t.const) ∧
    (t.degen = false → v < Config.numSymbols t.alph ∧ (pk = .fault → Config.tableBits t.alph ≤ bits.length)) := by
  unfold HufTable.decodeSym at h
  unfold HufTable.codeBits
  split at h
  · next hd =>
    simp only [Except.ok.injEq, Prod.mk.injEq] at h
    obtain ⟨rfl, rfl⟩ := h
    exact ⟨⟨[], rfl, by simp [hd]⟩, fun _ => rfl, by simp [hd]⟩
  · next hd =>
    split at h
    · cases h
    · next w hw =>
      split at h
      · cases h
      · cases h
      · next v' hv =>
        split at h
        · cases h
        · next p r hp =>
          simp only [Except.ok.injEq, Prod.mk.injEq] at h
          obtain ⟨rfl, rfl⟩ := h
          obtain ⟨hu, -⟩ := popBits_ok hp
          refine ⟨by simpa [hd] using hu, by simp [hd], fun _ => ⟨HufTable.walk_leaf hv, ?_⟩⟩
          rintro rfl
          exact peekBits_ok hw

/-- A field element that is read: it used its bits, and its value fits the field. -/
theorem decodeField_ok {n : Nat} {mk : Nat → Instr} {bits : List Bool} {i : Instr} {rest : List Bool}
    (h : decodeField n mk bits = .ok (i, rest)) :
    ∃ v, i = mk v ∧ v < 2 ^ n ∧ ∃ used, bits = used ++ rest ∧ used.length = n := by
  unfold decodeField at h
  split at h
  · cases h
  · next v r hp =>
    simp only [Except.ok.injEq, Prod.mk.injEq] at h
    obtain ⟨rfl, rfl⟩ := h
    obtain ⟨hu, hlt⟩ := popBits_ok hp
    exact ⟨v, rfl, hlt, hu⟩

/-- A field element that cannot be read leaves the cursor where it was. -/
theorem decodeField_error {n : Nat} {mk : Nat → Instr} {bits : List Bool} {e : DecodeError}
    (h : decodeField n mk bits = .error e) : bits.length < n ∧ e = .exhausted bits := by
  unfold decodeField at h
  split at h
  · next hp => cases h; exact popBits_error hp
  · cases h

@[simp] theorem HufTable.length_codeword (t : HufTable) (v : Nat) : (t.codeword v).length = t.codeBits v := by
  unfold HufTable.codeword HufTable.codeBits
  split <;> simp

end Sys2Proof
end

