-- ==== Sys2Proof/Laws/Huffman.lean ====
section
/-! SUPPORT. Laws/Huffman.lean: the start table and the code space that some lengths cover. -/

namespace Sys2Proof.Machine

theorem startOf_succ (lens : List CodeLen) (n : Nat) :
    startOf lens (n + 2) = startOf lens (n + 1) + countLen lens (n + 1) * 2 ^ (16 - (n + 1)) := rfl

theorem startOf_nil (n : Nat) : startOf [] n = 0 := by
  induction n using startOf.induct with
  | case1 => rfl
  | case2 => rfl
  | case3 n ih => simp [startOf_succ, ih, countLen]

/-- One more slot adds its code space to every start above its length (R122). -/
theorem startOf_cons (l : CodeLen) (lens : List CodeLen) (n : Nat) :
    startOf (l :: lens) (n + 1) =
      (if 0 < l.toNat ∧ l.toNat < n + 1 then 2 ^ (16 - l.toNat) else 0) + startOf lens (n + 1) := by
  induction n with
  | zero => simp [startOf]; omega
  | succ n ih =>
    rw [startOf_succ, startOf_succ, ih]
    simp only [countLen, List.countP_cons]
    by_cases h : l.toNat = n + 1
    · simp [h]; rw [Nat.add_mul]; simp; omega
    · simp [h]
      by_cases h2 : 0 < l.toNat ∧ l.toNat < n + 1
      · rw [if_pos (by omega), if_pos (by omega)]; omega
      · rw [if_neg (by omega), if_neg (by omega)]; omega

/-- `start[17]` is the code space of lengths that are all legal (R122, R123). -/
theorem startOf_17 (lens : List CodeLen) (h : ∀ l ∈ lens, l.toNat ≤ 16) : startOf lens 17 = codeSpace lens := by
  induction lens with
  | nil => rw [startOf_nil]; rfl
  | cons l lens ih =>
    have hl := h l (by simp)
    rw [startOf_cons l lens 16, ih fun m hm => h m (by simp [hm])]
    simp only [codeSpace, List.map_cons, List.sum_cons]
    by_cases h0 : l.toNat = 0
    · rw [if_neg (by omega), if_pos h0]
    · rw [if_pos (by omega), if_neg h0]

/-- What a build can answer (R121 to R126). -/
theorem build_ok {n : Nat} {a : Alphabet} {lens : List CodeLen} {left right : Vector Entry 1019} {b : BuildState n}
    (h : build n a lens left right = .ok b) :
    checkLens (lens.take (Config.numSymbols a)) = none ∧
    b = assignCodes (Config.tableBits a) 0 (lens.take (Config.numSymbols a))
      (initBuild n (Config.numSymbols a) (lens.take (Config.numSymbols a)) left right) := by
  unfold build at h
  split at h
  · cases h
  · next hc => cases h; exact ⟨hc, rfl⟩

end Sys2Proof.Machine
end

