-- ==== Sys2Proof/Laws/Memory.lean ====
section
/-! SUPPORT. Laws/Memory.lean: the buffers keep their canonical form; a read after a write; entries of a table memory. -/

namespace Sys2Proof.Machine

/-- The tail of a canonical buffer is canonical, and its indices lie above the head's. -/
theorem Memory.wf_cons {k : Nat} {b : Byte} {m : Memory} :
    Memory.wf ((k, b) :: m) = true ↔ b ≠ Memory.unlisted ∧ (∀ c ∈ m, k < c.1) ∧ m.wf = true := by
  simp [Memory.wf, and_assoc]

/-- An index below every cell reads as unlisted. -/
theorem Memory.read_below {m : Memory} {a : Nat} (h : ∀ c ∈ m, a < c.1) : m.read a = Memory.unlisted := by
  induction m with
  | nil => rfl
  | cons c m ih =>
    obtain ⟨k, b⟩ := c
    have hk : a < k := h (k, b) (by simp)
    simp only [Memory.read, if_neg (Nat.ne_of_gt hk)]
    exact ih fun c hc => h c (List.mem_cons_of_mem _ hc)

theorem Memory.read_put (a x : Nat) (b : Byte) (m : Memory) (h : m.read a = Memory.unlisted) :
    (Memory.put a b m).read x = if x = a then b else m.read x := by
  unfold Memory.put
  split
  · next hb => split <;> simp_all
  · by_cases hx : x = a
    · subst hx; simp [Memory.read]
    · simp [Memory.read, hx, Ne.symm hx]

theorem Memory.mem_put {a : Nat} {b : Byte} {m : Memory} {c : Host.Cell} (h : c ∈ Memory.put a b m) :
    c = (a, b) ∨ c ∈ m := by
  unfold Memory.put at h
  split at h <;> simp_all

theorem Memory.wf_put {a : Nat} {b : Byte} {m : Memory} (hm : m.wf = true) (h : ∀ c ∈ m, a < c.1) :
    (Memory.put a b m).wf = true := by
  unfold Memory.put
  split
  · exact hm
  · next hb => exact Memory.wf_cons.mpr ⟨hb, h, hm⟩

theorem Memory.mem_write {m : Memory} {a : Nat} {b : Byte} {c : Host.Cell} (h : c ∈ m.write a b) :
    c = (a, b) ∨ c ∈ m := by
  induction m with
  | nil => exact Memory.mem_put h
  | cons d m ih =>
    obtain ⟨k, e⟩ := d
    simp only [Memory.write] at h
    split at h
    · exact Memory.mem_put h
    · split at h
      · rcases Memory.mem_put h with h | h
        · exact .inl h
        · exact .inr (List.mem_cons_of_mem _ h)
      · rcases List.mem_cons.mp h with h | h
        · exact .inr (h ▸ List.mem_cons_self ..)
        · rcases ih h with h | h
          · exact .inl h
          · exact .inr (List.mem_cons_of_mem _ h)

/-- A write keeps the canonical form. -/
theorem Memory.wf_write {m : Memory} (hm : m.wf = true) (a : Nat) (b : Byte) : (m.write a b).wf = true := by
  induction m with
  | nil => exact Memory.wf_put rfl (by simp)
  | cons d m ih =>
    obtain ⟨k, e⟩ := d
    obtain ⟨he, hk, hm'⟩ := Memory.wf_cons.mp hm
    simp only [Memory.write]
    split
    · next hak =>
      refine Memory.wf_put hm fun c hc => ?_
      rcases List.mem_cons.mp hc with rfl | hc
      · exact hak
      · exact lt_trans hak (hk c hc)
    · split
      · next hak => subst hak; exact Memory.wf_put hm' hk
      · next h1 h2 =>
        refine Memory.wf_cons.mpr ⟨he, fun c hc => ?_, ih hm'⟩
        rcases Memory.mem_write hc with rfl | hc
        · show k < a; omega
        · exact hk c hc

/-- What a canonical buffer reads after a write: the byte written there, every other byte as before. -/
theorem Memory.read_write {m : Memory} (hm : m.wf = true) (a x : Nat) (b : Byte) :
    (m.write a b).read x = if x = a then b else m.read x := by
  induction m with
  | nil => exact Memory.read_put a x b [] rfl
  | cons d m ih =>
    obtain ⟨k, e⟩ := d
    obtain ⟨-, hk, hm'⟩ := Memory.wf_cons.mp hm
    simp only [Memory.write]
    split
    · next hak =>
      refine Memory.read_put a x b _ (Memory.read_below fun c hc => ?_)
      rcases List.mem_cons.mp hc with rfl | hc
      · exact hak
      · exact lt_trans hak (hk c hc)
    · split
      · next hak =>
        subst hak
        rw [Memory.read_put a x b m (Memory.read_below hk)]
        simp only [Memory.read]
        split
        · rfl
        · next hx => rw [if_neg (Ne.symm hx)]
      · next h1 h2 =>
        simp only [Memory.read, ih hm']
        by_cases hx : k = x
        · subst hx; simp [Ne.symm h2]
        · simp [hx]

/-- The byte read at another index is as before, canonical or not. -/
theorem Memory.read_write_other {m : Memory} {a x : Nat} (h : x ≠ a) (b : Byte) :
    (m.write a b).read x = m.read x := by
  have put_read : ∀ m' : Memory, (Memory.put a b m').read x = m'.read x := by
    intro m'
    unfold Memory.put
    split
    · rfl
    · simp [Memory.read, Ne.symm h]
  induction m with
  | nil => exact put_read []
  | cons d m ih =>
    obtain ⟨k, e⟩ := d
    simp only [Memory.write]
    split
    · exact put_read _
    · split
      · next hak => rw [put_read]; subst hak; simp [Memory.read, Ne.symm h]
      · simp [Memory.read, ih]

theorem Memory.within_write {m : Memory} {n a : Nat} {b : Byte} (hm : m.within n) (ha : a < n) :
    (m.write a b).within n := by
  intro c hc
  rcases Memory.mem_write hc with rfl | hc
  · exact ha
  · exact hm c hc

theorem Memory.mem_ofBytes {a : Nat} {bytes : List Byte} {c : Host.Cell} (h : c ∈ Memory.ofBytes a bytes) :
    a ≤ c.1 ∧ c.1 < a + bytes.length := by
  induction bytes generalizing a with
  | nil => simp [Memory.ofBytes] at h
  | cons b bytes ih =>
    rcases Memory.mem_put h with rfl | h
    · simp
    · have := ih h
      simp only [List.length_cons]
      omega

/-- A supplied buffer is canonical. -/
theorem Memory.wf_ofBytes (a : Nat) (bytes : List Byte) : (Memory.ofBytes a bytes).wf = true := by
  induction bytes generalizing a with
  | nil => rfl
  | cons b bytes ih => exact Memory.wf_put (ih (a + 1)) fun c hc => (Memory.mem_ofBytes hc).1

/-- A supplied buffer holds exactly the bytes supplied. -/
theorem Memory.read_ofBytes (a x : Nat) (bytes : List Byte) (h : a ≤ x) :
    (Memory.ofBytes a bytes).read x = bytes.getD (x - a) Memory.unlisted := by
  induction bytes generalizing a with
  | nil => simp [Memory.ofBytes, Memory.read]
  | cons b bytes ih =>
    rw [Memory.ofBytes, Memory.read_put _ _ _ _ (Memory.read_below fun c hc => (Memory.mem_ofBytes hc).1)]
    split
    · next hx => subst hx; simp
    · have : x - a = (x - (a + 1)) + 1 := by omega
      rw [this, List.getD_cons_succ, ih (a + 1) (by omega)]

/-! ### Table memories -/

@[simp] theorem setEntry_toList {α : Type} {n : Nat} (v : Vector α n) (i : Nat) (x : α) :
    (setEntry v i x).toList = v.toList.set i x := rfl

@[simp] theorem fillEntries_toList {α : Type} {n : Nat} (v : Vector α n) (first k : Nat) (x : α) :
    (fillEntries v first k x).toList = (v.toList.take first ++ List.replicate k x).take n ++ v.toList.drop (first + k) :=
  rfl

/-- Reading an entry after writing one. -/
theorem setEntry_getD {α : Type} {n : Nat} (v : Vector α n) (i j : Nat) (x d : α) (hi : i < n) :
    (setEntry v i x).toList.getD j d = if j = i then x else v.toList.getD j d := by
  have hl : v.toList.length = n := by simp
  simp only [setEntry_toList, List.getD_eq_getElem?_getD, List.getElem?_set, hl]
  by_cases h : i = j
  · subst h; simp [hi]
  · simp [h, Ne.symm h]

/-- Reading an entry after a run of entries was written inside the memory. -/
theorem fillEntries_getD {α : Type} {n : Nat} (v : Vector α n) (first k j : Nat) (x d : α) (h : first + k ≤ n) :
    (fillEntries v first k x).toList.getD j d = if first ≤ j ∧ j < first + k then x else v.toList.getD j d := by
  have hl : v.toList.length = n := by simp
  have htake : (v.toList.take first ++ List.replicate k x).take n = v.toList.take first ++ List.replicate k x := by
    apply List.take_of_length_le
    simp; omega
  have hlen : (v.toList.take first ++ List.replicate k x).length = first + k := by simp; omega
  rw [fillEntries_toList, htake]
  simp only [List.getD_eq_getElem?_getD]
  by_cases h1 : j < first
  · rw [List.append_assoc, List.getElem?_append_left (by simp; omega)]
    simp [h1, show ¬ (first ≤ j ∧ j < first + k) by omega]
  · by_cases h2 : j < first + k
    · rw [List.getElem?_append_left (by omega), List.getElem?_append_right (by simp; omega)]
      have hm : min first n = first := by omega
      simp [show first ≤ j ∧ j < first + k by omega, hm, show j - first < k by omega]
    · rw [List.getElem?_append_right (by omega)]
      simp [hlen, show ¬ (first ≤ j ∧ j < first + k) by omega, show first + k + (j - (first + k)) = j by omega]

end Sys2Proof.Machine
end

