-- ==== Sys2Proof/Laws/State.lean ====
section
/-! SUPPORT. Laws/State.lean: one lemma per field per named update of the state, so that no proof unfolds an update. -/

namespace Sys2Proof.Machine

variable (s : State)

/-! ### `advance` -/

@[simp] theorem State.advance_variant (n : Nat) : (s.advance n).variant = s.variant := rfl
@[simp] theorem State.advance_busy (n : Nat) : (s.advance n).busy = s.busy := rfl
@[simp] theorem State.advance_done (n : Nat) : (s.advance n).done = s.done := rfl
@[simp] theorem State.advance_err (n : Nat) : (s.advance n).err = s.err := rfl
@[simp] theorem State.advance_srcLen (n : Nat) : (s.advance n).srcLen = s.srcLen := rfl
@[simp] theorem State.advance_dstLen (n : Nat) : (s.advance n).dstLen = s.dstLen := rfl
@[simp] theorem State.advance_phase (n : Nat) : (s.advance n).phase = s.phase := rfl
@[simp] theorem State.advance_var (n : Nat) : (s.advance n).var = s.var := rfl
@[simp] theorem State.advance_bitPos (n : Nat) : (s.advance n).bitPos = BitVec.ofNat 35 (s.bitPos.toNat + n) := rfl
@[simp] theorem State.advance_outLen (n : Nat) : (s.advance n).outLen = s.outLen := rfl
@[simp] theorem State.advance_remain (n : Nat) : (s.advance n).remain = s.remain := rfl
@[simp] theorem State.advance_alph (n : Nat) : (s.advance n).alph = s.alph := rfl
@[simp] theorem State.advance_cnt (n : Nat) : (s.advance n).cnt = s.cnt := rfl
@[simp] theorem State.advance_idx (n : Nat) : (s.advance n).idx = s.idx := rfl
@[simp] theorem State.advance_cpyLen (n : Nat) : (s.advance n).cpyLen = s.cpyLen := rfl
@[simp] theorem State.advance_cpySrc (n : Nat) : (s.advance n).cpySrc = s.cpySrc := rfl
@[simp] theorem State.advance_ptDegen (n : Nat) : (s.advance n).ptDegen = s.ptDegen := rfl
@[simp] theorem State.advance_ptConst (n : Nat) : (s.advance n).ptConst = s.ptConst := rfl
@[simp] theorem State.advance_cDegen (n : Nat) : (s.advance n).cDegen = s.cDegen := rfl
@[simp] theorem State.advance_cConst (n : Nat) : (s.advance n).cConst = s.cConst := rfl
@[simp] theorem State.advance_ptLen (n : Nat) : (s.advance n).ptLen = s.ptLen := rfl
@[simp] theorem State.advance_cLen (n : Nat) : (s.advance n).cLen = s.cLen := rfl
@[simp] theorem State.advance_ptFix (n : Nat) : (s.advance n).ptFix = s.ptFix := rfl
@[simp] theorem State.advance_cFix (n : Nat) : (s.advance n).cFix = s.cFix := rfl
@[simp] theorem State.advance_left (n : Nat) : (s.advance n).left = s.left := rfl
@[simp] theorem State.advance_right (n : Nat) : (s.advance n).right = s.right := rfl
@[simp] theorem State.advance_src (n : Nat) : (s.advance n).src = s.src := rfl
@[simp] theorem State.advance_dst (n : Nat) : (s.advance n).dst = s.dst := rfl
@[simp] theorem State.advance_srcCap (n : Nat) : (s.advance n).srcCap = s.srcCap := rfl
@[simp] theorem State.advance_dstCap (n : Nat) : (s.advance n).dstCap = s.dstCap := rfl
@[simp] theorem State.advance_peek (n : Nat) : (s.advance n).peek = s.peek := rfl
@[simp] theorem State.advance_cause (n : Nat) : (s.advance n).cause = s.cause := rfl
@[simp] theorem State.advance_dstLost (n : Nat) : (s.advance n).dstLost = s.dstLost := rfl
@[simp] theorem State.advance_free (n : Nat) : (s.advance n).free = s.free := rfl
@[simp] theorem State.advance_host (n : Nat) : (s.advance n).host = s.host := rfl
@[simp] theorem State.advance_rdata (n : Nat) : (s.advance n).rdata = s.rdata := rfl
@[simp] theorem State.advance_totalBits (n : Nat) : (s.advance n).totalBits = s.totalBits := rfl

/-! ### `raise` -/

@[simp] theorem State.raise_variant (k : ErrCode) (c : Cause) : (s.raise k c).variant = s.variant := rfl
@[simp] theorem State.raise_busy (k : ErrCode) (c : Cause) : (s.raise k c).busy = false := rfl
@[simp] theorem State.raise_done (k : ErrCode) (c : Cause) : (s.raise k c).done = true := rfl
@[simp] theorem State.raise_err (k : ErrCode) (c : Cause) : (s.raise k c).err = k := rfl
@[simp] theorem State.raise_srcLen (k : ErrCode) (c : Cause) : (s.raise k c).srcLen = s.srcLen := rfl
@[simp] theorem State.raise_dstLen (k : ErrCode) (c : Cause) : (s.raise k c).dstLen = s.dstLen := rfl
@[simp] theorem State.raise_phase (k : ErrCode) (c : Cause) : (s.raise k c).phase = .idle := rfl
@[simp] theorem State.raise_var (k : ErrCode) (c : Cause) : (s.raise k c).var = s.var := rfl
@[simp] theorem State.raise_bitPos (k : ErrCode) (c : Cause) : (s.raise k c).bitPos = s.bitPos := rfl
@[simp] theorem State.raise_outLen (k : ErrCode) (c : Cause) : (s.raise k c).outLen = s.outLen := rfl
@[simp] theorem State.raise_remain (k : ErrCode) (c : Cause) : (s.raise k c).remain = s.remain := rfl
@[simp] theorem State.raise_alph (k : ErrCode) (c : Cause) : (s.raise k c).alph = s.alph := rfl
@[simp] theorem State.raise_cnt (k : ErrCode) (c : Cause) : (s.raise k c).cnt = s.cnt := rfl
@[simp] theorem State.raise_idx (k : ErrCode) (c : Cause) : (s.raise k c).idx = s.idx := rfl
@[simp] theorem State.raise_cpyLen (k : ErrCode) (c : Cause) : (s.raise k c).cpyLen = s.cpyLen := rfl
@[simp] theorem State.raise_cpySrc (k : ErrCode) (c : Cause) : (s.raise k c).cpySrc = s.cpySrc := rfl
@[simp] theorem State.raise_ptDegen (k : ErrCode) (c : Cause) : (s.raise k c).ptDegen = s.ptDegen := rfl
@[simp] theorem State.raise_ptConst (k : ErrCode) (c : Cause) : (s.raise k c).ptConst = s.ptConst := rfl
@[simp] theorem State.raise_cDegen (k : ErrCode) (c : Cause) : (s.raise k c).cDegen = s.cDegen := rfl
@[simp] theorem State.raise_cConst (k : ErrCode) (c : Cause) : (s.raise k c).cConst = s.cConst := rfl
@[simp] theorem State.raise_ptLen (k : ErrCode) (c : Cause) : (s.raise k c).ptLen = s.ptLen := rfl
@[simp] theorem State.raise_cLen (k : ErrCode) (c : Cause) : (s.raise k c).cLen = s.cLen := rfl
@[simp] theorem State.raise_ptFix (k : ErrCode) (c : Cause) : (s.raise k c).ptFix = s.ptFix := rfl
@[simp] theorem State.raise_cFix (k : ErrCode) (c : Cause) : (s.raise k c).cFix = s.cFix := rfl
@[simp] theorem State.raise_left (k : ErrCode) (c : Cause) : (s.raise k c).left = s.left := rfl
@[simp] theorem State.raise_right (k : ErrCode) (c : Cause) : (s.raise k c).right = s.right := rfl
@[simp] theorem State.raise_src (k : ErrCode) (c : Cause) : (s.raise k c).src = s.src := rfl
@[simp] theorem State.raise_dst (k : ErrCode) (c : Cause) : (s.raise k c).dst = s.dst := rfl
@[simp] theorem State.raise_srcCap (k : ErrCode) (c : Cause) : (s.raise k c).srcCap = s.srcCap := rfl
@[simp] theorem State.raise_dstCap (k : ErrCode) (c : Cause) : (s.raise k c).dstCap = s.dstCap := rfl
@[simp] theorem State.raise_peek (k : ErrCode) (c : Cause) : (s.raise k c).peek = s.peek := rfl
@[simp] theorem State.raise_cause (k : ErrCode) (c : Cause) : (s.raise k c).cause = some c := rfl
@[simp] theorem State.raise_dstLost (k : ErrCode) (c : Cause) : (s.raise k c).dstLost = loseBelow s.dstLen.toNat s.dstLost := rfl
@[simp] theorem State.raise_free (k : ErrCode) (c : Cause) : (s.raise k c).free = s.free + 1 := rfl
@[simp] theorem State.raise_host (k : ErrCode) (c : Cause) : (s.raise k c).host = s.host := rfl
@[simp] theorem State.raise_rdata (k : ErrCode) (c : Cause) : (s.raise k c).rdata = s.rdata := rfl
@[simp] theorem State.raise_totalBits (k : ErrCode) (c : Cause) : (s.raise k c).totalBits = s.totalBits := rfl

/-! ### `finish` -/

@[simp] theorem State.finish_variant : (s.finish).variant = s.variant := rfl
@[simp] theorem State.finish_busy : (s.finish).busy = false := rfl
@[simp] theorem State.finish_done : (s.finish).done = true := rfl
@[simp] theorem State.finish_err : (s.finish).err = .ok := rfl
@[simp] theorem State.finish_srcLen : (s.finish).srcLen = s.srcLen := rfl
@[simp] theorem State.finish_dstLen : (s.finish).dstLen = s.dstLen := rfl
@[simp] theorem State.finish_phase : (s.finish).phase = .idle := rfl
@[simp] theorem State.finish_var : (s.finish).var = s.var := rfl
@[simp] theorem State.finish_bitPos : (s.finish).bitPos = s.bitPos := rfl
@[simp] theorem State.finish_outLen : (s.finish).outLen = s.outLen := rfl
@[simp] theorem State.finish_remain : (s.finish).remain = s.remain := rfl
@[simp] theorem State.finish_alph : (s.finish).alph = s.alph := rfl
@[simp] theorem State.finish_cnt : (s.finish).cnt = s.cnt := rfl
@[simp] theorem State.finish_idx : (s.finish).idx = s.idx := rfl
@[simp] theorem State.finish_cpyLen : (s.finish).cpyLen = s.cpyLen := rfl
@[simp] theorem State.finish_cpySrc : (s.finish).cpySrc = s.cpySrc := rfl
@[simp] theorem State.finish_ptDegen : (s.finish).ptDegen = s.ptDegen := rfl
@[simp] theorem State.finish_ptConst : (s.finish).ptConst = s.ptConst := rfl
@[simp] theorem State.finish_cDegen : (s.finish).cDegen = s.cDegen := rfl
@[simp] theorem State.finish_cConst : (s.finish).cConst = s.cConst := rfl
@[simp] theorem State.finish_ptLen : (s.finish).ptLen = s.ptLen := rfl
@[simp] theorem State.finish_cLen : (s.finish).cLen = s.cLen := rfl
@[simp] theorem State.finish_ptFix : (s.finish).ptFix = s.ptFix := rfl
@[simp] theorem State.finish_cFix : (s.finish).cFix = s.cFix := rfl
@[simp] theorem State.finish_left : (s.finish).left = s.left := rfl
@[simp] theorem State.finish_right : (s.finish).right = s.right := rfl
@[simp] theorem State.finish_src : (s.finish).src = s.src := rfl
@[simp] theorem State.finish_dst : (s.finish).dst = s.dst := rfl
@[simp] theorem State.finish_srcCap : (s.finish).srcCap = s.srcCap := rfl
@[simp] theorem State.finish_dstCap : (s.finish).dstCap = s.dstCap := rfl
@[simp] theorem State.finish_peek : (s.finish).peek = s.peek := rfl
@[simp] theorem State.finish_cause : (s.finish).cause = s.cause := rfl
@[simp] theorem State.finish_dstLost : (s.finish).dstLost = s.dstLost := rfl
@[simp] theorem State.finish_free : (s.finish).free = s.free := rfl
@[simp] theorem State.finish_host : (s.finish).host = s.host := rfl
@[simp] theorem State.finish_rdata : (s.finish).rdata = s.rdata := rfl
@[simp] theorem State.finish_totalBits : (s.finish).totalBits = s.totalBits := rfl

/-! ### `finishFull` -/

@[simp] theorem State.finishFull_variant : (s.finishFull).variant = s.variant := rfl
@[simp] theorem State.finishFull_busy : (s.finishFull).busy = false := rfl
@[simp] theorem State.finishFull_done : (s.finishFull).done = true := rfl
@[simp] theorem State.finishFull_err : (s.finishFull).err = .ok := rfl
@[simp] theorem State.finishFull_srcLen : (s.finishFull).srcLen = s.srcLen := rfl
@[simp] theorem State.finishFull_dstLen : (s.finishFull).dstLen = s.dstLen := rfl
@[simp] theorem State.finishFull_phase : (s.finishFull).phase = .idle := rfl
@[simp] theorem State.finishFull_var : (s.finishFull).var = s.var := rfl
@[simp] theorem State.finishFull_bitPos : (s.finishFull).bitPos = s.bitPos := rfl
@[simp] theorem State.finishFull_outLen : (s.finishFull).outLen = s.outLen := rfl
@[simp] theorem State.finishFull_remain : (s.finishFull).remain = s.remain := rfl
@[simp] theorem State.finishFull_alph : (s.finishFull).alph = s.alph := rfl
@[simp] theorem State.finishFull_cnt : (s.finishFull).cnt = s.cnt := rfl
@[simp] theorem State.finishFull_idx : (s.finishFull).idx = s.idx := rfl
@[simp] theorem State.finishFull_cpyLen : (s.finishFull).cpyLen = s.cpyLen := rfl
@[simp] theorem State.finishFull_cpySrc : (s.finishFull).cpySrc = s.cpySrc := rfl
@[simp] theorem State.finishFull_ptDegen : (s.finishFull).ptDegen = s.ptDegen := rfl
@[simp] theorem State.finishFull_ptConst : (s.finishFull).ptConst = s.ptConst := rfl
@[simp] theorem State.finishFull_cDegen : (s.finishFull).cDegen = s.cDegen := rfl
@[simp] theorem State.finishFull_cConst : (s.finishFull).cConst = s.cConst := rfl
@[simp] theorem State.finishFull_ptLen : (s.finishFull).ptLen = s.ptLen := rfl
@[simp] theorem State.finishFull_cLen : (s.finishFull).cLen = s.cLen := rfl
@[simp] theorem State.finishFull_ptFix : (s.finishFull).ptFix = s.ptFix := rfl
@[simp] theorem State.finishFull_cFix : (s.finishFull).cFix = s.cFix := rfl
@[simp] theorem State.finishFull_left : (s.finishFull).left = s.left := rfl
@[simp] theorem State.finishFull_right : (s.finishFull).right = s.right := rfl
@[simp] theorem State.finishFull_src : (s.finishFull).src = s.src := rfl
@[simp] theorem State.finishFull_dst : (s.finishFull).dst = s.dst := rfl
@[simp] theorem State.finishFull_srcCap : (s.finishFull).srcCap = s.srcCap := rfl
@[simp] theorem State.finishFull_dstCap : (s.finishFull).dstCap = s.dstCap := rfl
@[simp] theorem State.finishFull_peek : (s.finishFull).peek = s.peek := rfl
@[simp] theorem State.finishFull_cause : (s.finishFull).cause = s.cause := rfl
@[simp] theorem State.finishFull_dstLost : (s.finishFull).dstLost = lostFrom s.dstLen.toNat s.dstLost := rfl
@[simp] theorem State.finishFull_free : (s.finishFull).free = s.free := rfl
@[simp] theorem State.finishFull_host : (s.finishFull).host = s.host := rfl
@[simp] theorem State.finishFull_rdata : (s.finishFull).rdata = s.rdata := rfl
@[simp] theorem State.finishFull_totalBits : (s.finishFull).totalBits = s.totalBits := rfl

/-! ### `goto` -/

@[simp] theorem State.goto_variant (p : Phase) : (s.goto p).variant = s.variant := rfl
@[simp] theorem State.goto_busy (p : Phase) : (s.goto p).busy = s.busy := rfl
@[simp] theorem State.goto_done (p : Phase) : (s.goto p).done = s.done := rfl
@[simp] theorem State.goto_err (p : Phase) : (s.goto p).err = s.err := rfl
@[simp] theorem State.goto_srcLen (p : Phase) : (s.goto p).srcLen = s.srcLen := rfl
@[simp] theorem State.goto_dstLen (p : Phase) : (s.goto p).dstLen = s.dstLen := rfl
@[simp] theorem State.goto_phase (p : Phase) : (s.goto p).phase = p := rfl
@[simp] theorem State.goto_var (p : Phase) : (s.goto p).var = s.var := rfl
@[simp] theorem State.goto_bitPos (p : Phase) : (s.goto p).bitPos = s.bitPos := rfl
@[simp] theorem State.goto_outLen (p : Phase) : (s.goto p).outLen = s.outLen := rfl
@[simp] theorem State.goto_remain (p : Phase) : (s.goto p).remain = s.remain := rfl
@[simp] theorem State.goto_alph (p : Phase) : (s.goto p).alph = s.alph := rfl
@[simp] theorem State.goto_cnt (p : Phase) : (s.goto p).cnt = s.cnt := rfl
@[simp] theorem State.goto_idx (p : Phase) : (s.goto p).idx = s.idx := rfl
@[simp] theorem State.goto_cpyLen (p : Phase) : (s.goto p).cpyLen = s.cpyLen := rfl
@[simp] theorem State.goto_cpySrc (p : Phase) : (s.goto p).cpySrc = s.cpySrc := rfl
@[simp] theorem State.goto_ptDegen (p : Phase) : (s.goto p).ptDegen = s.ptDegen := rfl
@[simp] theorem State.goto_ptConst (p : Phase) : (s.goto p).ptConst = s.ptConst := rfl
@[simp] theorem State.goto_cDegen (p : Phase) : (s.goto p).cDegen = s.cDegen := rfl
@[simp] theorem State.goto_cConst (p : Phase) : (s.goto p).cConst = s.cConst := rfl
@[simp] theorem State.goto_ptLen (p : Phase) : (s.goto p).ptLen = s.ptLen := rfl
@[simp] theorem State.goto_cLen (p : Phase) : (s.goto p).cLen = s.cLen := rfl
@[simp] theorem State.goto_ptFix (p : Phase) : (s.goto p).ptFix = s.ptFix := rfl
@[simp] theorem State.goto_cFix (p : Phase) : (s.goto p).cFix = s.cFix := rfl
@[simp] theorem State.goto_left (p : Phase) : (s.goto p).left = s.left := rfl
@[simp] theorem State.goto_right (p : Phase) : (s.goto p).right = s.right := rfl
@[simp] theorem State.goto_src (p : Phase) : (s.goto p).src = s.src := rfl
@[simp] theorem State.goto_dst (p : Phase) : (s.goto p).dst = s.dst := rfl
@[simp] theorem State.goto_srcCap (p : Phase) : (s.goto p).srcCap = s.srcCap := rfl
@[simp] theorem State.goto_dstCap (p : Phase) : (s.goto p).dstCap = s.dstCap := rfl
@[simp] theorem State.goto_peek (p : Phase) : (s.goto p).peek = s.peek := rfl
@[simp] theorem State.goto_cause (p : Phase) : (s.goto p).cause = s.cause := rfl
@[simp] theorem State.goto_dstLost (p : Phase) : (s.goto p).dstLost = s.dstLost := rfl
@[simp] theorem State.goto_free (p : Phase) : (s.goto p).free = s.free := rfl
@[simp] theorem State.goto_host (p : Phase) : (s.goto p).host = s.host := rfl
@[simp] theorem State.goto_rdata (p : Phase) : (s.goto p).rdata = s.rdata := rfl
@[simp] theorem State.goto_totalBits (p : Phase) : (s.goto p).totalBits = s.totalBits := rfl

/-! ### `store` -/

@[simp] theorem State.store_variant (b : Byte) : (s.store b).variant = s.variant := rfl
@[simp] theorem State.store_busy (b : Byte) : (s.store b).busy = s.busy := rfl
@[simp] theorem State.store_done (b : Byte) : (s.store b).done = s.done := rfl
@[simp] theorem State.store_err (b : Byte) : (s.store b).err = s.err := rfl
@[simp] theorem State.store_srcLen (b : Byte) : (s.store b).srcLen = s.srcLen := rfl
@[simp] theorem State.store_dstLen (b : Byte) : (s.store b).dstLen = s.dstLen := rfl
@[simp] theorem State.store_phase (b : Byte) : (s.store b).phase = s.phase := rfl
@[simp] theorem State.store_var (b : Byte) : (s.store b).var = s.var := rfl
@[simp] theorem State.store_bitPos (b : Byte) : (s.store b).bitPos = s.bitPos := rfl
@[simp] theorem State.store_outLen (b : Byte) : (s.store b).outLen = s.outLen + 1 := rfl
@[simp] theorem State.store_remain (b : Byte) : (s.store b).remain = s.remain := rfl
@[simp] theorem State.store_alph (b : Byte) : (s.store b).alph = s.alph := rfl
@[simp] theorem State.store_cnt (b : Byte) : (s.store b).cnt = s.cnt := rfl
@[simp] theorem State.store_idx (b : Byte) : (s.store b).idx = s.idx := rfl
@[simp] theorem State.store_cpyLen (b : Byte) : (s.store b).cpyLen = s.cpyLen := rfl
@[simp] theorem State.store_cpySrc (b : Byte) : (s.store b).cpySrc = s.cpySrc := rfl
@[simp] theorem State.store_ptDegen (b : Byte) : (s.store b).ptDegen = s.ptDegen := rfl
@[simp] theorem State.store_ptConst (b : Byte) : (s.store b).ptConst = s.ptConst := rfl
@[simp] theorem State.store_cDegen (b : Byte) : (s.store b).cDegen = s.cDegen := rfl
@[simp] theorem State.store_cConst (b : Byte) : (s.store b).cConst = s.cConst := rfl
@[simp] theorem State.store_ptLen (b : Byte) : (s.store b).ptLen = s.ptLen := rfl
@[simp] theorem State.store_cLen (b : Byte) : (s.store b).cLen = s.cLen := rfl
@[simp] theorem State.store_ptFix (b : Byte) : (s.store b).ptFix = s.ptFix := rfl
@[simp] theorem State.store_cFix (b : Byte) : (s.store b).cFix = s.cFix := rfl
@[simp] theorem State.store_left (b : Byte) : (s.store b).left = s.left := rfl
@[simp] theorem State.store_right (b : Byte) : (s.store b).right = s.right := rfl
@[simp] theorem State.store_src (b : Byte) : (s.store b).src = s.src := rfl
@[simp] theorem State.store_dst (b : Byte) : (s.store b).dst = s.dst.write s.outLen.toNat b := rfl
@[simp] theorem State.store_srcCap (b : Byte) : (s.store b).srcCap = s.srcCap := rfl
@[simp] theorem State.store_dstCap (b : Byte) : (s.store b).dstCap = s.dstCap := rfl
@[simp] theorem State.store_peek (b : Byte) : (s.store b).peek = s.peek := rfl
@[simp] theorem State.store_cause (b : Byte) : (s.store b).cause = s.cause := rfl
@[simp] theorem State.store_dstLost (b : Byte) : (s.store b).dstLost = s.dstLost := rfl
@[simp] theorem State.store_free (b : Byte) : (s.store b).free = s.free := rfl
@[simp] theorem State.store_host (b : Byte) : (s.store b).host = s.host := rfl
@[simp] theorem State.store_rdata (b : Byte) : (s.store b).rdata = s.rdata := rfl
@[simp] theorem State.store_totalBits (b : Byte) : (s.store b).totalBits = s.totalBits := rfl

/-! ### `startJob` -/

@[simp] theorem State.startJob_variant : (s.startJob).variant = s.variant := rfl
@[simp] theorem State.startJob_busy : (s.startJob).busy = true := rfl
@[simp] theorem State.startJob_done : (s.startJob).done = false := rfl
@[simp] theorem State.startJob_err : (s.startJob).err = .ok := rfl
@[simp] theorem State.startJob_srcLen : (s.startJob).srcLen = s.srcLen := rfl
@[simp] theorem State.startJob_dstLen : (s.startJob).dstLen = s.dstLen := rfl
@[simp] theorem State.startJob_phase : (s.startJob).phase = .frame := rfl
@[simp] theorem State.startJob_var : (s.startJob).var = s.variant := rfl
@[simp] theorem State.startJob_bitPos : (s.startJob).bitPos = 0 := rfl
@[simp] theorem State.startJob_outLen : (s.startJob).outLen = 0 := rfl
@[simp] theorem State.startJob_remain : (s.startJob).remain = 0 := rfl
@[simp] theorem State.startJob_alph : (s.startJob).alph = s.alph := rfl
@[simp] theorem State.startJob_cnt : (s.startJob).cnt = s.cnt := rfl
@[simp] theorem State.startJob_idx : (s.startJob).idx = s.idx := rfl
@[simp] theorem State.startJob_cpyLen : (s.startJob).cpyLen = 0 := rfl
@[simp] theorem State.startJob_cpySrc : (s.startJob).cpySrc = s.cpySrc := rfl
@[simp] theorem State.startJob_ptDegen : (s.startJob).ptDegen = false := rfl
@[simp] theorem State.startJob_ptConst : (s.startJob).ptConst = s.ptConst := rfl
@[simp] theorem State.startJob_cDegen : (s.startJob).cDegen = false := rfl
@[simp] theorem State.startJob_cConst : (s.startJob).cConst = s.cConst := rfl
@[simp] theorem State.startJob_ptLen : (s.startJob).ptLen = s.ptLen := rfl
@[simp] theorem State.startJob_cLen : (s.startJob).cLen = s.cLen := rfl
@[simp] theorem State.startJob_ptFix : (s.startJob).ptFix = s.ptFix := rfl
@[simp] theorem State.startJob_cFix : (s.startJob).cFix = s.cFix := rfl
@[simp] theorem State.startJob_left : (s.startJob).left = s.left := rfl
@[simp] theorem State.startJob_right : (s.startJob).right = s.right := rfl
@[simp] theorem State.startJob_src : (s.startJob).src = s.src := rfl
@[simp] theorem State.startJob_dst : (s.startJob).dst = s.dst := rfl
@[simp] theorem State.startJob_srcCap : (s.startJob).srcCap = s.srcCap := rfl
@[simp] theorem State.startJob_dstCap : (s.startJob).dstCap = s.dstCap := rfl
@[simp] theorem State.startJob_peek : (s.startJob).peek = s.peek := rfl
@[simp] theorem State.startJob_cause : (s.startJob).cause = none := rfl
@[simp] theorem State.startJob_dstLost : (s.startJob).dstLost = s.dstLost := rfl
@[simp] theorem State.startJob_free : (s.startJob).free = s.free := rfl
@[simp] theorem State.startJob_host : (s.startJob).host = s.host := rfl
@[simp] theorem State.startJob_rdata : (s.startJob).rdata = s.rdata := rfl
@[simp] theorem State.startJob_totalBits : (s.startJob).totalBits = s.totalBits := rfl

/-! ### `sessionStart` -/

@[simp] theorem State.sessionStart_variant : (s.sessionStart).variant = s.variant := rfl
@[simp] theorem State.sessionStart_busy : (s.sessionStart).busy = s.busy := rfl
@[simp] theorem State.sessionStart_done : (s.sessionStart).done = s.done := rfl
@[simp] theorem State.sessionStart_err : (s.sessionStart).err = s.err := rfl
@[simp] theorem State.sessionStart_srcLen : (s.sessionStart).srcLen = s.srcLen := rfl
@[simp] theorem State.sessionStart_dstLen : (s.sessionStart).dstLen = s.dstLen := rfl
@[simp] theorem State.sessionStart_phase : (s.sessionStart).phase = .symbol := rfl
@[simp] theorem State.sessionStart_var : (s.sessionStart).var = s.var := rfl
@[simp] theorem State.sessionStart_bitPos : (s.sessionStart).bitPos = 0 := rfl
@[simp] theorem State.sessionStart_outLen : (s.sessionStart).outLen = 0 := rfl
@[simp] theorem State.sessionStart_remain : (s.sessionStart).remain = 0 := rfl
@[simp] theorem State.sessionStart_alph : (s.sessionStart).alph = s.alph := rfl
@[simp] theorem State.sessionStart_cnt : (s.sessionStart).cnt = s.cnt := rfl
@[simp] theorem State.sessionStart_idx : (s.sessionStart).idx = s.idx := rfl
@[simp] theorem State.sessionStart_cpyLen : (s.sessionStart).cpyLen = s.cpyLen := rfl
@[simp] theorem State.sessionStart_cpySrc : (s.sessionStart).cpySrc = s.cpySrc := rfl
@[simp] theorem State.sessionStart_ptDegen : (s.sessionStart).ptDegen = s.ptDegen := rfl
@[simp] theorem State.sessionStart_ptConst : (s.sessionStart).ptConst = s.ptConst := rfl
@[simp] theorem State.sessionStart_cDegen : (s.sessionStart).cDegen = s.cDegen := rfl
@[simp] theorem State.sessionStart_cConst : (s.sessionStart).cConst = s.cConst := rfl
@[simp] theorem State.sessionStart_ptLen : (s.sessionStart).ptLen = s.ptLen := rfl
@[simp] theorem State.sessionStart_cLen : (s.sessionStart).cLen = s.cLen := rfl
@[simp] theorem State.sessionStart_ptFix : (s.sessionStart).ptFix = s.ptFix := rfl
@[simp] theorem State.sessionStart_cFix : (s.sessionStart).cFix = s.cFix := rfl
@[simp] theorem State.sessionStart_left : (s.sessionStart).left = s.left := rfl
@[simp] theorem State.sessionStart_right : (s.sessionStart).right = s.right := rfl
@[simp] theorem State.sessionStart_src : (s.sessionStart).src = s.src := rfl
@[simp] theorem State.sessionStart_dst : (s.sessionStart).dst = s.dst := rfl
@[simp] theorem State.sessionStart_srcCap : (s.sessionStart).srcCap = s.srcCap := rfl
@[simp] theorem State.sessionStart_dstCap : (s.sessionStart).dstCap = s.dstCap := rfl
@[simp] theorem State.sessionStart_peek : (s.sessionStart).peek = s.peek := rfl
@[simp] theorem State.sessionStart_cause : (s.sessionStart).cause = s.cause := rfl
@[simp] theorem State.sessionStart_dstLost : (s.sessionStart).dstLost = s.dstLost := rfl
@[simp] theorem State.sessionStart_free : (s.sessionStart).free = s.free := rfl
@[simp] theorem State.sessionStart_host : (s.sessionStart).host = s.host := rfl
@[simp] theorem State.sessionStart_rdata : (s.sessionStart).rdata = s.rdata := rfl
@[simp] theorem State.sessionStart_totalBits : (s.sessionStart).totalBits = s.totalBits := rfl

/-! ### `loadPtCount` -/

@[simp] theorem State.loadPtCount_variant (c : BitVec 9) : (s.loadPtCount c).variant = s.variant := rfl
@[simp] theorem State.loadPtCount_busy (c : BitVec 9) : (s.loadPtCount c).busy = s.busy := rfl
@[simp] theorem State.loadPtCount_done (c : BitVec 9) : (s.loadPtCount c).done = s.done := rfl
@[simp] theorem State.loadPtCount_err (c : BitVec 9) : (s.loadPtCount c).err = s.err := rfl
@[simp] theorem State.loadPtCount_srcLen (c : BitVec 9) : (s.loadPtCount c).srcLen = s.srcLen := rfl
@[simp] theorem State.loadPtCount_dstLen (c : BitVec 9) : (s.loadPtCount c).dstLen = s.dstLen := rfl
@[simp] theorem State.loadPtCount_phase (c : BitVec 9) : (s.loadPtCount c).phase = if c = 0 then s.phase else .ptEntry := rfl
@[simp] theorem State.loadPtCount_var (c : BitVec 9) : (s.loadPtCount c).var = s.var := rfl
@[simp] theorem State.loadPtCount_bitPos (c : BitVec 9) : (s.loadPtCount c).bitPos = s.bitPos := rfl
@[simp] theorem State.loadPtCount_outLen (c : BitVec 9) : (s.loadPtCount c).outLen = s.outLen := rfl
@[simp] theorem State.loadPtCount_remain (c : BitVec 9) : (s.loadPtCount c).remain = s.remain := rfl
@[simp] theorem State.loadPtCount_alph (c : BitVec 9) : (s.loadPtCount c).alph = s.alph := rfl
@[simp] theorem State.loadPtCount_cnt (c : BitVec 9) : (s.loadPtCount c).cnt = c := rfl
@[simp] theorem State.loadPtCount_idx (c : BitVec 9) : (s.loadPtCount c).idx = 0 := rfl
@[simp] theorem State.loadPtCount_cpyLen (c : BitVec 9) : (s.loadPtCount c).cpyLen = s.cpyLen := rfl
@[simp] theorem State.loadPtCount_cpySrc (c : BitVec 9) : (s.loadPtCount c).cpySrc = s.cpySrc := rfl
@[simp] theorem State.loadPtCount_ptDegen (c : BitVec 9) : (s.loadPtCount c).ptDegen = s.ptDegen := rfl
@[simp] theorem State.loadPtCount_ptConst (c : BitVec 9) : (s.loadPtCount c).ptConst = s.ptConst := rfl
@[simp] theorem State.loadPtCount_cDegen (c : BitVec 9) : (s.loadPtCount c).cDegen = s.cDegen := rfl
@[simp] theorem State.loadPtCount_cConst (c : BitVec 9) : (s.loadPtCount c).cConst = s.cConst := rfl
@[simp] theorem State.loadPtCount_ptLen (c : BitVec 9) : (s.loadPtCount c).ptLen = Vector.replicate 31 0 := rfl
@[simp] theorem State.loadPtCount_cLen (c : BitVec 9) : (s.loadPtCount c).cLen = s.cLen := rfl
@[simp] theorem State.loadPtCount_ptFix (c : BitVec 9) : (s.loadPtCount c).ptFix = s.ptFix := rfl
@[simp] theorem State.loadPtCount_cFix (c : BitVec 9) : (s.loadPtCount c).cFix = s.cFix := rfl
@[simp] theorem State.loadPtCount_left (c : BitVec 9) : (s.loadPtCount c).left = s.left := rfl
@[simp] theorem State.loadPtCount_right (c : BitVec 9) : (s.loadPtCount c).right = s.right := rfl
@[simp] theorem State.loadPtCount_src (c : BitVec 9) : (s.loadPtCount c).src = s.src := rfl
@[simp] theorem State.loadPtCount_dst (c : BitVec 9) : (s.loadPtCount c).dst = s.dst := rfl
@[simp] theorem State.loadPtCount_srcCap (c : BitVec 9) : (s.loadPtCount c).srcCap = s.srcCap := rfl
@[simp] theorem State.loadPtCount_dstCap (c : BitVec 9) : (s.loadPtCount c).dstCap = s.dstCap := rfl
@[simp] theorem State.loadPtCount_peek (c : BitVec 9) : (s.loadPtCount c).peek = s.peek := rfl
@[simp] theorem State.loadPtCount_cause (c : BitVec 9) : (s.loadPtCount c).cause = s.cause := rfl
@[simp] theorem State.loadPtCount_dstLost (c : BitVec 9) : (s.loadPtCount c).dstLost = s.dstLost := rfl
@[simp] theorem State.loadPtCount_free (c : BitVec 9) : (s.loadPtCount c).free = s.free := rfl
@[simp] theorem State.loadPtCount_host (c : BitVec 9) : (s.loadPtCount c).host = s.host := rfl
@[simp] theorem State.loadPtCount_rdata (c : BitVec 9) : (s.loadPtCount c).rdata = s.rdata := rfl
@[simp] theorem State.loadPtCount_totalBits (c : BitVec 9) : (s.loadPtCount c).totalBits = s.totalBits := rfl

/-! ### `placePtLen` -/

@[simp] theorem State.placePtLen_variant (l : Nat) : (s.placePtLen l).variant = s.variant := rfl
@[simp] theorem State.placePtLen_busy (l : Nat) : (s.placePtLen l).busy = s.busy := rfl
@[simp] theorem State.placePtLen_done (l : Nat) : (s.placePtLen l).done = s.done := rfl
@[simp] theorem State.placePtLen_err (l : Nat) : (s.placePtLen l).err = s.err := rfl
@[simp] theorem State.placePtLen_srcLen (l : Nat) : (s.placePtLen l).srcLen = s.srcLen := rfl
@[simp] theorem State.placePtLen_dstLen (l : Nat) : (s.placePtLen l).dstLen = s.dstLen := rfl
@[simp] theorem State.placePtLen_phase (l : Nat) : (s.placePtLen l).phase = if s.alph = .t ∧ s.idx.toNat + 1 = 3 then .ptZrun else s.ptLoopPhase (s.idx.toNat + 1) := rfl
@[simp] theorem State.placePtLen_var (l : Nat) : (s.placePtLen l).var = s.var := rfl
@[simp] theorem State.placePtLen_bitPos (l : Nat) : (s.placePtLen l).bitPos = s.bitPos := rfl
@[simp] theorem State.placePtLen_outLen (l : Nat) : (s.placePtLen l).outLen = s.outLen := rfl
@[simp] theorem State.placePtLen_remain (l : Nat) : (s.placePtLen l).remain = s.remain := rfl
@[simp] theorem State.placePtLen_alph (l : Nat) : (s.placePtLen l).alph = s.alph := rfl
@[simp] theorem State.placePtLen_cnt (l : Nat) : (s.placePtLen l).cnt = s.cnt := rfl
@[simp] theorem State.placePtLen_idx (l : Nat) : (s.placePtLen l).idx = BitVec.ofNat 10 (s.idx.toNat + 1) := rfl
@[simp] theorem State.placePtLen_cpyLen (l : Nat) : (s.placePtLen l).cpyLen = s.cpyLen := rfl
@[simp] theorem State.placePtLen_cpySrc (l : Nat) : (s.placePtLen l).cpySrc = s.cpySrc := rfl
@[simp] theorem State.placePtLen_ptDegen (l : Nat) : (s.placePtLen l).ptDegen = s.ptDegen := rfl
@[simp] theorem State.placePtLen_ptConst (l : Nat) : (s.placePtLen l).ptConst = s.ptConst := rfl
@[simp] theorem State.placePtLen_cDegen (l : Nat) : (s.placePtLen l).cDegen = s.cDegen := rfl
@[simp] theorem State.placePtLen_cConst (l : Nat) : (s.placePtLen l).cConst = s.cConst := rfl
@[simp] theorem State.placePtLen_ptLen (l : Nat) : (s.placePtLen l).ptLen = setEntry s.ptLen s.idx.toNat (BitVec.ofNat 5 (min l 17)) := rfl
@[simp] theorem State.placePtLen_cLen (l : Nat) : (s.placePtLen l).cLen = s.cLen := rfl
@[simp] theorem State.placePtLen_ptFix (l : Nat) : (s.placePtLen l).ptFix = s.ptFix := rfl
@[simp] theorem State.placePtLen_cFix (l : Nat) : (s.placePtLen l).cFix = s.cFix := rfl
@[simp] theorem State.placePtLen_left (l : Nat) : (s.placePtLen l).left = s.left := rfl
@[simp] theorem State.placePtLen_right (l : Nat) : (s.placePtLen l).right = s.right := rfl
@[simp] theorem State.placePtLen_src (l : Nat) : (s.placePtLen l).src = s.src := rfl
@[simp] theorem State.placePtLen_dst (l : Nat) : (s.placePtLen l).dst = s.dst := rfl
@[simp] theorem State.placePtLen_srcCap (l : Nat) : (s.placePtLen l).srcCap = s.srcCap := rfl
@[simp] theorem State.placePtLen_dstCap (l : Nat) : (s.placePtLen l).dstCap = s.dstCap := rfl
@[simp] theorem State.placePtLen_peek (l : Nat) : (s.placePtLen l).peek = s.peek := rfl
@[simp] theorem State.placePtLen_cause (l : Nat) : (s.placePtLen l).cause = s.cause := rfl
@[simp] theorem State.placePtLen_dstLost (l : Nat) : (s.placePtLen l).dstLost = s.dstLost := rfl
@[simp] theorem State.placePtLen_free (l : Nat) : (s.placePtLen l).free = s.free := rfl
@[simp] theorem State.placePtLen_host (l : Nat) : (s.placePtLen l).host = s.host := rfl
@[simp] theorem State.placePtLen_rdata (l : Nat) : (s.placePtLen l).rdata = s.rdata := rfl
@[simp] theorem State.placePtLen_totalBits (l : Nat) : (s.placePtLen l).totalBits = s.totalBits := rfl

/-! ### `skipPt` -/

@[simp] theorem State.skipPt_variant (z : Nat) : (s.skipPt z).variant = s.variant := rfl
@[simp] theorem State.skipPt_busy (z : Nat) : (s.skipPt z).busy = s.busy := rfl
@[simp] theorem State.skipPt_done (z : Nat) : (s.skipPt z).done = s.done := rfl
@[simp] theorem State.skipPt_err (z : Nat) : (s.skipPt z).err = s.err := rfl
@[simp] theorem State.skipPt_srcLen (z : Nat) : (s.skipPt z).srcLen = s.srcLen := rfl
@[simp] theorem State.skipPt_dstLen (z : Nat) : (s.skipPt z).dstLen = s.dstLen := rfl
@[simp] theorem State.skipPt_phase (z : Nat) : (s.skipPt z).phase = s.ptLoopPhase (min (s.idx.toNat + z) Config.ptCap) := rfl
@[simp] theorem State.skipPt_var (z : Nat) : (s.skipPt z).var = s.var := rfl
@[simp] theorem State.skipPt_bitPos (z : Nat) : (s.skipPt z).bitPos = s.bitPos := rfl
@[simp] theorem State.skipPt_outLen (z : Nat) : (s.skipPt z).outLen = s.outLen := rfl
@[simp] theorem State.skipPt_remain (z : Nat) : (s.skipPt z).remain = s.remain := rfl
@[simp] theorem State.skipPt_alph (z : Nat) : (s.skipPt z).alph = s.alph := rfl
@[simp] theorem State.skipPt_cnt (z : Nat) : (s.skipPt z).cnt = s.cnt := rfl
@[simp] theorem State.skipPt_idx (z : Nat) : (s.skipPt z).idx = BitVec.ofNat 10 (min (s.idx.toNat + z) Config.ptCap) := rfl
@[simp] theorem State.skipPt_cpyLen (z : Nat) : (s.skipPt z).cpyLen = s.cpyLen := rfl
@[simp] theorem State.skipPt_cpySrc (z : Nat) : (s.skipPt z).cpySrc = s.cpySrc := rfl
@[simp] theorem State.skipPt_ptDegen (z : Nat) : (s.skipPt z).ptDegen = s.ptDegen := rfl
@[simp] theorem State.skipPt_ptConst (z : Nat) : (s.skipPt z).ptConst = s.ptConst := rfl
@[simp] theorem State.skipPt_cDegen (z : Nat) : (s.skipPt z).cDegen = s.cDegen := rfl
@[simp] theorem State.skipPt_cConst (z : Nat) : (s.skipPt z).cConst = s.cConst := rfl
@[simp] theorem State.skipPt_ptLen (z : Nat) : (s.skipPt z).ptLen = s.ptLen := rfl
@[simp] theorem State.skipPt_cLen (z : Nat) : (s.skipPt z).cLen = s.cLen := rfl
@[simp] theorem State.skipPt_ptFix (z : Nat) : (s.skipPt z).ptFix = s.ptFix := rfl
@[simp] theorem State.skipPt_cFix (z : Nat) : (s.skipPt z).cFix = s.cFix := rfl
@[simp] theorem State.skipPt_left (z : Nat) : (s.skipPt z).left = s.left := rfl
@[simp] theorem State.skipPt_right (z : Nat) : (s.skipPt z).right = s.right := rfl
@[simp] theorem State.skipPt_src (z : Nat) : (s.skipPt z).src = s.src := rfl
@[simp] theorem State.skipPt_dst (z : Nat) : (s.skipPt z).dst = s.dst := rfl
@[simp] theorem State.skipPt_srcCap (z : Nat) : (s.skipPt z).srcCap = s.srcCap := rfl
@[simp] theorem State.skipPt_dstCap (z : Nat) : (s.skipPt z).dstCap = s.dstCap := rfl
@[simp] theorem State.skipPt_peek (z : Nat) : (s.skipPt z).peek = s.peek := rfl
@[simp] theorem State.skipPt_cause (z : Nat) : (s.skipPt z).cause = s.cause := rfl
@[simp] theorem State.skipPt_dstLost (z : Nat) : (s.skipPt z).dstLost = s.dstLost := rfl
@[simp] theorem State.skipPt_free (z : Nat) : (s.skipPt z).free = s.free := rfl
@[simp] theorem State.skipPt_host (z : Nat) : (s.skipPt z).host = s.host := rfl
@[simp] theorem State.skipPt_rdata (z : Nat) : (s.skipPt z).rdata = s.rdata := rfl
@[simp] theorem State.skipPt_totalBits (z : Nat) : (s.skipPt z).totalBits = s.totalBits := rfl

/-! ### `setPtConst` -/

@[simp] theorem State.setPtConst_variant (v : BitVec 5) (p : Phase) : (s.setPtConst v p).variant = s.variant := rfl
@[simp] theorem State.setPtConst_busy (v : BitVec 5) (p : Phase) : (s.setPtConst v p).busy = s.busy := rfl
@[simp] theorem State.setPtConst_done (v : BitVec 5) (p : Phase) : (s.setPtConst v p).done = s.done := rfl
@[simp] theorem State.setPtConst_err (v : BitVec 5) (p : Phase) : (s.setPtConst v p).err = s.err := rfl
@[simp] theorem State.setPtConst_srcLen (v : BitVec 5) (p : Phase) : (s.setPtConst v p).srcLen = s.srcLen := rfl
@[simp] theorem State.setPtConst_dstLen (v : BitVec 5) (p : Phase) : (s.setPtConst v p).dstLen = s.dstLen := rfl
@[simp] theorem State.setPtConst_phase (v : BitVec 5) (p : Phase) : (s.setPtConst v p).phase = p := rfl
@[simp] theorem State.setPtConst_var (v : BitVec 5) (p : Phase) : (s.setPtConst v p).var = s.var := rfl
@[simp] theorem State.setPtConst_bitPos (v : BitVec 5) (p : Phase) : (s.setPtConst v p).bitPos = s.bitPos := rfl
@[simp] theorem State.setPtConst_outLen (v : BitVec 5) (p : Phase) : (s.setPtConst v p).outLen = s.outLen := rfl
@[simp] theorem State.setPtConst_remain (v : BitVec 5) (p : Phase) : (s.setPtConst v p).remain = s.remain := rfl
@[simp] theorem State.setPtConst_alph (v : BitVec 5) (p : Phase) : (s.setPtConst v p).alph = s.alph := rfl
@[simp] theorem State.setPtConst_cnt (v : BitVec 5) (p : Phase) : (s.setPtConst v p).cnt = s.cnt := rfl
@[simp] theorem State.setPtConst_idx (v : BitVec 5) (p : Phase) : (s.setPtConst v p).idx = s.idx := rfl
@[simp] theorem State.setPtConst_cpyLen (v : BitVec 5) (p : Phase) : (s.setPtConst v p).cpyLen = s.cpyLen := rfl
@[simp] theorem State.setPtConst_cpySrc (v : BitVec 5) (p : Phase) : (s.setPtConst v p).cpySrc = s.cpySrc := rfl
@[simp] theorem State.setPtConst_ptDegen (v : BitVec 5) (p : Phase) : (s.setPtConst v p).ptDegen = true := rfl
@[simp] theorem State.setPtConst_ptConst (v : BitVec 5) (p : Phase) : (s.setPtConst v p).ptConst = v := rfl
@[simp] theorem State.setPtConst_cDegen (v : BitVec 5) (p : Phase) : (s.setPtConst v p).cDegen = s.cDegen := rfl
@[simp] theorem State.setPtConst_cConst (v : BitVec 5) (p : Phase) : (s.setPtConst v p).cConst = s.cConst := rfl
@[simp] theorem State.setPtConst_ptLen (v : BitVec 5) (p : Phase) : (s.setPtConst v p).ptLen = s.ptLen := rfl
@[simp] theorem State.setPtConst_cLen (v : BitVec 5) (p : Phase) : (s.setPtConst v p).cLen = s.cLen := rfl
@[simp] theorem State.setPtConst_ptFix (v : BitVec 5) (p : Phase) : (s.setPtConst v p).ptFix = s.ptFix := rfl
@[simp] theorem State.setPtConst_cFix (v : BitVec 5) (p : Phase) : (s.setPtConst v p).cFix = s.cFix := rfl
@[simp] theorem State.setPtConst_left (v : BitVec 5) (p : Phase) : (s.setPtConst v p).left = s.left := rfl
@[simp] theorem State.setPtConst_right (v : BitVec 5) (p : Phase) : (s.setPtConst v p).right = s.right := rfl
@[simp] theorem State.setPtConst_src (v : BitVec 5) (p : Phase) : (s.setPtConst v p).src = s.src := rfl
@[simp] theorem State.setPtConst_dst (v : BitVec 5) (p : Phase) : (s.setPtConst v p).dst = s.dst := rfl
@[simp] theorem State.setPtConst_srcCap (v : BitVec 5) (p : Phase) : (s.setPtConst v p).srcCap = s.srcCap := rfl
@[simp] theorem State.setPtConst_dstCap (v : BitVec 5) (p : Phase) : (s.setPtConst v p).dstCap = s.dstCap := rfl
@[simp] theorem State.setPtConst_peek (v : BitVec 5) (p : Phase) : (s.setPtConst v p).peek = s.peek := rfl
@[simp] theorem State.setPtConst_cause (v : BitVec 5) (p : Phase) : (s.setPtConst v p).cause = s.cause := rfl
@[simp] theorem State.setPtConst_dstLost (v : BitVec 5) (p : Phase) : (s.setPtConst v p).dstLost = s.dstLost := rfl
@[simp] theorem State.setPtConst_free (v : BitVec 5) (p : Phase) : (s.setPtConst v p).free = s.free := rfl
@[simp] theorem State.setPtConst_host (v : BitVec 5) (p : Phase) : (s.setPtConst v p).host = s.host := rfl
@[simp] theorem State.setPtConst_rdata (v : BitVec 5) (p : Phase) : (s.setPtConst v p).rdata = s.rdata := rfl
@[simp] theorem State.setPtConst_totalBits (v : BitVec 5) (p : Phase) : (s.setPtConst v p).totalBits = s.totalBits := rfl

/-! ### `loadCCount` -/

@[simp] theorem State.loadCCount_variant (c : BitVec 9) : (s.loadCCount c).variant = s.variant := rfl
@[simp] theorem State.loadCCount_busy (c : BitVec 9) : (s.loadCCount c).busy = s.busy := rfl
@[simp] theorem State.loadCCount_done (c : BitVec 9) : (s.loadCCount c).done = s.done := rfl
@[simp] theorem State.loadCCount_err (c : BitVec 9) : (s.loadCCount c).err = s.err := rfl
@[simp] theorem State.loadCCount_srcLen (c : BitVec 9) : (s.loadCCount c).srcLen = s.srcLen := rfl
@[simp] theorem State.loadCCount_dstLen (c : BitVec 9) : (s.loadCCount c).dstLen = s.dstLen := rfl
@[simp] theorem State.loadCCount_phase (c : BitVec 9) : (s.loadCCount c).phase = if c = 0 then s.phase else .cEntry := rfl
@[simp] theorem State.loadCCount_var (c : BitVec 9) : (s.loadCCount c).var = s.var := rfl
@[simp] theorem State.loadCCount_bitPos (c : BitVec 9) : (s.loadCCount c).bitPos = s.bitPos := rfl
@[simp] theorem State.loadCCount_outLen (c : BitVec 9) : (s.loadCCount c).outLen = s.outLen := rfl
@[simp] theorem State.loadCCount_remain (c : BitVec 9) : (s.loadCCount c).remain = s.remain := rfl
@[simp] theorem State.loadCCount_alph (c : BitVec 9) : (s.loadCCount c).alph = s.alph := rfl
@[simp] theorem State.loadCCount_cnt (c : BitVec 9) : (s.loadCCount c).cnt = c := rfl
@[simp] theorem State.loadCCount_idx (c : BitVec 9) : (s.loadCCount c).idx = 0 := rfl
@[simp] theorem State.loadCCount_cpyLen (c : BitVec 9) : (s.loadCCount c).cpyLen = s.cpyLen := rfl
@[simp] theorem State.loadCCount_cpySrc (c : BitVec 9) : (s.loadCCount c).cpySrc = s.cpySrc := rfl
@[simp] theorem State.loadCCount_ptDegen (c : BitVec 9) : (s.loadCCount c).ptDegen = s.ptDegen := rfl
@[simp] theorem State.loadCCount_ptConst (c : BitVec 9) : (s.loadCCount c).ptConst = s.ptConst := rfl
@[simp] theorem State.loadCCount_cDegen (c : BitVec 9) : (s.loadCCount c).cDegen = s.cDegen := rfl
@[simp] theorem State.loadCCount_cConst (c : BitVec 9) : (s.loadCCount c).cConst = s.cConst := rfl
@[simp] theorem State.loadCCount_ptLen (c : BitVec 9) : (s.loadCCount c).ptLen = s.ptLen := rfl
@[simp] theorem State.loadCCount_cLen (c : BitVec 9) : (s.loadCCount c).cLen = Vector.replicate 510 0 := rfl
@[simp] theorem State.loadCCount_ptFix (c : BitVec 9) : (s.loadCCount c).ptFix = s.ptFix := rfl
@[simp] theorem State.loadCCount_cFix (c : BitVec 9) : (s.loadCCount c).cFix = s.cFix := rfl
@[simp] theorem State.loadCCount_left (c : BitVec 9) : (s.loadCCount c).left = s.left := rfl
@[simp] theorem State.loadCCount_right (c : BitVec 9) : (s.loadCCount c).right = s.right := rfl
@[simp] theorem State.loadCCount_src (c : BitVec 9) : (s.loadCCount c).src = s.src := rfl
@[simp] theorem State.loadCCount_dst (c : BitVec 9) : (s.loadCCount c).dst = s.dst := rfl
@[simp] theorem State.loadCCount_srcCap (c : BitVec 9) : (s.loadCCount c).srcCap = s.srcCap := rfl
@[simp] theorem State.loadCCount_dstCap (c : BitVec 9) : (s.loadCCount c).dstCap = s.dstCap := rfl
@[simp] theorem State.loadCCount_peek (c : BitVec 9) : (s.loadCCount c).peek = s.peek := rfl
@[simp] theorem State.loadCCount_cause (c : BitVec 9) : (s.loadCCount c).cause = s.cause := rfl
@[simp] theorem State.loadCCount_dstLost (c : BitVec 9) : (s.loadCCount c).dstLost = s.dstLost := rfl
@[simp] theorem State.loadCCount_free (c : BitVec 9) : (s.loadCCount c).free = s.free := rfl
@[simp] theorem State.loadCCount_host (c : BitVec 9) : (s.loadCCount c).host = s.host := rfl
@[simp] theorem State.loadCCount_rdata (c : BitVec 9) : (s.loadCCount c).rdata = s.rdata := rfl
@[simp] theorem State.loadCCount_totalBits (c : BitVec 9) : (s.loadCCount c).totalBits = s.totalBits := rfl

/-! ### `skipC` -/

@[simp] theorem State.skipC_variant (r : Nat) : (s.skipC r).variant = s.variant := rfl
@[simp] theorem State.skipC_busy (r : Nat) : (s.skipC r).busy = s.busy := rfl
@[simp] theorem State.skipC_done (r : Nat) : (s.skipC r).done = s.done := rfl
@[simp] theorem State.skipC_err (r : Nat) : (s.skipC r).err = s.err := rfl
@[simp] theorem State.skipC_srcLen (r : Nat) : (s.skipC r).srcLen = s.srcLen := rfl
@[simp] theorem State.skipC_dstLen (r : Nat) : (s.skipC r).dstLen = s.dstLen := rfl
@[simp] theorem State.skipC_phase (r : Nat) : (s.skipC r).phase = s.cLoopPhase (min (s.idx.toNat + r) Config.cCap) := rfl
@[simp] theorem State.skipC_var (r : Nat) : (s.skipC r).var = s.var := rfl
@[simp] theorem State.skipC_bitPos (r : Nat) : (s.skipC r).bitPos = s.bitPos := rfl
@[simp] theorem State.skipC_outLen (r : Nat) : (s.skipC r).outLen = s.outLen := rfl
@[simp] theorem State.skipC_remain (r : Nat) : (s.skipC r).remain = s.remain := rfl
@[simp] theorem State.skipC_alph (r : Nat) : (s.skipC r).alph = s.alph := rfl
@[simp] theorem State.skipC_cnt (r : Nat) : (s.skipC r).cnt = s.cnt := rfl
@[simp] theorem State.skipC_idx (r : Nat) : (s.skipC r).idx = BitVec.ofNat 10 (min (s.idx.toNat + r) Config.cCap) := rfl
@[simp] theorem State.skipC_cpyLen (r : Nat) : (s.skipC r).cpyLen = s.cpyLen := rfl
@[simp] theorem State.skipC_cpySrc (r : Nat) : (s.skipC r).cpySrc = s.cpySrc := rfl
@[simp] theorem State.skipC_ptDegen (r : Nat) : (s.skipC r).ptDegen = s.ptDegen := rfl
@[simp] theorem State.skipC_ptConst (r : Nat) : (s.skipC r).ptConst = s.ptConst := rfl
@[simp] theorem State.skipC_cDegen (r : Nat) : (s.skipC r).cDegen = s.cDegen := rfl
@[simp] theorem State.skipC_cConst (r : Nat) : (s.skipC r).cConst = s.cConst := rfl
@[simp] theorem State.skipC_ptLen (r : Nat) : (s.skipC r).ptLen = s.ptLen := rfl
@[simp] theorem State.skipC_cLen (r : Nat) : (s.skipC r).cLen = s.cLen := rfl
@[simp] theorem State.skipC_ptFix (r : Nat) : (s.skipC r).ptFix = s.ptFix := rfl
@[simp] theorem State.skipC_cFix (r : Nat) : (s.skipC r).cFix = s.cFix := rfl
@[simp] theorem State.skipC_left (r : Nat) : (s.skipC r).left = s.left := rfl
@[simp] theorem State.skipC_right (r : Nat) : (s.skipC r).right = s.right := rfl
@[simp] theorem State.skipC_src (r : Nat) : (s.skipC r).src = s.src := rfl
@[simp] theorem State.skipC_dst (r : Nat) : (s.skipC r).dst = s.dst := rfl
@[simp] theorem State.skipC_srcCap (r : Nat) : (s.skipC r).srcCap = s.srcCap := rfl
@[simp] theorem State.skipC_dstCap (r : Nat) : (s.skipC r).dstCap = s.dstCap := rfl
@[simp] theorem State.skipC_peek (r : Nat) : (s.skipC r).peek = s.peek := rfl
@[simp] theorem State.skipC_cause (r : Nat) : (s.skipC r).cause = s.cause := rfl
@[simp] theorem State.skipC_dstLost (r : Nat) : (s.skipC r).dstLost = s.dstLost := rfl
@[simp] theorem State.skipC_free (r : Nat) : (s.skipC r).free = s.free := rfl
@[simp] theorem State.skipC_host (r : Nat) : (s.skipC r).host = s.host := rfl
@[simp] theorem State.skipC_rdata (r : Nat) : (s.skipC r).rdata = s.rdata := rfl
@[simp] theorem State.skipC_totalBits (r : Nat) : (s.skipC r).totalBits = s.totalBits := rfl

/-! ### `placeCLen` -/

@[simp] theorem State.placeCLen_variant (l : Nat) : (s.placeCLen l).variant = s.variant := rfl
@[simp] theorem State.placeCLen_busy (l : Nat) : (s.placeCLen l).busy = s.busy := rfl
@[simp] theorem State.placeCLen_done (l : Nat) : (s.placeCLen l).done = s.done := rfl
@[simp] theorem State.placeCLen_err (l : Nat) : (s.placeCLen l).err = s.err := rfl
@[simp] theorem State.placeCLen_srcLen (l : Nat) : (s.placeCLen l).srcLen = s.srcLen := rfl
@[simp] theorem State.placeCLen_dstLen (l : Nat) : (s.placeCLen l).dstLen = s.dstLen := rfl
@[simp] theorem State.placeCLen_phase (l : Nat) : (s.placeCLen l).phase = s.cLoopPhase (s.idx.toNat + 1) := rfl
@[simp] theorem State.placeCLen_var (l : Nat) : (s.placeCLen l).var = s.var := rfl
@[simp] theorem State.placeCLen_bitPos (l : Nat) : (s.placeCLen l).bitPos = s.bitPos := rfl
@[simp] theorem State.placeCLen_outLen (l : Nat) : (s.placeCLen l).outLen = s.outLen := rfl
@[simp] theorem State.placeCLen_remain (l : Nat) : (s.placeCLen l).remain = s.remain := rfl
@[simp] theorem State.placeCLen_alph (l : Nat) : (s.placeCLen l).alph = s.alph := rfl
@[simp] theorem State.placeCLen_cnt (l : Nat) : (s.placeCLen l).cnt = s.cnt := rfl
@[simp] theorem State.placeCLen_idx (l : Nat) : (s.placeCLen l).idx = BitVec.ofNat 10 (s.idx.toNat + 1) := rfl
@[simp] theorem State.placeCLen_cpyLen (l : Nat) : (s.placeCLen l).cpyLen = s.cpyLen := rfl
@[simp] theorem State.placeCLen_cpySrc (l : Nat) : (s.placeCLen l).cpySrc = s.cpySrc := rfl
@[simp] theorem State.placeCLen_ptDegen (l : Nat) : (s.placeCLen l).ptDegen = s.ptDegen := rfl
@[simp] theorem State.placeCLen_ptConst (l : Nat) : (s.placeCLen l).ptConst = s.ptConst := rfl
@[simp] theorem State.placeCLen_cDegen (l : Nat) : (s.placeCLen l).cDegen = s.cDegen := rfl
@[simp] theorem State.placeCLen_cConst (l : Nat) : (s.placeCLen l).cConst = s.cConst := rfl
@[simp] theorem State.placeCLen_ptLen (l : Nat) : (s.placeCLen l).ptLen = s.ptLen := rfl
@[simp] theorem State.placeCLen_cLen (l : Nat) : (s.placeCLen l).cLen = setEntry s.cLen s.idx.toNat (BitVec.ofNat 5 (min l 17)) := rfl
@[simp] theorem State.placeCLen_ptFix (l : Nat) : (s.placeCLen l).ptFix = s.ptFix := rfl
@[simp] theorem State.placeCLen_cFix (l : Nat) : (s.placeCLen l).cFix = s.cFix := rfl
@[simp] theorem State.placeCLen_left (l : Nat) : (s.placeCLen l).left = s.left := rfl
@[simp] theorem State.placeCLen_right (l : Nat) : (s.placeCLen l).right = s.right := rfl
@[simp] theorem State.placeCLen_src (l : Nat) : (s.placeCLen l).src = s.src := rfl
@[simp] theorem State.placeCLen_dst (l : Nat) : (s.placeCLen l).dst = s.dst := rfl
@[simp] theorem State.placeCLen_srcCap (l : Nat) : (s.placeCLen l).srcCap = s.srcCap := rfl
@[simp] theorem State.placeCLen_dstCap (l : Nat) : (s.placeCLen l).dstCap = s.dstCap := rfl
@[simp] theorem State.placeCLen_peek (l : Nat) : (s.placeCLen l).peek = s.peek := rfl
@[simp] theorem State.placeCLen_cause (l : Nat) : (s.placeCLen l).cause = s.cause := rfl
@[simp] theorem State.placeCLen_dstLost (l : Nat) : (s.placeCLen l).dstLost = s.dstLost := rfl
@[simp] theorem State.placeCLen_free (l : Nat) : (s.placeCLen l).free = s.free := rfl
@[simp] theorem State.placeCLen_host (l : Nat) : (s.placeCLen l).host = s.host := rfl
@[simp] theorem State.placeCLen_rdata (l : Nat) : (s.placeCLen l).rdata = s.rdata := rfl
@[simp] theorem State.placeCLen_totalBits (l : Nat) : (s.placeCLen l).totalBits = s.totalBits := rfl

/-! ### `setCConst` -/

@[simp] theorem State.setCConst_variant (v : BitVec 9) : (s.setCConst v).variant = s.variant := rfl
@[simp] theorem State.setCConst_busy (v : BitVec 9) : (s.setCConst v).busy = s.busy := rfl
@[simp] theorem State.setCConst_done (v : BitVec 9) : (s.setCConst v).done = s.done := rfl
@[simp] theorem State.setCConst_err (v : BitVec 9) : (s.setCConst v).err = s.err := rfl
@[simp] theorem State.setCConst_srcLen (v : BitVec 9) : (s.setCConst v).srcLen = s.srcLen := rfl
@[simp] theorem State.setCConst_dstLen (v : BitVec 9) : (s.setCConst v).dstLen = s.dstLen := rfl
@[simp] theorem State.setCConst_phase (v : BitVec 9) : (s.setCConst v).phase = .ptCount := rfl
@[simp] theorem State.setCConst_var (v : BitVec 9) : (s.setCConst v).var = s.var := rfl
@[simp] theorem State.setCConst_bitPos (v : BitVec 9) : (s.setCConst v).bitPos = s.bitPos := rfl
@[simp] theorem State.setCConst_outLen (v : BitVec 9) : (s.setCConst v).outLen = s.outLen := rfl
@[simp] theorem State.setCConst_remain (v : BitVec 9) : (s.setCConst v).remain = s.remain := rfl
@[simp] theorem State.setCConst_alph (v : BitVec 9) : (s.setCConst v).alph = .p := rfl
@[simp] theorem State.setCConst_cnt (v : BitVec 9) : (s.setCConst v).cnt = s.cnt := rfl
@[simp] theorem State.setCConst_idx (v : BitVec 9) : (s.setCConst v).idx = s.idx := rfl
@[simp] theorem State.setCConst_cpyLen (v : BitVec 9) : (s.setCConst v).cpyLen = s.cpyLen := rfl
@[simp] theorem State.setCConst_cpySrc (v : BitVec 9) : (s.setCConst v).cpySrc = s.cpySrc := rfl
@[simp] theorem State.setCConst_ptDegen (v : BitVec 9) : (s.setCConst v).ptDegen = s.ptDegen := rfl
@[simp] theorem State.setCConst_ptConst (v : BitVec 9) : (s.setCConst v).ptConst = s.ptConst := rfl
@[simp] theorem State.setCConst_cDegen (v : BitVec 9) : (s.setCConst v).cDegen = true := rfl
@[simp] theorem State.setCConst_cConst (v : BitVec 9) : (s.setCConst v).cConst = v := rfl
@[simp] theorem State.setCConst_ptLen (v : BitVec 9) : (s.setCConst v).ptLen = s.ptLen := rfl
@[simp] theorem State.setCConst_cLen (v : BitVec 9) : (s.setCConst v).cLen = s.cLen := rfl
@[simp] theorem State.setCConst_ptFix (v : BitVec 9) : (s.setCConst v).ptFix = s.ptFix := rfl
@[simp] theorem State.setCConst_cFix (v : BitVec 9) : (s.setCConst v).cFix = s.cFix := rfl
@[simp] theorem State.setCConst_left (v : BitVec 9) : (s.setCConst v).left = s.left := rfl
@[simp] theorem State.setCConst_right (v : BitVec 9) : (s.setCConst v).right = s.right := rfl
@[simp] theorem State.setCConst_src (v : BitVec 9) : (s.setCConst v).src = s.src := rfl
@[simp] theorem State.setCConst_dst (v : BitVec 9) : (s.setCConst v).dst = s.dst := rfl
@[simp] theorem State.setCConst_srcCap (v : BitVec 9) : (s.setCConst v).srcCap = s.srcCap := rfl
@[simp] theorem State.setCConst_dstCap (v : BitVec 9) : (s.setCConst v).dstCap = s.dstCap := rfl
@[simp] theorem State.setCConst_peek (v : BitVec 9) : (s.setCConst v).peek = s.peek := rfl
@[simp] theorem State.setCConst_cause (v : BitVec 9) : (s.setCConst v).cause = s.cause := rfl
@[simp] theorem State.setCConst_dstLost (v : BitVec 9) : (s.setCConst v).dstLost = s.dstLost := rfl
@[simp] theorem State.setCConst_free (v : BitVec 9) : (s.setCConst v).free = s.free := rfl
@[simp] theorem State.setCConst_host (v : BitVec 9) : (s.setCConst v).host = s.host := rfl
@[simp] theorem State.setCConst_rdata (v : BitVec 9) : (s.setCConst v).rdata = s.rdata := rfl
@[simp] theorem State.setCConst_totalBits (v : BitVec 9) : (s.setCConst v).totalBits = s.totalBits := rfl

/-! ### `loadBlock` -/

@[simp] theorem State.loadBlock_variant (n : BitVec 16) : (s.loadBlock n).variant = s.variant := rfl
@[simp] theorem State.loadBlock_busy (n : BitVec 16) : (s.loadBlock n).busy = s.busy := rfl
@[simp] theorem State.loadBlock_done (n : BitVec 16) : (s.loadBlock n).done = s.done := rfl
@[simp] theorem State.loadBlock_err (n : BitVec 16) : (s.loadBlock n).err = s.err := rfl
@[simp] theorem State.loadBlock_srcLen (n : BitVec 16) : (s.loadBlock n).srcLen = s.srcLen := rfl
@[simp] theorem State.loadBlock_dstLen (n : BitVec 16) : (s.loadBlock n).dstLen = s.dstLen := rfl
@[simp] theorem State.loadBlock_phase (n : BitVec 16) : (s.loadBlock n).phase = .ptCount := rfl
@[simp] theorem State.loadBlock_var (n : BitVec 16) : (s.loadBlock n).var = s.var := rfl
@[simp] theorem State.loadBlock_bitPos (n : BitVec 16) : (s.loadBlock n).bitPos = s.bitPos := rfl
@[simp] theorem State.loadBlock_outLen (n : BitVec 16) : (s.loadBlock n).outLen = s.outLen := rfl
@[simp] theorem State.loadBlock_remain (n : BitVec 16) : (s.loadBlock n).remain = n := rfl
@[simp] theorem State.loadBlock_alph (n : BitVec 16) : (s.loadBlock n).alph = .t := rfl
@[simp] theorem State.loadBlock_cnt (n : BitVec 16) : (s.loadBlock n).cnt = s.cnt := rfl
@[simp] theorem State.loadBlock_idx (n : BitVec 16) : (s.loadBlock n).idx = s.idx := rfl
@[simp] theorem State.loadBlock_cpyLen (n : BitVec 16) : (s.loadBlock n).cpyLen = s.cpyLen := rfl
@[simp] theorem State.loadBlock_cpySrc (n : BitVec 16) : (s.loadBlock n).cpySrc = s.cpySrc := rfl
@[simp] theorem State.loadBlock_ptDegen (n : BitVec 16) : (s.loadBlock n).ptDegen = s.ptDegen := rfl
@[simp] theorem State.loadBlock_ptConst (n : BitVec 16) : (s.loadBlock n).ptConst = s.ptConst := rfl
@[simp] theorem State.loadBlock_cDegen (n : BitVec 16) : (s.loadBlock n).cDegen = s.cDegen := rfl
@[simp] theorem State.loadBlock_cConst (n : BitVec 16) : (s.loadBlock n).cConst = s.cConst := rfl
@[simp] theorem State.loadBlock_ptLen (n : BitVec 16) : (s.loadBlock n).ptLen = s.ptLen := rfl
@[simp] theorem State.loadBlock_cLen (n : BitVec 16) : (s.loadBlock n).cLen = s.cLen := rfl
@[simp] theorem State.loadBlock_ptFix (n : BitVec 16) : (s.loadBlock n).ptFix = s.ptFix := rfl
@[simp] theorem State.loadBlock_cFix (n : BitVec 16) : (s.loadBlock n).cFix = s.cFix := rfl
@[simp] theorem State.loadBlock_left (n : BitVec 16) : (s.loadBlock n).left = s.left := rfl
@[simp] theorem State.loadBlock_right (n : BitVec 16) : (s.loadBlock n).right = s.right := rfl
@[simp] theorem State.loadBlock_src (n : BitVec 16) : (s.loadBlock n).src = s.src := rfl
@[simp] theorem State.loadBlock_dst (n : BitVec 16) : (s.loadBlock n).dst = s.dst := rfl
@[simp] theorem State.loadBlock_srcCap (n : BitVec 16) : (s.loadBlock n).srcCap = s.srcCap := rfl
@[simp] theorem State.loadBlock_dstCap (n : BitVec 16) : (s.loadBlock n).dstCap = s.dstCap := rfl
@[simp] theorem State.loadBlock_peek (n : BitVec 16) : (s.loadBlock n).peek = s.peek := rfl
@[simp] theorem State.loadBlock_cause (n : BitVec 16) : (s.loadBlock n).cause = s.cause := rfl
@[simp] theorem State.loadBlock_dstLost (n : BitVec 16) : (s.loadBlock n).dstLost = s.dstLost := rfl
@[simp] theorem State.loadBlock_free (n : BitVec 16) : (s.loadBlock n).free = s.free := rfl
@[simp] theorem State.loadBlock_host (n : BitVec 16) : (s.loadBlock n).host = s.host := rfl
@[simp] theorem State.loadBlock_rdata (n : BitVec 16) : (s.loadBlock n).rdata = s.rdata := rfl
@[simp] theorem State.loadBlock_totalBits (n : BitVec 16) : (s.loadBlock n).totalBits = s.totalBits := rfl

/-! ### `countSymbol` -/

@[simp] theorem State.countSymbol_variant : (s.countSymbol).variant = s.variant := rfl
@[simp] theorem State.countSymbol_busy : (s.countSymbol).busy = s.busy := rfl
@[simp] theorem State.countSymbol_done : (s.countSymbol).done = s.done := rfl
@[simp] theorem State.countSymbol_err : (s.countSymbol).err = s.err := rfl
@[simp] theorem State.countSymbol_srcLen : (s.countSymbol).srcLen = s.srcLen := rfl
@[simp] theorem State.countSymbol_dstLen : (s.countSymbol).dstLen = s.dstLen := rfl
@[simp] theorem State.countSymbol_phase : (s.countSymbol).phase = s.phase := rfl
@[simp] theorem State.countSymbol_var : (s.countSymbol).var = s.var := rfl
@[simp] theorem State.countSymbol_bitPos : (s.countSymbol).bitPos = s.bitPos := rfl
@[simp] theorem State.countSymbol_outLen : (s.countSymbol).outLen = s.outLen := rfl
@[simp] theorem State.countSymbol_remain : (s.countSymbol).remain = s.remain - 1 := rfl
@[simp] theorem State.countSymbol_alph : (s.countSymbol).alph = s.alph := rfl
@[simp] theorem State.countSymbol_cnt : (s.countSymbol).cnt = s.cnt := rfl
@[simp] theorem State.countSymbol_idx : (s.countSymbol).idx = s.idx := rfl
@[simp] theorem State.countSymbol_cpyLen : (s.countSymbol).cpyLen = s.cpyLen := rfl
@[simp] theorem State.countSymbol_cpySrc : (s.countSymbol).cpySrc = s.cpySrc := rfl
@[simp] theorem State.countSymbol_ptDegen : (s.countSymbol).ptDegen = s.ptDegen := rfl
@[simp] theorem State.countSymbol_ptConst : (s.countSymbol).ptConst = s.ptConst := rfl
@[simp] theorem State.countSymbol_cDegen : (s.countSymbol).cDegen = s.cDegen := rfl
@[simp] theorem State.countSymbol_cConst : (s.countSymbol).cConst = s.cConst := rfl
@[simp] theorem State.countSymbol_ptLen : (s.countSymbol).ptLen = s.ptLen := rfl
@[simp] theorem State.countSymbol_cLen : (s.countSymbol).cLen = s.cLen := rfl
@[simp] theorem State.countSymbol_ptFix : (s.countSymbol).ptFix = s.ptFix := rfl
@[simp] theorem State.countSymbol_cFix : (s.countSymbol).cFix = s.cFix := rfl
@[simp] theorem State.countSymbol_left : (s.countSymbol).left = s.left := rfl
@[simp] theorem State.countSymbol_right : (s.countSymbol).right = s.right := rfl
@[simp] theorem State.countSymbol_src : (s.countSymbol).src = s.src := rfl
@[simp] theorem State.countSymbol_dst : (s.countSymbol).dst = s.dst := rfl
@[simp] theorem State.countSymbol_srcCap : (s.countSymbol).srcCap = s.srcCap := rfl
@[simp] theorem State.countSymbol_dstCap : (s.countSymbol).dstCap = s.dstCap := rfl
@[simp] theorem State.countSymbol_peek : (s.countSymbol).peek = s.peek := rfl
@[simp] theorem State.countSymbol_cause : (s.countSymbol).cause = s.cause := rfl
@[simp] theorem State.countSymbol_dstLost : (s.countSymbol).dstLost = s.dstLost := rfl
@[simp] theorem State.countSymbol_free : (s.countSymbol).free = s.free := rfl
@[simp] theorem State.countSymbol_host : (s.countSymbol).host = s.host := rfl
@[simp] theorem State.countSymbol_rdata : (s.countSymbol).rdata = s.rdata := rfl
@[simp] theorem State.countSymbol_totalBits : (s.countSymbol).totalBits = s.totalBits := rfl

/-! ### `loadCopy` -/

@[simp] theorem State.loadCopy_variant (len : Nat) : (s.loadCopy len).variant = s.variant := rfl
@[simp] theorem State.loadCopy_busy (len : Nat) : (s.loadCopy len).busy = s.busy := rfl
@[simp] theorem State.loadCopy_done (len : Nat) : (s.loadCopy len).done = s.done := rfl
@[simp] theorem State.loadCopy_err (len : Nat) : (s.loadCopy len).err = s.err := rfl
@[simp] theorem State.loadCopy_srcLen (len : Nat) : (s.loadCopy len).srcLen = s.srcLen := rfl
@[simp] theorem State.loadCopy_dstLen (len : Nat) : (s.loadCopy len).dstLen = s.dstLen := rfl
@[simp] theorem State.loadCopy_phase (len : Nat) : (s.loadCopy len).phase = .dist := rfl
@[simp] theorem State.loadCopy_var (len : Nat) : (s.loadCopy len).var = s.var := rfl
@[simp] theorem State.loadCopy_bitPos (len : Nat) : (s.loadCopy len).bitPos = s.bitPos := rfl
@[simp] theorem State.loadCopy_outLen (len : Nat) : (s.loadCopy len).outLen = s.outLen := rfl
@[simp] theorem State.loadCopy_remain (len : Nat) : (s.loadCopy len).remain = s.remain := rfl
@[simp] theorem State.loadCopy_alph (len : Nat) : (s.loadCopy len).alph = s.alph := rfl
@[simp] theorem State.loadCopy_cnt (len : Nat) : (s.loadCopy len).cnt = s.cnt := rfl
@[simp] theorem State.loadCopy_idx (len : Nat) : (s.loadCopy len).idx = s.idx := rfl
@[simp] theorem State.loadCopy_cpyLen (len : Nat) : (s.loadCopy len).cpyLen = BitVec.ofNat 9 len := rfl
@[simp] theorem State.loadCopy_cpySrc (len : Nat) : (s.loadCopy len).cpySrc = s.cpySrc := rfl
@[simp] theorem State.loadCopy_ptDegen (len : Nat) : (s.loadCopy len).ptDegen = s.ptDegen := rfl
@[simp] theorem State.loadCopy_ptConst (len : Nat) : (s.loadCopy len).ptConst = s.ptConst := rfl
@[simp] theorem State.loadCopy_cDegen (len : Nat) : (s.loadCopy len).cDegen = s.cDegen := rfl
@[simp] theorem State.loadCopy_cConst (len : Nat) : (s.loadCopy len).cConst = s.cConst := rfl
@[simp] theorem State.loadCopy_ptLen (len : Nat) : (s.loadCopy len).ptLen = s.ptLen := rfl
@[simp] theorem State.loadCopy_cLen (len : Nat) : (s.loadCopy len).cLen = s.cLen := rfl
@[simp] theorem State.loadCopy_ptFix (len : Nat) : (s.loadCopy len).ptFix = s.ptFix := rfl
@[simp] theorem State.loadCopy_cFix (len : Nat) : (s.loadCopy len).cFix = s.cFix := rfl
@[simp] theorem State.loadCopy_left (len : Nat) : (s.loadCopy len).left = s.left := rfl
@[simp] theorem State.loadCopy_right (len : Nat) : (s.loadCopy len).right = s.right := rfl
@[simp] theorem State.loadCopy_src (len : Nat) : (s.loadCopy len).src = s.src := rfl
@[simp] theorem State.loadCopy_dst (len : Nat) : (s.loadCopy len).dst = s.dst := rfl
@[simp] theorem State.loadCopy_srcCap (len : Nat) : (s.loadCopy len).srcCap = s.srcCap := rfl
@[simp] theorem State.loadCopy_dstCap (len : Nat) : (s.loadCopy len).dstCap = s.dstCap := rfl
@[simp] theorem State.loadCopy_peek (len : Nat) : (s.loadCopy len).peek = s.peek := rfl
@[simp] theorem State.loadCopy_cause (len : Nat) : (s.loadCopy len).cause = s.cause := rfl
@[simp] theorem State.loadCopy_dstLost (len : Nat) : (s.loadCopy len).dstLost = s.dstLost := rfl
@[simp] theorem State.loadCopy_free (len : Nat) : (s.loadCopy len).free = s.free := rfl
@[simp] theorem State.loadCopy_host (len : Nat) : (s.loadCopy len).host = s.host := rfl
@[simp] theorem State.loadCopy_rdata (len : Nat) : (s.loadCopy len).rdata = s.rdata := rfl
@[simp] theorem State.loadCopy_totalBits (len : Nat) : (s.loadCopy len).totalBits = s.totalBits := rfl

/-! ### `countCopy` -/

@[simp] theorem State.countCopy_variant : (s.countCopy).variant = s.variant := rfl
@[simp] theorem State.countCopy_busy : (s.countCopy).busy = s.busy := rfl
@[simp] theorem State.countCopy_done : (s.countCopy).done = s.done := rfl
@[simp] theorem State.countCopy_err : (s.countCopy).err = s.err := rfl
@[simp] theorem State.countCopy_srcLen : (s.countCopy).srcLen = s.srcLen := rfl
@[simp] theorem State.countCopy_dstLen : (s.countCopy).dstLen = s.dstLen := rfl
@[simp] theorem State.countCopy_phase : (s.countCopy).phase = if s.cpyLen - 1 = 0 then .symbol else .copy := rfl
@[simp] theorem State.countCopy_var : (s.countCopy).var = s.var := rfl
@[simp] theorem State.countCopy_bitPos : (s.countCopy).bitPos = s.bitPos := rfl
@[simp] theorem State.countCopy_outLen : (s.countCopy).outLen = s.outLen := rfl
@[simp] theorem State.countCopy_remain : (s.countCopy).remain = s.remain := rfl
@[simp] theorem State.countCopy_alph : (s.countCopy).alph = s.alph := rfl
@[simp] theorem State.countCopy_cnt : (s.countCopy).cnt = s.cnt := rfl
@[simp] theorem State.countCopy_idx : (s.countCopy).idx = s.idx := rfl
@[simp] theorem State.countCopy_cpyLen : (s.countCopy).cpyLen = s.cpyLen - 1 := rfl
@[simp] theorem State.countCopy_cpySrc : (s.countCopy).cpySrc = s.cpySrc + 1 := rfl
@[simp] theorem State.countCopy_ptDegen : (s.countCopy).ptDegen = s.ptDegen := rfl
@[simp] theorem State.countCopy_ptConst : (s.countCopy).ptConst = s.ptConst := rfl
@[simp] theorem State.countCopy_cDegen : (s.countCopy).cDegen = s.cDegen := rfl
@[simp] theorem State.countCopy_cConst : (s.countCopy).cConst = s.cConst := rfl
@[simp] theorem State.countCopy_ptLen : (s.countCopy).ptLen = s.ptLen := rfl
@[simp] theorem State.countCopy_cLen : (s.countCopy).cLen = s.cLen := rfl
@[simp] theorem State.countCopy_ptFix : (s.countCopy).ptFix = s.ptFix := rfl
@[simp] theorem State.countCopy_cFix : (s.countCopy).cFix = s.cFix := rfl
@[simp] theorem State.countCopy_left : (s.countCopy).left = s.left := rfl
@[simp] theorem State.countCopy_right : (s.countCopy).right = s.right := rfl
@[simp] theorem State.countCopy_src : (s.countCopy).src = s.src := rfl
@[simp] theorem State.countCopy_dst : (s.countCopy).dst = s.dst := rfl
@[simp] theorem State.countCopy_srcCap : (s.countCopy).srcCap = s.srcCap := rfl
@[simp] theorem State.countCopy_dstCap : (s.countCopy).dstCap = s.dstCap := rfl
@[simp] theorem State.countCopy_peek : (s.countCopy).peek = s.peek := rfl
@[simp] theorem State.countCopy_cause : (s.countCopy).cause = s.cause := rfl
@[simp] theorem State.countCopy_dstLost : (s.countCopy).dstLost = s.dstLost := rfl
@[simp] theorem State.countCopy_free : (s.countCopy).free = s.free := rfl
@[simp] theorem State.countCopy_host : (s.countCopy).host = s.host := rfl
@[simp] theorem State.countCopy_rdata : (s.countCopy).rdata = s.rdata := rfl
@[simp] theorem State.countCopy_totalBits : (s.countCopy).totalBits = s.totalBits := rfl

/-! ### `aimCopy` -/

@[simp] theorem State.aimCopy_variant (d : Nat) : (s.aimCopy d).variant = s.variant := rfl
@[simp] theorem State.aimCopy_busy (d : Nat) : (s.aimCopy d).busy = s.busy := rfl
@[simp] theorem State.aimCopy_done (d : Nat) : (s.aimCopy d).done = s.done := rfl
@[simp] theorem State.aimCopy_err (d : Nat) : (s.aimCopy d).err = s.err := rfl
@[simp] theorem State.aimCopy_srcLen (d : Nat) : (s.aimCopy d).srcLen = s.srcLen := rfl
@[simp] theorem State.aimCopy_dstLen (d : Nat) : (s.aimCopy d).dstLen = s.dstLen := rfl
@[simp] theorem State.aimCopy_phase (d : Nat) : (s.aimCopy d).phase = .copy := rfl
@[simp] theorem State.aimCopy_var (d : Nat) : (s.aimCopy d).var = s.var := rfl
@[simp] theorem State.aimCopy_bitPos (d : Nat) : (s.aimCopy d).bitPos = s.bitPos := rfl
@[simp] theorem State.aimCopy_outLen (d : Nat) : (s.aimCopy d).outLen = s.outLen := rfl
@[simp] theorem State.aimCopy_remain (d : Nat) : (s.aimCopy d).remain = s.remain := rfl
@[simp] theorem State.aimCopy_alph (d : Nat) : (s.aimCopy d).alph = s.alph := rfl
@[simp] theorem State.aimCopy_cnt (d : Nat) : (s.aimCopy d).cnt = s.cnt := rfl
@[simp] theorem State.aimCopy_idx (d : Nat) : (s.aimCopy d).idx = s.idx := rfl
@[simp] theorem State.aimCopy_cpyLen (d : Nat) : (s.aimCopy d).cpyLen = s.cpyLen := rfl
@[simp] theorem State.aimCopy_cpySrc (d : Nat) : (s.aimCopy d).cpySrc = BitVec.ofNat 32 (s.outLen.toNat - d - 1) := rfl
@[simp] theorem State.aimCopy_ptDegen (d : Nat) : (s.aimCopy d).ptDegen = s.ptDegen := rfl
@[simp] theorem State.aimCopy_ptConst (d : Nat) : (s.aimCopy d).ptConst = s.ptConst := rfl
@[simp] theorem State.aimCopy_cDegen (d : Nat) : (s.aimCopy d).cDegen = s.cDegen := rfl
@[simp] theorem State.aimCopy_cConst (d : Nat) : (s.aimCopy d).cConst = s.cConst := rfl
@[simp] theorem State.aimCopy_ptLen (d : Nat) : (s.aimCopy d).ptLen = s.ptLen := rfl
@[simp] theorem State.aimCopy_cLen (d : Nat) : (s.aimCopy d).cLen = s.cLen := rfl
@[simp] theorem State.aimCopy_ptFix (d : Nat) : (s.aimCopy d).ptFix = s.ptFix := rfl
@[simp] theorem State.aimCopy_cFix (d : Nat) : (s.aimCopy d).cFix = s.cFix := rfl
@[simp] theorem State.aimCopy_left (d : Nat) : (s.aimCopy d).left = s.left := rfl
@[simp] theorem State.aimCopy_right (d : Nat) : (s.aimCopy d).right = s.right := rfl
@[simp] theorem State.aimCopy_src (d : Nat) : (s.aimCopy d).src = s.src := rfl
@[simp] theorem State.aimCopy_dst (d : Nat) : (s.aimCopy d).dst = s.dst := rfl
@[simp] theorem State.aimCopy_srcCap (d : Nat) : (s.aimCopy d).srcCap = s.srcCap := rfl
@[simp] theorem State.aimCopy_dstCap (d : Nat) : (s.aimCopy d).dstCap = s.dstCap := rfl
@[simp] theorem State.aimCopy_peek (d : Nat) : (s.aimCopy d).peek = s.peek := rfl
@[simp] theorem State.aimCopy_cause (d : Nat) : (s.aimCopy d).cause = s.cause := rfl
@[simp] theorem State.aimCopy_dstLost (d : Nat) : (s.aimCopy d).dstLost = s.dstLost := rfl
@[simp] theorem State.aimCopy_free (d : Nat) : (s.aimCopy d).free = s.free := rfl
@[simp] theorem State.aimCopy_host (d : Nat) : (s.aimCopy d).host = s.host := rfl
@[simp] theorem State.aimCopy_rdata (d : Nat) : (s.aimCopy d).rdata = s.rdata := rfl
@[simp] theorem State.aimCopy_totalBits (d : Nat) : (s.aimCopy d).totalBits = s.totalBits := rfl

/-! ### `setPtTable` -/

@[simp] theorem State.setPtTable_variant (b : BuildState 256) : (s.setPtTable b).variant = s.variant := rfl
@[simp] theorem State.setPtTable_busy (b : BuildState 256) : (s.setPtTable b).busy = s.busy := rfl
@[simp] theorem State.setPtTable_done (b : BuildState 256) : (s.setPtTable b).done = s.done := rfl
@[simp] theorem State.setPtTable_err (b : BuildState 256) : (s.setPtTable b).err = s.err := rfl
@[simp] theorem State.setPtTable_srcLen (b : BuildState 256) : (s.setPtTable b).srcLen = s.srcLen := rfl
@[simp] theorem State.setPtTable_dstLen (b : BuildState 256) : (s.setPtTable b).dstLen = s.dstLen := rfl
@[simp] theorem State.setPtTable_phase (b : BuildState 256) : (s.setPtTable b).phase = s.phase := rfl
@[simp] theorem State.setPtTable_var (b : BuildState 256) : (s.setPtTable b).var = s.var := rfl
@[simp] theorem State.setPtTable_bitPos (b : BuildState 256) : (s.setPtTable b).bitPos = s.bitPos := rfl
@[simp] theorem State.setPtTable_outLen (b : BuildState 256) : (s.setPtTable b).outLen = s.outLen := rfl
@[simp] theorem State.setPtTable_remain (b : BuildState 256) : (s.setPtTable b).remain = s.remain := rfl
@[simp] theorem State.setPtTable_alph (b : BuildState 256) : (s.setPtTable b).alph = s.alph := rfl
@[simp] theorem State.setPtTable_cnt (b : BuildState 256) : (s.setPtTable b).cnt = s.cnt := rfl
@[simp] theorem State.setPtTable_idx (b : BuildState 256) : (s.setPtTable b).idx = s.idx := rfl
@[simp] theorem State.setPtTable_cpyLen (b : BuildState 256) : (s.setPtTable b).cpyLen = s.cpyLen := rfl
@[simp] theorem State.setPtTable_cpySrc (b : BuildState 256) : (s.setPtTable b).cpySrc = s.cpySrc := rfl
@[simp] theorem State.setPtTable_ptDegen (b : BuildState 256) : (s.setPtTable b).ptDegen = false := rfl
@[simp] theorem State.setPtTable_ptConst (b : BuildState 256) : (s.setPtTable b).ptConst = s.ptConst := rfl
@[simp] theorem State.setPtTable_cDegen (b : BuildState 256) : (s.setPtTable b).cDegen = s.cDegen := rfl
@[simp] theorem State.setPtTable_cConst (b : BuildState 256) : (s.setPtTable b).cConst = s.cConst := rfl
@[simp] theorem State.setPtTable_ptLen (b : BuildState 256) : (s.setPtTable b).ptLen = s.ptLen := rfl
@[simp] theorem State.setPtTable_cLen (b : BuildState 256) : (s.setPtTable b).cLen = s.cLen := rfl
@[simp] theorem State.setPtTable_ptFix (b : BuildState 256) : (s.setPtTable b).ptFix = b.fix := rfl
@[simp] theorem State.setPtTable_cFix (b : BuildState 256) : (s.setPtTable b).cFix = s.cFix := rfl
@[simp] theorem State.setPtTable_left (b : BuildState 256) : (s.setPtTable b).left = b.left := rfl
@[simp] theorem State.setPtTable_right (b : BuildState 256) : (s.setPtTable b).right = b.right := rfl
@[simp] theorem State.setPtTable_src (b : BuildState 256) : (s.setPtTable b).src = s.src := rfl
@[simp] theorem State.setPtTable_dst (b : BuildState 256) : (s.setPtTable b).dst = s.dst := rfl
@[simp] theorem State.setPtTable_srcCap (b : BuildState 256) : (s.setPtTable b).srcCap = s.srcCap := rfl
@[simp] theorem State.setPtTable_dstCap (b : BuildState 256) : (s.setPtTable b).dstCap = s.dstCap := rfl
@[simp] theorem State.setPtTable_peek (b : BuildState 256) : (s.setPtTable b).peek = s.peek := rfl
@[simp] theorem State.setPtTable_cause (b : BuildState 256) : (s.setPtTable b).cause = s.cause := rfl
@[simp] theorem State.setPtTable_dstLost (b : BuildState 256) : (s.setPtTable b).dstLost = s.dstLost := rfl
@[simp] theorem State.setPtTable_free (b : BuildState 256) : (s.setPtTable b).free = s.free := rfl
@[simp] theorem State.setPtTable_host (b : BuildState 256) : (s.setPtTable b).host = s.host := rfl
@[simp] theorem State.setPtTable_rdata (b : BuildState 256) : (s.setPtTable b).rdata = s.rdata := rfl
@[simp] theorem State.setPtTable_totalBits (b : BuildState 256) : (s.setPtTable b).totalBits = s.totalBits := rfl

/-! ### `setCTable` -/

@[simp] theorem State.setCTable_variant (b : BuildState 4096) : (s.setCTable b).variant = s.variant := rfl
@[simp] theorem State.setCTable_busy (b : BuildState 4096) : (s.setCTable b).busy = s.busy := rfl
@[simp] theorem State.setCTable_done (b : BuildState 4096) : (s.setCTable b).done = s.done := rfl
@[simp] theorem State.setCTable_err (b : BuildState 4096) : (s.setCTable b).err = s.err := rfl
@[simp] theorem State.setCTable_srcLen (b : BuildState 4096) : (s.setCTable b).srcLen = s.srcLen := rfl
@[simp] theorem State.setCTable_dstLen (b : BuildState 4096) : (s.setCTable b).dstLen = s.dstLen := rfl
@[simp] theorem State.setCTable_phase (b : BuildState 4096) : (s.setCTable b).phase = s.phase := rfl
@[simp] theorem State.setCTable_var (b : BuildState 4096) : (s.setCTable b).var = s.var := rfl
@[simp] theorem State.setCTable_bitPos (b : BuildState 4096) : (s.setCTable b).bitPos = s.bitPos := rfl
@[simp] theorem State.setCTable_outLen (b : BuildState 4096) : (s.setCTable b).outLen = s.outLen := rfl
@[simp] theorem State.setCTable_remain (b : BuildState 4096) : (s.setCTable b).remain = s.remain := rfl
@[simp] theorem State.setCTable_alph (b : BuildState 4096) : (s.setCTable b).alph = s.alph := rfl
@[simp] theorem State.setCTable_cnt (b : BuildState 4096) : (s.setCTable b).cnt = s.cnt := rfl
@[simp] theorem State.setCTable_idx (b : BuildState 4096) : (s.setCTable b).idx = s.idx := rfl
@[simp] theorem State.setCTable_cpyLen (b : BuildState 4096) : (s.setCTable b).cpyLen = s.cpyLen := rfl
@[simp] theorem State.setCTable_cpySrc (b : BuildState 4096) : (s.setCTable b).cpySrc = s.cpySrc := rfl
@[simp] theorem State.setCTable_ptDegen (b : BuildState 4096) : (s.setCTable b).ptDegen = s.ptDegen := rfl
@[simp] theorem State.setCTable_ptConst (b : BuildState 4096) : (s.setCTable b).ptConst = s.ptConst := rfl
@[simp] theorem State.setCTable_cDegen (b : BuildState 4096) : (s.setCTable b).cDegen = false := rfl
@[simp] theorem State.setCTable_cConst (b : BuildState 4096) : (s.setCTable b).cConst = s.cConst := rfl
@[simp] theorem State.setCTable_ptLen (b : BuildState 4096) : (s.setCTable b).ptLen = s.ptLen := rfl
@[simp] theorem State.setCTable_cLen (b : BuildState 4096) : (s.setCTable b).cLen = s.cLen := rfl
@[simp] theorem State.setCTable_ptFix (b : BuildState 4096) : (s.setCTable b).ptFix = s.ptFix := rfl
@[simp] theorem State.setCTable_cFix (b : BuildState 4096) : (s.setCTable b).cFix = b.fix := rfl
@[simp] theorem State.setCTable_left (b : BuildState 4096) : (s.setCTable b).left = b.left := rfl
@[simp] theorem State.setCTable_right (b : BuildState 4096) : (s.setCTable b).right = b.right := rfl
@[simp] theorem State.setCTable_src (b : BuildState 4096) : (s.setCTable b).src = s.src := rfl
@[simp] theorem State.setCTable_dst (b : BuildState 4096) : (s.setCTable b).dst = s.dst := rfl
@[simp] theorem State.setCTable_srcCap (b : BuildState 4096) : (s.setCTable b).srcCap = s.srcCap := rfl
@[simp] theorem State.setCTable_dstCap (b : BuildState 4096) : (s.setCTable b).dstCap = s.dstCap := rfl
@[simp] theorem State.setCTable_peek (b : BuildState 4096) : (s.setCTable b).peek = s.peek := rfl
@[simp] theorem State.setCTable_cause (b : BuildState 4096) : (s.setCTable b).cause = s.cause := rfl
@[simp] theorem State.setCTable_dstLost (b : BuildState 4096) : (s.setCTable b).dstLost = s.dstLost := rfl
@[simp] theorem State.setCTable_free (b : BuildState 4096) : (s.setCTable b).free = s.free := rfl
@[simp] theorem State.setCTable_host (b : BuildState 4096) : (s.setCTable b).host = s.host := rfl
@[simp] theorem State.setCTable_rdata (b : BuildState 4096) : (s.setCTable b).rdata = s.rdata := rfl
@[simp] theorem State.setCTable_totalBits (b : BuildState 4096) : (s.setCTable b).totalBits = s.totalBits := rfl

/-! ### `hostReset` -/

@[simp] theorem State.hostReset_variant : s.hostReset.variant = .classic := rfl
@[simp] theorem State.hostReset_busy : s.hostReset.busy = false := rfl
@[simp] theorem State.hostReset_done : s.hostReset.done = false := rfl
@[simp] theorem State.hostReset_err : s.hostReset.err = .ok := rfl
@[simp] theorem State.hostReset_srcLen : s.hostReset.srcLen = 0 := rfl
@[simp] theorem State.hostReset_dstLen : s.hostReset.dstLen = 0 := rfl
@[simp] theorem State.hostReset_phase : s.hostReset.phase = .idle := rfl
@[simp] theorem State.hostReset_var : s.hostReset.var = .classic := rfl
@[simp] theorem State.hostReset_bitPos : s.hostReset.bitPos = 0 := rfl
@[simp] theorem State.hostReset_outLen : s.hostReset.outLen = 0 := rfl
@[simp] theorem State.hostReset_remain : s.hostReset.remain = 0 := rfl
@[simp] theorem State.hostReset_alph : s.hostReset.alph = .t := rfl
@[simp] theorem State.hostReset_cnt : s.hostReset.cnt = 0 := rfl
@[simp] theorem State.hostReset_idx : s.hostReset.idx = 0 := rfl
@[simp] theorem State.hostReset_cpyLen : s.hostReset.cpyLen = 0 := rfl
@[simp] theorem State.hostReset_cpySrc : s.hostReset.cpySrc = 0 := rfl
@[simp] theorem State.hostReset_ptDegen : s.hostReset.ptDegen = false := rfl
@[simp] theorem State.hostReset_ptConst : s.hostReset.ptConst = 0 := rfl
@[simp] theorem State.hostReset_cDegen : s.hostReset.cDegen = false := rfl
@[simp] theorem State.hostReset_cConst : s.hostReset.cConst = 0 := rfl
@[simp] theorem State.hostReset_ptLen : s.hostReset.ptLen = Vector.replicate 31 0 := rfl
@[simp] theorem State.hostReset_cLen : s.hostReset.cLen = Vector.replicate 510 0 := rfl
@[simp] theorem State.hostReset_ptFix : s.hostReset.ptFix = Vector.replicate 256 0 := rfl
@[simp] theorem State.hostReset_cFix : s.hostReset.cFix = Vector.replicate 4096 0 := rfl
@[simp] theorem State.hostReset_left : s.hostReset.left = Vector.replicate 1019 0 := rfl
@[simp] theorem State.hostReset_right : s.hostReset.right = Vector.replicate 1019 0 := rfl
@[simp] theorem State.hostReset_src : s.hostReset.src = s.src := rfl
@[simp] theorem State.hostReset_dst : s.hostReset.dst = s.dst := rfl
@[simp] theorem State.hostReset_srcCap : s.hostReset.srcCap = s.srcCap := rfl
@[simp] theorem State.hostReset_dstCap : s.hostReset.dstCap = s.dstCap := rfl
@[simp] theorem State.hostReset_peek : s.hostReset.peek = s.peek := rfl
@[simp] theorem State.hostReset_cause : s.hostReset.cause = none := rfl
@[simp] theorem State.hostReset_dstLost : s.hostReset.dstLost =
    (if s.busy then loseBelow s.dstLen.toNat s.dstLost else s.dstLost) := rfl
@[simp] theorem State.hostReset_free : s.hostReset.free = (if s.busy then s.free + 1 else s.free) := rfl
@[simp] theorem State.hostReset_host : s.hostReset.host = s.host := rfl
@[simp] theorem State.hostReset_rdata : s.hostReset.rdata = s.rdata := rfl

end Sys2Proof.Machine
end

