-- ==== Sys2Proof/Laws/Ops.lean ====
section
/-! SUPPORT. Laws/Ops.lean: what each shared operation can answer, and what the bit reader sees. -/

namespace Sys2Proof.Machine

/-! ### The cursor -/

/-- Every bit index fits the cursor (R7). -/
theorem State.totalBits_lt (s : State) : s.totalBits < 2 ^ 35 := by
  have := s.srcLen.isLt
  unfold State.totalBits
  simp only [Config.hdrBytes]
  omega

theorem State.advance_zero (s : State) : s.advance 0 = s := by
  simp [State.advance]

theorem State.advance_advance (s : State) (a b : Nat) : (s.advance a).advance b = s.advance (a + b) := by
  simp only [State.advance, State.mk.injEq, true_and, and_true]
  apply BitVec.eq_of_toNat_eq
  simp [Nat.add_assoc]

/-- A cursor that stays inside the sequence moves by exactly what was consumed (R59). -/
theorem State.advance_toNat {s : State} {n : Nat} (h : s.bitPos.toNat + n ≤ s.totalBits) :
    (s.advance n).bitPos.toNat = s.bitPos.toNat + n := by
  have := s.totalBits_lt
  simp only [State.advance_bitPos, BitVec.toNat_ofNat]
  exact Nat.mod_eq_of_lt (by omega)

/-! ### The bits at the cursor -/

/-- `BIT(k)` exists for every index below TOTAL_BITS (R58). -/
theorem State.bit_isSome {s : State} {k : Nat} (h : k < s.totalBits) : ∃ b, s.bit k = some b := by
  have hs : 8 + k / 8 < s.srcLen.toNat := by
    simp only [State.totalBits, Config.hdrBytes] at h
    omega
  simp [State.bit, h, State.srcRead, hs]

theorem State.bitsFrom_length {s : State} {fuel k : Nat} (h : k + fuel ≤ s.totalBits) :
    (s.bitsFrom fuel k).length = fuel := by
  induction fuel generalizing k with
  | zero => rfl
  | succ fuel ih =>
    obtain ⟨b, hb⟩ := s.bit_isSome (k := k) (by omega)
    simp [State.bitsFrom, hb, ih (k := k + 1) (by omega)]

/-- As many bits are unread as R57 says. -/
theorem State.bits_length (s : State) : s.bits.length = s.totalBits - s.bitPos.toNat := by
  unfold State.bits
  by_cases h : s.bitPos.toNat ≤ s.totalBits
  · exact State.bitsFrom_length (by omega)
  · rw [Nat.sub_eq_zero_of_le (by omega)]; rfl

theorem State.bitsFrom_drop {s : State} {n fuel k : Nat} (h : k + fuel ≤ s.totalBits) (hn : n ≤ fuel) :
    (s.bitsFrom fuel k).drop n = s.bitsFrom (fuel - n) (k + n) := by
  induction n generalizing fuel k with
  | zero => rfl
  | succ n ih =>
    obtain ⟨fuel, rfl⟩ : ∃ f, fuel = f + 1 := ⟨fuel - 1, by omega⟩
    obtain ⟨b, hb⟩ := s.bit_isSome (k := k) (by omega)
    simp only [State.bitsFrom, hb, List.drop_succ_cons]
    rw [ih (by omega) (by omega)]
    congr 1 <;> omega

/-- After consuming `n` bits the unread bits are the rest (R59). -/
theorem State.bits_advance {s : State} {n : Nat} (h : s.bitPos.toNat + n ≤ s.totalBits) :
    (s.advance n).bits = s.bits.drop n := by
  have hp := State.advance_toNat h
  have : ∀ fuel k, (s.advance n).bitsFrom fuel k = s.bitsFrom fuel k := by
    intro fuel
    induction fuel with
    | zero => intro k; rfl
    | succ fuel ih =>
      intro k
      have hb : (s.advance n).bit k = s.bit k := rfl
      simp [State.bitsFrom, hb, ih]
  unfold State.bits
  rw [this, hp, State.advance_totalBits, State.bitsFrom_drop (by omega) (by omega)]
  congr 1
  omega

/-! ### Unspecified bytes of the destination buffer -/

/-- What is left at and above an index. -/
theorem lostAt_lostFrom (n i : Nat) (ranges : List (Nat × Nat)) :
    lostAt (lostFrom n ranges) i = (decide (n ≤ i) && lostAt ranges i) := by
  induction ranges with
  | nil => simp [lostFrom, lostAt]
  | cons r rest ih =>
    simp only [lostFrom, lostAt, List.any_cons] at ih ⊢
    split
    · next h =>
      rw [ih]
      by_cases hn : n ≤ i
      · simp [hn, show ¬ i < r.2 by omega]
      · simp [hn]
    · rw [List.any_cons, ih]
      by_cases hn : n ≤ i
      · simp [hn]
      · simp [hn]

/-- Everything below an index becomes unspecified, and nothing else changes (R195). -/
theorem lostAt_loseBelow (n i : Nat) (ranges : List (Nat × Nat)) :
    lostAt (loseBelow n ranges) i = (decide (i < n) || lostAt ranges i) := by
  unfold loseBelow
  split
  · next h => simp [h]
  · have h := lostAt_lostFrom n i ranges
    simp only [lostAt, List.any_cons] at h ⊢
    rw [h]
    by_cases hn : i < n
    · simp [hn]
    · simp [hn, show n ≤ i by omega]

@[simp] theorem State.advance_dstByteLost (n i : Nat) (s : State) : (s.advance n).dstByteLost i = s.dstByteLost i := rfl

theorem State.raise_dstByteLost (k : ErrCode) (c : Cause) (s : State) (i : Nat) :
    (s.raise k c).dstByteLost i = (decide (i < s.dstLen.toNat) || s.dstByteLost i) :=
  lostAt_loseBelow _ _ _

theorem State.finishFull_dstByteLost (s : State) (i : Nat) :
    s.finishFull.dstByteLost i = (decide (s.dstLen.toNat ≤ i) && s.dstByteLost i) :=
  lostAt_lostFrom _ _ _

theorem State.hostReset_dstByteLost (s : State) (i : Nat) :
    s.hostReset.dstByteLost i = (s.dstRacing i || s.dstByteLost i) := by
  unfold State.dstByteLost State.dstRacing
  rw [State.hostReset_dstLost]
  cases s.busy <;> simp [lostAt_loseBelow]

/-! ### Where the loops over a length array go -/

theorem State.loadPtCount_phase_cases (c : BitVec 9) (s : State) :
    (c = 0 ∧ (s.loadPtCount c).phase = s.phase) ∨ (c ≠ 0 ∧ (s.loadPtCount c).phase = .ptEntry) := by
  by_cases h : c = 0
  · exact .inl ⟨h, if_pos h⟩
  · exact .inr ⟨h, if_neg h⟩

theorem State.placePtLen_phase_cases (l : Nat) (s : State) :
    ((s.placePtLen l).phase = .ptZrun ∧ s.alph = .t ∧ s.idx.toNat + 1 = 3) ∨
    ((s.placePtLen l).phase = .ptEntry ∧ s.idx.toNat + 1 < s.cnt.toNat) ∨ (s.placePtLen l).phase = .ptBuild := by
  by_cases h : s.alph = .t ∧ s.idx.toNat + 1 = 3
  · exact .inl ⟨by simp [h], h⟩
  · by_cases h2 : s.idx.toNat + 1 < s.cnt.toNat
    · exact .inr (.inl ⟨by simp only [State.placePtLen_phase, if_neg h, State.ptLoopPhase, if_pos h2], h2⟩)
    · exact .inr (.inr (by simp only [State.placePtLen_phase, if_neg h, State.ptLoopPhase, if_neg h2]))

theorem State.skipPt_phase_cases (z : Nat) (s : State) :
    ((s.skipPt z).phase = .ptEntry ∧ min (s.idx.toNat + z) 31 < s.cnt.toNat) ∨ (s.skipPt z).phase = .ptBuild := by
  by_cases h : min (s.idx.toNat + z) 31 < s.cnt.toNat
  · exact .inl ⟨if_pos h, h⟩
  · exact .inr (if_neg h)

theorem State.loadCCount_phase_cases (c : BitVec 9) (s : State) :
    (c = 0 ∧ (s.loadCCount c).phase = s.phase) ∨ (c ≠ 0 ∧ (s.loadCCount c).phase = .cEntry) := by
  by_cases h : c = 0
  · exact .inl ⟨h, if_pos h⟩
  · exact .inr ⟨h, if_neg h⟩

theorem State.skipC_phase_cases (run : Nat) (s : State) :
    ((s.skipC run).phase = .cEntry ∧ min (s.idx.toNat + run) 510 < s.cnt.toNat ∧ min (s.idx.toNat + run) 510 < 510) ∨
    (s.skipC run).phase = .cBuild := by
  by_cases h : min (s.idx.toNat + run) 510 < s.cnt.toNat ∧ min (s.idx.toNat + run) 510 < 510
  · exact .inl ⟨if_pos h, h⟩
  · exact .inr (if_neg h)

theorem State.placeCLen_phase_cases (l : Nat) (s : State) :
    ((s.placeCLen l).phase = .cEntry ∧ s.idx.toNat + 1 < s.cnt.toNat ∧ s.idx.toNat + 1 < 510) ∨
    (s.placeCLen l).phase = .cBuild := by
  by_cases h : s.idx.toNat + 1 < s.cnt.toNat ∧ s.idx.toNat + 1 < 510
  · exact .inl ⟨if_pos h, h⟩
  · exact .inr (if_neg h)

theorem State.countCopy_phase_cases (s : State) :
    (s.cpyLen = 1 ∧ s.countCopy.phase = .symbol) ∨ (s.cpyLen ≠ 1 ∧ s.countCopy.phase = .copy) := by
  by_cases h : s.cpyLen - 1 = 0
  · exact .inl ⟨by bv_omega, if_pos h⟩
  · exact .inr ⟨by bv_omega, if_neg h⟩

/-! ### What the shared operations answer -/

/-- A job that ends in an error inside a step: some bits may have been consumed first, and then `raise` (R194). -/
def Raised (s t : State) : Prop :=
  ∃ n k c, k ≠ ErrCode.ok ∧ (n = 0 ∨ s.bitPos.toNat + n ≤ s.totalBits) ∧ t = (s.advance n).raise k c

theorem Raised.here {s : State} {k : ErrCode} {c : Cause} (hk : k ≠ .ok) : Raised s (s.raise k c) :=
  ⟨0, k, c, hk, .inl rfl, by rw [State.advance_zero]⟩

theorem Raised.after {s t : State} {n : Nat} (hn : s.bitPos.toNat + n ≤ s.totalBits) (h : Raised (s.advance n) t) :
    Raised s t := by
  obtain ⟨m, k, c, hk, hm, rfl⟩ := h
  refine ⟨n + m, k, c, hk, ?_, by rw [State.advance_advance]⟩
  rcases hm with rfl | hm
  · exact .inr hn
  · rw [State.advance_toNat hn, State.advance_totalBits] at hm
    exact .inr (by omega)

theorem ifSelected_next {i : Instr} {s t : State} {k : State → Out} (h : ifSelected i s k = .next t) :
    s.selects i = true ∧ k s = .next t := by
  unfold ifSelected at h
  split at h
  · exact ⟨by assumption, h⟩
  · cases h

theorem ifSelected_of {i : Instr} {s : State} (k : State → Out) (h : s.selects i = true) : ifSelected i s k = k s := by
  simp [ifSelected, h]

/-- `POP(n)` with enough bits (R59). -/
theorem popThen_of {n : Nat} {s : State} (k : State → Out) (h : s.bitPos.toNat + n ≤ s.totalBits) :
    popThen n s k = k (s.advance n) := by
  simp [popThen, h]

/-- What `POP(n)` and the rest of a meaning can answer (R59). -/
theorem popThen_next {n : Nat} {s t : State} {k : State → Out} (h : popThen n s k = .next t) :
    Raised s t ∨ (s.bitPos.toNat + n ≤ s.totalBits ∧ k (s.advance n) = .next t) := by
  unfold popThen at h
  split at h
  · exact .inr ⟨by assumption, h⟩
  · cases h; exact .inl (Raised.here (by decide))

theorem tailThen_next {n : Nat} {s t : State} {k : State → Out} (h : tailThen n s k = .next t) :
    Raised s t ∨ (s.bitPos.toNat + (n + 1) ≤ s.totalBits ∧ k (s.advance (n + 1)) = .next t) := by
  unfold tailThen at h
  split at h
  · exact .inr ⟨by assumption, h⟩
  · cases h
    refine .inl ⟨s.totalBits - s.bitPos.toNat, _, _, by decide, ?_, rfl⟩
    omega

/-- A codeword of a table with its bits there (R131 to R133). -/
theorem codeThen_of {a : Alphabet} {v : Nat} {s : State} (k : State → Out)
    (h : s.bitPos.toNat + (s.table a).codeBits v ≤ s.totalBits)
    (hp : (s.table a).degen = false → s.peek = .fault → s.bitPos.toNat + Config.tableBits a ≤ s.totalBits) :
    codeThen a v s k = k (s.advance ((s.table a).codeBits v)) := by
  unfold codeThen HufTable.codeBits at *
  split
  · simp [State.advance_zero]
  · next hd =>
    rw [if_neg hd] at h
    have hg : ¬ (s.peek = .fault ∧ s.totalBits < s.bitPos.toNat + Config.tableBits a) := by
      rintro ⟨h1, h2⟩
      have := hp (by simpa using hd) h1
      omega
    rw [if_neg hg, popThen_of k h]

/-- What a codeword and the rest of a meaning can answer (R131 to R133). -/
theorem codeThen_next {a : Alphabet} {v : Nat} {s t : State} {k : State → Out} (h : codeThen a v s k = .next t) :
    Raised s t ∨ ((s.bitPos.toNat + (s.table a).codeBits v ≤ s.totalBits ∨ (s.table a).codeBits v = 0) ∧
      k (s.advance ((s.table a).codeBits v)) = .next t) := by
  unfold codeThen at h
  unfold HufTable.codeBits
  split at h
  · next hd => exact .inr ⟨.inr (by simp [hd]), by simpa [hd, State.advance_zero] using h⟩
  · next hd =>
    split at h
    · cases h; exact .inl (Raised.here (by decide))
    · rcases popThen_next h with h | ⟨h1, h2⟩
      · exact .inl h
      · exact .inr ⟨.inl (by simpa [hd] using h1), by simpa [hd] using h2⟩

/-- What `Write(b)` and the rest of a step can answer (R165). -/
theorem writeThen_next {b : Byte} {s t : State} {k : State → Out} (h : writeThen b s k = .next t) :
    s.outLen.toNat < s.dstLen.toNat ∧
    ((s.outLen + 1 = s.dstLen ∧ t = (s.store b).finishFull) ∨ (s.outLen + 1 ≠ s.dstLen ∧ k (s.store b) = .next t)) := by
  unfold writeThen at h
  split at h
  · next hlt =>
    refine ⟨hlt, ?_⟩
    split at h
    · next hf => cases h; exact .inl ⟨hf, rfl⟩
    · next hf => exact .inr ⟨hf, h⟩
  · cases h

theorem putPtLen_next {l : Nat} {s t : State} (h : putPtLen l s = .next t) :
    s.idx.toNat < Config.ptCap ∧ t = s.placePtLen l := by
  unfold putPtLen at h
  split at h
  · cases h; exact ⟨by assumption, rfl⟩
  · cases h

/-- What the range check of a distance can answer (R164). -/
theorem takeDistance_next {d : Nat} {s t : State} (h : takeDistance d s = .next t) :
    Raised s t ∨ (d + 1 ≤ s.outLen.toNat ∧ t = s.aimCopy d) := by
  unfold takeDistance at h
  split at h
  · cases h; exact .inl (Raised.here (by decide))
  · cases h; exact .inr ⟨by omega, rfl⟩

/-- An element that could not be read ends the job (R194). -/
theorem readFailed_next {e : DecodeError} {s t : State} (h : readFailed s e = .next t) :
    Raised s t := by
  have hb := s.bits_length
  cases e with
  | exhausted rest =>
    cases h
    exact ⟨_, _, _, by decide, by omega, rfl⟩
  | emptyEntry rest =>
    cases h
    exact ⟨_, _, _, by decide, by omega, rfl⟩
  | shortHeader => cases h; exact Raised.here (by decide)

theorem readFailed_answers (e : DecodeError) (s : State) : ∃ t, readFailed s e = .next t := by
  cases e <;> exact ⟨_, rfl⟩

/-! ### What the elements can answer: an error, or the effect after exactly the element's bits -/

/-- HDR (R101). -/
theorem execHdr_next {c o : BitVec 32} {s t : State} (h : execHdr c o s = .next t) :
    s.phase = .frame ∧ (Raised s t ∨ t = s.finish ∨
      (Config.hdrBytes ≤ s.srcLen.toNat ∧ o ≠ 0 ∧ o = s.dstLen ∧ t = s.sessionStart)) := by
  obtain ⟨hs, h⟩ := ifSelected_next h
  refine ⟨by simpa [State.selects, State.isAt, Instr.place, Instr.wf] using hs, ?_⟩
  split at h
  · cases h; exact .inl (Raised.here (by decide))
  · next h8 =>
    split at h
    · cases h; exact .inl (Raised.here (by decide))
    · split at h
      · cases h; exact .inr (.inl rfl)
      · next h0 =>
        split at h
        · cases h; exact .inl (Raised.here (by decide))
        · next ho => cases h; exact .inr (.inr ⟨by omega, h0, by simpa using ho, rfl⟩)

/-- The effect of an element that only sets registers, on the state after its bits: every element but HDR, LIT and the
positions, which are conditional. -/
def regEffect : Instr → State → Option State
  | .blkhdr n, s => some (s.loadBlock n)
  | .tCnt m, s => some (s.loadPtCount (m.zeroExtend 9))
  | .tDegen v, s => some (s.setPtConst v .cCount)
  | .pCnt _ m, s => some (s.loadPtCount (m.zeroExtend 9))
  | .pDegen _ v, s => some (s.setPtConst v .symbol)
  | .lenShort l, s => some (s.placePtLen l.toNat)
  | .lenLong k, s => some (s.placePtLen (7 + k))
  | .zrun2 z, s => some (s.skipPt z.toNat)
  | .cCnt m, s => some (s.loadCCount m)
  | .cDegen v, s => some (s.setCConst v)
  | .tZero, s => some (s.skipC 1)
  | .tRun4 r, s => some (s.skipC (r.toNat + 3))
  | .tRun9 r, s => some (s.skipC (r.toNat + 20))
  | .tLen v, s => some (s.placeCLen (v.toNat - 2))
  | .backref v, s => some (s.countSymbol.loadCopy (v.toNat - 253))
  | .hdr _ _, _ => none
  | .lit _, _ => none
  | .pos0, _ => none
  | .pos1, _ => none
  | .posN _ _, _ => none

/-- The bits an element consumes in a state. -/
def State.used (s : State) (i : Instr) : Nat :=
  i.bitLength (s.table i.place.alphabet)

/-- The element's bits lie inside the sequence, or it takes none. -/
def State.fits (s : State) (i : Instr) : Prop :=
  s.bitPos.toNat + s.used i ≤ s.totalBits ∨ s.used i = 0

/-- A field element: its bits popped, then its effect. -/
theorem field_next {s t : State} {n : Nat} {k : State → State} (h : popThen n s (fun s => .next (k s)) = .next t) :
    Raised s t ∨ (s.bitPos.toNat + n ≤ s.totalBits ∧ t = k (s.advance n)) := by
  rcases popThen_next h with h | ⟨h1, h2⟩
  · exact .inl h
  · cases h2; exact .inr ⟨h1, rfl⟩

/-- A codeword and raw bits. -/
theorem codeRaw_next {a : Alphabet} {v n : Nat} {s t : State} {k : State → Out}
    (h : codeThen a v s (fun s => popThen n s k) = .next t) :
    Raised s t ∨ (s.bitPos.toNat + ((s.table a).codeBits v + n) ≤ s.totalBits ∧
      k (s.advance ((s.table a).codeBits v + n)) = .next t) := by
  rcases codeThen_next h with h | ⟨h1, h2⟩
  · exact .inl h
  · rcases popThen_next h2 with h3 | ⟨h3, h4⟩
    · rcases h1 with h1 | h1
      · exact .inl (h3.after h1)
      · rw [h1, State.advance_zero] at h3; exact .inl h3
    · rw [State.advance_advance] at h4
      rcases h1 with h1 | h1
      · rw [State.advance_toNat h1, State.advance_totalBits] at h3
        exact .inr ⟨by omega, h4⟩
      · rw [h1, State.advance_zero] at h3
        exact .inr ⟨by omega, h4⟩

/-- What an element that only sets registers can answer. -/
theorem exec_reg_next {i : Instr} {s t : State} (hi : ∀ s, regEffect i s ≠ none) (h : exec i s = .next t) :
    s.selects i = true ∧ (Raised s t ∨ (s.fits i ∧ regEffect i (s.advance (s.used i)) = some t)) := by
  cases i with
  | hdr c o => exact absurd rfl (hi s)
  | lit b => exact absurd rfl (hi s)
  | pos0 => exact absurd rfl (hi s)
  | pos1 => exact absurd rfl (hi s)
  | posN v x => exact absurd rfl (hi s)
  | blkhdr n =>
    replace h : execBlkhdr n s = .next t := h
    obtain ⟨hs, h⟩ := ifSelected_next h
    exact ⟨hs, (field_next h).imp id fun ⟨h1, h2⟩ => ⟨.inl h1, by rw [h2]; rfl⟩⟩
  | tCnt m =>
    replace h : execTCnt m s = .next t := h
    obtain ⟨hs, h⟩ := ifSelected_next h
    exact ⟨hs, (field_next h).imp id fun ⟨h1, h2⟩ => ⟨.inl h1, by rw [h2]; rfl⟩⟩
  | tDegen m =>
    replace h : execTDegen m s = .next t := h
    obtain ⟨hs, h⟩ := ifSelected_next h
    exact ⟨hs, (field_next h).imp id fun ⟨h1, h2⟩ => ⟨.inl h1, by rw [h2]; rfl⟩⟩
  | pCnt f m =>
    replace h : execPCnt f m s = .next t := h
    obtain ⟨hs, h⟩ := ifSelected_next h
    exact ⟨hs, (field_next h).imp id fun ⟨h1, h2⟩ => ⟨.inl h1, by rw [h2]; rfl⟩⟩
  | pDegen f m =>
    replace h : execPDegen f m s = .next t := h
    obtain ⟨hs, h⟩ := ifSelected_next h
    exact ⟨hs, (field_next h).imp id fun ⟨h1, h2⟩ => ⟨.inl h1, by rw [h2]; rfl⟩⟩
  | lenShort l =>
    replace h : execLenShort l s = .next t := h
    obtain ⟨hs, h⟩ := ifSelected_next h
    refine ⟨hs, (popThen_next h).imp id fun ⟨h1, h2⟩ => ⟨.inl h1, ?_⟩⟩
    rw [(putPtLen_next h2).2]; rfl
  | lenLong k =>
    replace h : execLenLong k s = .next t := h
    obtain ⟨hs, h⟩ := ifSelected_next h
    refine ⟨hs, ?_⟩
    rcases popThen_next h with h | ⟨h1, h2⟩
    · exact .inl h
    · rcases tailThen_next h2 with h3 | ⟨h3, h4⟩
      · exact .inl (h3.after h1)
      · rw [State.advance_toNat h1, State.advance_totalBits] at h3
        rw [State.advance_advance] at h4
        have hu : s.used (.lenLong k) = 3 + (k + 1) := by
          show 4 + k = 3 + (k + 1)
          omega
        refine .inr ⟨.inl (by omega), ?_⟩
        rw [(putPtLen_next h4).2, hu]; rfl
  | zrun2 z =>
    replace h : execZrun2 z s = .next t := h
    obtain ⟨hs, h⟩ := ifSelected_next h
    exact ⟨hs, (field_next h).imp id fun ⟨h1, h2⟩ => ⟨.inl h1, by rw [h2]; rfl⟩⟩
  | cCnt m =>
    replace h : execCCnt m s = .next t := h
    obtain ⟨hs, h⟩ := ifSelected_next h
    exact ⟨hs, (field_next h).imp id fun ⟨h1, h2⟩ => ⟨.inl h1, by rw [h2]; rfl⟩⟩
  | cDegen m =>
    replace h : execCDegen m s = .next t := h
    obtain ⟨hs, h⟩ := ifSelected_next h
    exact ⟨hs, (field_next h).imp id fun ⟨h1, h2⟩ => ⟨.inl h1, by rw [h2]; rfl⟩⟩
  | tZero =>
    replace h : execTZero s = .next t := h
    obtain ⟨hs, h⟩ := ifSelected_next h
    exact ⟨hs, (codeThen_next h).imp id fun ⟨h1, h2⟩ => ⟨h1, by cases h2; rfl⟩⟩
  | tRun4 r =>
    replace h : execTRun4 r s = .next t := h
    obtain ⟨hs, h⟩ := ifSelected_next h
    exact ⟨hs, (codeRaw_next h).imp id fun ⟨h1, h2⟩ => ⟨.inl h1, by cases h2; rfl⟩⟩
  | tRun9 r =>
    replace h : execTRun9 r s = .next t := h
    obtain ⟨hs, h⟩ := ifSelected_next h
    exact ⟨hs, (codeRaw_next h).imp id fun ⟨h1, h2⟩ => ⟨.inl h1, by cases h2; rfl⟩⟩
  | tLen v =>
    replace h : execTLen v s = .next t := h
    obtain ⟨hs, h⟩ := ifSelected_next h
    exact ⟨hs, (codeThen_next h).imp id fun ⟨h1, h2⟩ => ⟨h1, by cases h2; rfl⟩⟩
  | backref v =>
    replace h : execBackref v s = .next t := h
    obtain ⟨hs, h⟩ := ifSelected_next h
    exact ⟨hs, (codeThen_next h).imp id fun ⟨h1, h2⟩ => ⟨h1, by cases h2; rfl⟩⟩

/-- What LIT can answer (R163, R165). -/
theorem execLit_next {b : BitVec 8} {s t : State} (h : execLit b s = .next t) :
    s.selects (.lit b) = true ∧ (Raised s t ∨ (s.fits (.lit b) ∧ s.outLen.toNat < s.dstLen.toNat ∧
      ((s.outLen + 1 = s.dstLen ∧ t = ((s.advance (s.used (.lit b))).countSymbol.store b).finishFull) ∨
       (s.outLen + 1 ≠ s.dstLen ∧ t = ((s.advance (s.used (.lit b))).countSymbol.store b).goto .symbol)))) := by
  obtain ⟨hs, h⟩ := ifSelected_next h
  refine ⟨hs, (codeThen_next h).imp id fun ⟨h1, h2⟩ => ⟨h1, ?_⟩⟩
  obtain ⟨h3, h4⟩ := writeThen_next h2
  refine ⟨h3, h4.imp id fun ⟨h5, h6⟩ => ⟨h5, ?_⟩⟩
  cases h6; rfl

/-- What a position element can answer (R164, R180 to R183): `d` is its distance. -/
theorem exec_pos_next {i : Instr} {d : Nat} {s t : State}
    (hi : (i = .pos0 ∧ d = 0) ∨ (i = .pos1 ∧ d = 1) ∨ (∃ v x, i = .posN v x ∧ d = distanceOf v.toNat x.toNat))
    (h : exec i s = .next t) :
    s.selects i = true ∧ (Raised s t ∨
      (s.fits i ∧ d + 1 ≤ s.outLen.toNat ∧ t = (s.advance (s.used i)).aimCopy d)) := by
  have code : ∀ {v : Nat}, codeThen .p v s (fun s => takeDistance d s) = .next t →
      Raised s t ∨ ((s.bitPos.toNat + (s.table .p).codeBits v ≤ s.totalBits ∨ (s.table .p).codeBits v = 0) ∧
        d + 1 ≤ s.outLen.toNat ∧ t = (s.advance ((s.table .p).codeBits v)).aimCopy d) := by
    intro v h
    rcases codeThen_next h with h | ⟨h1, h2⟩
    · exact .inl h
    · rcases takeDistance_next h2 with h3 | h3
      · rcases h1 with h1 | h1
        · exact .inl (h3.after h1)
        · rw [h1, State.advance_zero] at h3; exact .inl h3
      · exact .inr ⟨h1, h3⟩
  rcases hi with ⟨rfl, rfl⟩ | ⟨rfl, rfl⟩ | ⟨v, x, rfl, rfl⟩
  · replace h : execPos0 s = .next t := h
    obtain ⟨hs, h⟩ := ifSelected_next h
    exact ⟨hs, code h⟩
  · replace h : execPos1 s = .next t := h
    obtain ⟨hs, h⟩ := ifSelected_next h
    exact ⟨hs, code h⟩
  · replace h : execPosN v x s = .next t := h
    obtain ⟨hs, h⟩ := ifSelected_next h
    refine ⟨hs, ?_⟩
    rcases codeRaw_next h with h | ⟨h1, h2⟩
    · exact .inl h
    · rcases takeDistance_next h2 with h3 | h3
      · exact .inl (h3.after h1)
      · exact .inr ⟨.inl h1, h3⟩

/-- What COPY can answer (R166). -/
theorem copyByte_next {s t : State} (h : copyByte s = .next t) :
    s.cpySrc.toNat < s.dstLen.toNat ∧ s.outLen.toNat < s.dstLen.toNat ∧
    ((s.outLen + 1 = s.dstLen ∧ t = (s.store (s.dst.read s.cpySrc.toNat)).finishFull) ∨
     (s.outLen + 1 ≠ s.dstLen ∧ t = (s.store (s.dst.read s.cpySrc.toNat)).countCopy)) := by
  unfold copyByte at h
  split at h
  · cases h
  · next b hb =>
    unfold State.dstRead at hb
    split at hb
    · next hlt =>
      cases hb
      obtain ⟨h1, h2⟩ := writeThen_next h
      exact ⟨hlt, h1, h2.imp id fun ⟨h3, h4⟩ => ⟨h3, by cases h4; rfl⟩⟩
    · cases hb

/-- What PT_BUILD can answer (R146). -/
theorem buildPt_next {s t : State} (h : buildPt s = .next t) :
    (∃ c, build 256 s.alph.alphabet s.ptLen.toList s.left s.right = .error c ∧
      t = s.raise .malformedSrcData c) ∨
    (∃ b, build 256 s.alph.alphabet s.ptLen.toList s.left s.right = .ok b ∧
      t = (s.setPtTable b).goto (match s.alph with | .t => .cCount | .p => .symbol)) := by
  unfold buildPt at h
  split at h
  · next c hc => cases h; exact .inl ⟨c, hc, rfl⟩
  · next b hb => cases h; exact .inr ⟨b, hb, rfl⟩

/-- What C_BUILD can answer (R157). -/
theorem buildC_next {s t : State} (h : buildC s = .next t) :
    (∃ c, build 4096 .c s.cLen.toList s.left s.right = .error c ∧ t = s.raise .malformedSrcData c) ∨
    (∃ b, build 4096 .c s.cLen.toList s.left s.right = .ok b ∧
      t = { (s.setCTable b) with alph := .p, phase := .ptCount }) := by
  unfold buildC at h
  split at h
  · next c hc => cases h; exact .inl ⟨c, hc, rfl⟩
  · next b hb => cases h; exact .inr ⟨b, hb, rfl⟩

end Sys2Proof.Machine
end

