-- ==== Sys2Proof/Laws/PerInstr.lean ====
section
/-! SUPPORT. Laws/PerInstr.lean: statements about every element, one lemma per constructor. -/

namespace Sys2Proof.Laws.EncodedLength

/-- An element's encoding has exactly the bits that its format gives it (R71 to R75), for any table. -/
def Statement (i : Instr) : Prop :=
  ∀ t : HufTable, (encode t i).length = i.bitLength t

theorem hdr (c o : BitVec 32) : Statement (.hdr c o) := by intro t; simp [encode, encodeLE32, Instr.bitLength]
theorem blkhdr (n : BitVec 16) : Statement (.blkhdr n) := by intro t; simp [encode, Instr.bitLength]
theorem tCnt (m : BitVec 5) : Statement (.tCnt m) := by intro t; simp [encode, Instr.bitLength]
theorem tDegen (v : BitVec 5) : Statement (.tDegen v) := by intro t; simp [encode, Instr.bitLength]
theorem pCnt (f : Variant) (m : BitVec 5) : Statement (.pCnt f m) := by intro t; simp [encode, Instr.bitLength]
theorem pDegen (f : Variant) (v : BitVec 5) : Statement (.pDegen f v) := by intro t; simp [encode, Instr.bitLength]
theorem lenShort (l : BitVec 3) : Statement (.lenShort l) := by intro t; simp [encode, Instr.bitLength]
theorem lenLong (k : Nat) : Statement (.lenLong k) := by intro t; simp [encode, Instr.bitLength]; omega
theorem zrun2 (z : BitVec 2) : Statement (.zrun2 z) := by intro t; simp [encode, Instr.bitLength]
theorem cCnt (m : BitVec 9) : Statement (.cCnt m) := by intro t; simp [encode, Instr.bitLength]
theorem cDegen (v : BitVec 9) : Statement (.cDegen v) := by intro t; simp [encode, Instr.bitLength]
theorem tZero : Statement .tZero := by intro t; simp [encode, Instr.bitLength]
theorem tRun4 (r : BitVec 4) : Statement (.tRun4 r) := by intro t; simp [encode, Instr.bitLength]
theorem tRun9 (r : BitVec 9) : Statement (.tRun9 r) := by intro t; simp [encode, Instr.bitLength]
theorem tLen (v : BitVec 5) : Statement (.tLen v) := by intro t; simp [encode, Instr.bitLength]
theorem lit (b : BitVec 8) : Statement (.lit b) := by intro t; simp [encode, Instr.bitLength]
theorem backref (v : BitVec 9) : Statement (.backref v) := by intro t; simp [encode, Instr.bitLength]
theorem pos0 : Statement .pos0 := by intro t; simp [encode, Instr.bitLength]
theorem pos1 : Statement .pos1 := by intro t; simp [encode, Instr.bitLength]
theorem posN (v : BitVec 5) (x : BitVec 30) : Statement (.posN v x) := by intro t; simp [encode, Instr.bitLength]

end Sys2Proof.Laws.EncodedLength
end

