-- ==== Sys2Proof/Laws/Step.lean ====
section
/-! SUPPORT. Laws/Step.lean: what an element and an engine step can answer, said once, and one induction over both. -/

namespace Sys2Proof.Machine

/-- With no move of the host pending, a step is the engine's (log 1). -/
theorem step_of_no_move {s : State} (h : s.host = []) : step s = engineStep s := by
  simp [step, nextStep, h]

/-- With a move of the host pending, a step is that move (log 1). -/
theorem step_move (m : HostMove) (rest : List HostMove) (s : State) :
    step { s with host := m :: rest } = hostMove m { s with host := rest } := rfl

theorem run_zero (s : State) : Host.Core.run Sys2Proof.core 0 s = .next s := by
  simp [Host.Core.run]

theorem run_next {s u : State} (h : step s = .next u) (k : Nat) :
    Host.Core.run Sys2Proof.core (k + 1) s = Host.Core.run Sys2Proof.core k u := by
  have h : Sys2Proof.core.step s = .next u := h
  simp [Host.Core.run, h]

/-- An element that could not be read, or was read and executed. -/
theorem runElement_next {p : Place} {s t : State} (h : runElement p s = .next t) :
    Raised s t ∨ ∃ i rest, s.fetch p = .ok (i, rest) ∧ exec i s = .next t := by
  unfold runElement at h
  split at h
  · next i rest hf => exact .inr ⟨i, rest, hf, h⟩
  · exact .inl (readFailed_next h)

/-- A count, alone or with its constant (R140, R141, R150, R151). -/
theorem runCount_next {p q : Place} {s t : State} (h : runCount p q s = .next t) :
    runElement p s = .next t ∨
    ∃ u, runElement p s = .next u ∧ u.phase = s.phase ∧ runElement q u = .next t := by
  unfold runCount at h
  split at h
  · next u hu =>
    split at h
    · next hp => exact .inr ⟨u, hu, hp, h⟩
    · cases h; exact .inl hu
  · cases h
  · cases h

/-- The engine's step at a phase that reads elements: one element, or a count and its constant, or one of the two steps
that read nothing (R28). -/
theorem engineStep_next {s t : State} (h : engineStep s = .next t) :
    (s.phase = .idle ∧ t = s) ∨
    (s.phase ≠ .idle ∧ ∃ p, runElement p s = .next t) ∨
    ((s.phase = .ptCount ∨ s.phase = .cCount) ∧
      ∃ p q u, runElement p s = .next u ∧ u.phase = s.phase ∧ runElement q u = .next t) ∨
    (s.phase = .symbol ∧ s.remain = 0 ∧ t = s.goto .blkCount) ∨
    (s.phase = .ptEntry ∧ t = s.goto .ptBuild) ∨
    (s.phase = .cEntry ∧ t = s.goto .cBuild) ∨
    (s.phase = .ptBuild ∧ buildPt s = .next t) ∨
    (s.phase = .cBuild ∧ buildC s = .next t) ∨
    (s.phase = .copy ∧ copyByte s = .next t) := by
  unfold engineStep at h
  split at h
  · next hp =>
    cases h; exact .inl ⟨hp, rfl⟩
  · next hp =>
    exact .inr (.inl ⟨by simp [hp], _, h⟩)
  · next hp =>
    split at h
    · next hr => cases h; exact .inr (.inr (.inr (.inl ⟨hp, hr, rfl⟩)))
    · exact .inr (.inl ⟨by simp [hp], _, h⟩)
  · next hp =>
    exact .inr (.inl ⟨by simp [hp], _, h⟩)
  · next hp =>
    rcases runCount_next h with h | ⟨u, h⟩
    · exact .inr (.inl ⟨by simp [hp], _, h⟩)
    · exact .inr (.inr (.inl ⟨by simp [hp], _, _, u, h⟩))
  · next hp =>
    split at h
    · exact .inr (.inl ⟨by simp [hp], _, h⟩)
    · cases h; exact .inr (.inr (.inr (.inr (.inl ⟨hp, rfl⟩))))
  · next hp =>
    exact .inr (.inl ⟨by simp [hp], _, h⟩)
  · next hp =>
    exact .inr (.inr (.inr (.inr (.inr (.inr (.inl ⟨hp, h⟩))))))
  · next hp =>
    rcases runCount_next h with h | ⟨u, h⟩
    · exact .inr (.inl ⟨by simp [hp], _, h⟩)
    · exact .inr (.inr (.inl ⟨by simp [hp], _, _, u, h⟩))
  · next hp =>
    split at h
    · exact .inr (.inl ⟨by simp [hp], _, h⟩)
    · cases h; exact .inr (.inr (.inr (.inr (.inr (.inl ⟨hp, rfl⟩)))))
  · next hp =>
    exact .inr (.inr (.inr (.inr (.inr (.inr (.inr (.inl ⟨hp, h⟩)))))))
  · next hp =>
    exact .inr (.inl ⟨by simp [hp], _, h⟩)
  · next hp =>
    exact .inr (.inr (.inr (.inr (.inr (.inr (.inr (.inr ⟨hp, h⟩)))))))

/-- A relation between the states before and after holds of every engine step, if it is transitive and holds of the
errors, of the elements, of the two steps that read nothing, of the builds and of a copied byte. -/
theorem engineStep_induct (R : State → State → Prop) (refl : ∀ s, R s s)
    (trans : ∀ s u t, u.phase ≠ .idle → R s u → R u t → R s t)
    (raised : ∀ s t, s.phase ≠ .idle → Raised s t → R s t)
    (element : ∀ i s t, exec i s = .next t → R s t)
    (block : ∀ s, s.phase = .symbol → s.remain = 0 → R s (s.goto .blkCount))
    (ptDone : ∀ s, s.phase = .ptEntry → R s (s.goto .ptBuild))
    (cDone : ∀ s, s.phase = .cEntry → R s (s.goto .cBuild))
    (pt : ∀ s t, s.phase = .ptBuild → buildPt s = .next t → R s t)
    (c : ∀ s t, s.phase = .cBuild → buildC s = .next t → R s t)
    (copy : ∀ s t, s.phase = .copy → copyByte s = .next t → R s t)
    {s t : State} (h : engineStep s = .next t) : R s t := by
  have one : ∀ {p : Place} {s t : State}, s.phase ≠ .idle → runElement p s = .next t → R s t := by
    intro p s t hp h
    rcases runElement_next h with h | ⟨i, rest, -, h⟩
    · exact raised _ _ hp h
    · exact element i _ _ h
  rcases engineStep_next h with ⟨-, rfl⟩ | ⟨hp, p, h⟩ | ⟨hp, p, q, u, h1, h2, h3⟩ | ⟨hp, hr, rfl⟩ | ⟨hp, rfl⟩ |
    ⟨hp, rfl⟩ | ⟨hp, h⟩ | ⟨hp, h⟩ | ⟨hp, h⟩
  · exact refl _
  · exact one hp h
  · have hp : s.phase ≠ .idle := by rcases hp with hp | hp <;> simp [hp]
    exact trans _ u _ (by rwa [h2]) (one hp h1) (one (by rwa [h2]) h3)
  · exact block _ hp hr
  · exact ptDone _ hp
  · exact cDone _ hp
  · exact pt _ _ hp h
  · exact c _ _ hp h
  · exact copy _ _ hp h

/-- What an element can answer: an error; the end or the start of a session (HDR); or, after exactly its own bits, its
effect on the registers, its written byte (LIT) or its aimed copy (the positions). -/
theorem exec_next {i : Instr} {s t : State} (h : exec i s = .next t) :
    s.selects i = true ∧
    (Raised s t ∨
     (∃ c o, i = .hdr c o ∧ (t = s.finish ∨
        (Config.hdrBytes ≤ s.srcLen.toNat ∧ o ≠ 0 ∧ o = s.dstLen ∧ t = s.sessionStart))) ∨
     (s.fits i ∧ (regEffect i (s.advance (s.used i)) = some t ∨
        (∃ b, i = .lit b ∧ s.outLen.toNat < s.dstLen.toNat ∧
          ((s.outLen + 1 = s.dstLen ∧ t = ((s.advance (s.used i)).countSymbol.store b).finishFull) ∨
           (s.outLen + 1 ≠ s.dstLen ∧ t = ((s.advance (s.used i)).countSymbol.store b).goto .symbol))) ∨
        (∃ d, (i = .pos0 ∧ d = 0 ∨ i = .pos1 ∧ d = 1 ∨ ∃ v x, i = .posN v x ∧ d = distanceOf v.toNat x.toNat) ∧
          d + 1 ≤ s.outLen.toNat ∧ t = (s.advance (s.used i)).aimCopy d)))) := by
  by_cases hr : ∀ s, regEffect i s ≠ none
  · obtain ⟨h1, h2⟩ := exec_reg_next hr h
    exact ⟨h1, h2.imp id fun ⟨h3, h4⟩ => .inr ⟨h3, .inl h4⟩⟩
  · cases i with
    | hdr c o =>
      obtain ⟨hp, h1⟩ := execHdr_next h
      refine ⟨by simp [State.selects, Instr.wf, State.isAt, Instr.place, hp], h1.imp id fun h2 => .inl ⟨c, o, rfl, h2⟩⟩
    | lit b =>
      obtain ⟨h1, h2⟩ := execLit_next h
      exact ⟨h1, h2.imp id fun ⟨h3, h4, h5⟩ => .inr ⟨h3, .inr (.inl ⟨b, rfl, h4, h5⟩)⟩⟩
    | pos0 =>
      obtain ⟨h1, h2⟩ := exec_pos_next (.inl ⟨rfl, rfl⟩) h
      exact ⟨h1, h2.imp id fun ⟨h3, h4⟩ => .inr ⟨h3, .inr (.inr ⟨_, .inl ⟨rfl, rfl⟩, h4⟩)⟩⟩
    | pos1 =>
      obtain ⟨h1, h2⟩ := exec_pos_next (.inr (.inl ⟨rfl, rfl⟩)) h
      exact ⟨h1, h2.imp id fun ⟨h3, h4⟩ => .inr ⟨h3, .inr (.inr ⟨_, .inr (.inl ⟨rfl, rfl⟩), h4⟩)⟩⟩
    | posN v x =>
      obtain ⟨h1, h2⟩ := exec_pos_next (.inr (.inr ⟨v, x, rfl, rfl⟩)) h
      exact ⟨h1, h2.imp id fun ⟨h3, h4⟩ => .inr ⟨h3, .inr (.inr ⟨_, .inr (.inr ⟨v, x, rfl, rfl⟩), h4⟩)⟩⟩
    | blkhdr _ => exact absurd (fun _ => by simp [regEffect]) hr
    | tCnt _ => exact absurd (fun _ => by simp [regEffect]) hr
    | tDegen _ => exact absurd (fun _ => by simp [regEffect]) hr
    | pCnt _ _ => exact absurd (fun _ => by simp [regEffect]) hr
    | pDegen _ _ => exact absurd (fun _ => by simp [regEffect]) hr
    | lenShort _ => exact absurd (fun _ => by simp [regEffect]) hr
    | lenLong _ => exact absurd (fun _ => by simp [regEffect]) hr
    | zrun2 _ => exact absurd (fun _ => by simp [regEffect]) hr
    | cCnt _ => exact absurd (fun _ => by simp [regEffect]) hr
    | cDegen _ => exact absurd (fun _ => by simp [regEffect]) hr
    | tZero => exact absurd (fun _ => by simp [regEffect]) hr
    | tRun4 _ => exact absurd (fun _ => by simp [regEffect]) hr
    | tRun9 _ => exact absurd (fun _ => by simp [regEffect]) hr
    | tLen _ => exact absurd (fun _ => by simp [regEffect]) hr
    | backref _ => exact absurd (fun _ => by simp [regEffect]) hr

end Sys2Proof.Machine
end

