-- ==== Sys2Proof/Tests/Slice0.lean ====
section
/-! SUPPORT. Tests/Slice0.lean: small tests, expected values from spec/95_test_vectors.md, and one state and operands for
the hypotheses of every statement. -/

namespace Sys2Proof.Tests

-- One theorem after the other: checked side by side, the kernel evaluations wait for each other, each on a thread of its own.
set_option Elab.async false

open Sys2Proof Sys2Proof.Machine

/-! ## Ill-formed terms are refused -/

theorem test_wf_pCnt_classic : (Instr.pCnt .classic 16).wf = false ∧ (Instr.pCnt .tiano 16).wf = true := by decide
theorem test_wf_pDegen_classic : (Instr.pDegen .classic 16).wf = false ∧ (Instr.pDegen .classic 15).wf = true := by decide
theorem test_wf_lenShort : (Instr.lenShort 7).wf = false ∧ (Instr.lenShort 6).wf = true := by decide
theorem test_wf_tLen : (Instr.tLen 2).wf = false ∧ (Instr.tLen 3).wf = true := by decide
theorem test_wf_backref : (Instr.backref 255).wf = false ∧ (Instr.backref 256).wf = true := by decide
theorem test_wf_posN_symbol : (Instr.posN 1 0).wf = false ∧ (Instr.posN 2 0).wf = true := by decide
theorem test_wf_posN_suffix : (Instr.posN 2 2).wf = false ∧ (Instr.posN 2 1).wf = true := by decide

/-! ## Words written out from the encoding -/

/-- P1's bytes (95 section 3). -/
def p1Bytes : List Byte :=
  [0x0c, 0, 0, 0, 0x06, 0, 0, 0, 0x00, 0x02, 0x20, 0x04, 0x30, 0x30, 0xb6, 0x56, 0x40, 0x10, 0, 0]

/-- The T table of 95 H1: lengths 1, 2, 3, 3. -/
def lensH1 : List CodeLen := [1, 2, 3, 3]

/-- The P table of 95 H3: lengths 1 to 8, then 9, 10, 10. -/
def lensH3 : List CodeLen := [1, 2, 3, 4, 5, 6, 7, 8, 9, 10, 10]

def arena0 : Vector Entry 1019 := Vector.replicate 1019 0

/-- A built table, or an empty one where the build fails. -/
def builtTable (a : Alphabet) (lens : List CodeLen) : HufTable :=
  match build (2 ^ Config.tableBits a) a lens arena0 arena0 with
  | .ok b => tableOf a 0 lens b
  | .error _ => HufTable.none

/-- What a degenerate table of an alphabet is (R131). -/
def constTable (a : Alphabet) (v : Nat) : HufTable := { HufTable.none with alph := a, degen := true, const := v }

/-- R56: `SRC[0..3]` = 01 02 00 00 is 0x201; P1's header is 12 and 6. -/
theorem test_decode_hdr :
    decode .fault HufTable.none .frame (bitsOfBytes [0x01, 0x02, 0, 0, 0x06, 0, 0, 0]) = .ok (.hdr 0x201 6, []) := by rfl
theorem test_decode_blkhdr : decode .fault HufTable.none .blkCount
    [false, false, false, false, false, false, false, false, false, false, false, false, false, false, true, false]
    = .ok (.blkhdr 2, []) := by rfl
theorem test_decode_tCnt : decode .fault HufTable.none .tCount [false, false, true, false, false] = .ok (.tCnt 4, []) := by rfl
theorem test_decode_tDegen : decode .fault HufTable.none .tDegen [true, true, false, false, true] = .ok (.tDegen 25, []) := by rfl
theorem test_decode_pCnt : decode .fault HufTable.none (.pCount .tiano) [false, true, false, true, false] = .ok (.pCnt .tiano 10, []) := by rfl
theorem test_decode_pDegen :
    decode .fault HufTable.none (.pDegen .classic) [false, false, true, true, true] = .ok (.pDegen .classic 3, [true]) := by rfl
theorem test_decode_lenShort : decode .fault HufTable.none .ptEntry [true, true, false] = .ok (.lenShort 6, []) := by rfl
theorem test_decode_lenLong : decode .fault HufTable.none .ptEntry [true, true, true, true, false] = .ok (.lenLong 1, []) := by rfl
/-- 95 section 2.4, last row: no zero bit ends the tail. -/
theorem test_decode_lenLong_endless :
    decode .fault HufTable.none .ptEntry [true, true, true, true, true] = .error (.exhausted []) := by rfl
theorem test_decode_zrun2 : decode .fault HufTable.none .ptZrun [true, true] = .ok (.zrun2 3, []) := by rfl
theorem test_decode_cCnt :
    decode .fault HufTable.none .cCount [true, false, false, false, false, false, false, true, true] = .ok (.cCnt 259, []) := by rfl
theorem test_decode_cDegen :
    decode .fault HufTable.none .cDegen [true, true, true, true, true, true, true, true, true] = .ok (.cDegen 511, []) := by rfl
theorem test_decode_tZero : decode .fault (constTable .t 0) .cEntry [true] = .ok (.tZero, [true]) := by rfl
theorem test_decode_tRun4 :
    decode .fault (constTable .t 1) .cEntry [false, false, true, false] = .ok (.tRun4 2, []) := by rfl
/-- P1 bits 45 to 53. -/
theorem test_decode_tRun9 : decode .fault (constTable .t 2) .cEntry
    [false, false, false, true, false, true, true, false, true] = .ok (.tRun9 45, []) := by rfl
theorem test_decode_tLen : decode .fault (constTable .t 25) .cEntry [] = .ok (.tLen 25, []) := by rfl
theorem test_decode_lit : decode .fault (constTable .c 0x41) .symbol [] = .ok (.lit 0x41, []) := by rfl
theorem test_decode_backref : decode .fault (constTable .c 511) .symbol [] = .ok (.backref 511, []) := by rfl
theorem test_decode_pos0 : decode .fault (constTable .p 0) .dist [] = .ok (.pos0, []) := by rfl
theorem test_decode_pos1 : decode .fault (constTable .p 1) .dist [] = .ok (.pos1, []) := by rfl
/-- 95 section 2.7: a constant of 3 and suffix `01`. -/
theorem test_decode_posN : decode .fault (constTable .p 3) .dist [false, true] = .ok (.posN 3 1, []) := by rfl

/-- 95 section 2.2, rows 5' and 5'': PEEK(12) with 8 bits left. -/
theorem test_peek_past_end : peekBits .fault 12 (bitsOf 8 0x0f) = .error (.exhausted (bitsOf 8 0x0f)) ∧
    peekBits .zeroFill 12 (bitsOf 8 0x0f) = .ok 0x0f0 := by decide

/-! ## The table builder (95 H1, H3, E3, H9) -/

theorem test_build_H1 : ((builtTable .t lensH1).fix.getD 127 9, (builtTable .t lensH1).fix.getD 128 9,
    (builtTable .t lensH1).fix.getD 223 9, (builtTable .t lensH1).fix.getD 224 9) = (0, 1, 2, 3) := by decide +kernel
/-- A symbol that goes through the trie: 10 is `1111111111`. -/
theorem test_lookup_H3 :
    (match decode .fault (builtTable .p lensH3) .dist (List.replicate 10 true ++ bitsOf 9 1 ++ [true]) with
      | .ok (i, rest) => decide (i = .posN 10 1 ∧ rest = [true])
      | .error _ => false) = true := by decide +kernel
theorem test_check_complete : checkLens [1, 1] = none := by decide
theorem test_check_incomplete : checkLens [1] = some .badCodeSet := by decide
theorem test_check_oversubscribed : checkLens [1, 1, 1, 1] = some .badCodeSet := by decide
theorem test_check_empty : checkLens [0, 0, 0] = some .badCodeSet := by decide
theorem test_check_too_long : checkLens [17, 1, 1] = some .lengthTooLong := by decide

/-! ## One step -/

/-- What a next state says of one field; 0 tagged with false where there is none. -/
def after (o : Out) (f : State → Nat) : Bool × Nat :=
  match o with
  | .next t => (true, f t)
  | .fault _ => (false, 0)
  | .refused _ => (false, 0)

/-- P1 loaded, the engine at a phase and a cursor. -/
def p1At (p : Phase) (bit : Nat) : State :=
  { State.reset with busy := true, phase := p, bitPos := BitVec.ofNat 35 bit, src := Memory.ofBytes 0 p1Bytes,
                     srcLen := 20, srcCap := 20, dstLen := 6, dstCap := 6 }

/-- A job in a session over a source of zero bits, every table degenerate. -/
def mid (p : Phase) : State :=
  { State.reset with busy := true, phase := p, srcLen := 40, srcCap := 40, dstLen := 6, dstCap := 6, outLen := 2,
                     remain := 3, cnt := 5, idx := 3, cpyLen := 5, cpySrc := 1, ptDegen := true, cDegen := true,
                     cConst := 0x41 }

/-- `mid` at a generic constant. -/
def midT (p : Phase) (v : BitVec 5) : State := { mid p with ptConst := v }

/-- P1's trace: the session starts; BLKHDR @16; T count @21; its entries; ZRUN; the C count. -/
theorem test_step_hdr : after (step (p1At .frame 0)) (fun t => t.statusWord.toNat) = (true, 1) ∧
    after (step (p1At .frame 0)) (fun t => if t.phase = .symbol then 1 else 0) = (true, 1) := by decide +kernel
theorem test_step_blkhdr : after (step (p1At .blkCount 0)) (fun t => t.remain.toNat) = (true, 2) ∧
    after (step (p1At .blkCount 0)) (fun t => t.bitPos.toNat) = (true, 16) := by decide +kernel
theorem test_step_tCnt : after (step (p1At .ptCount 16)) (fun t => t.cnt.toNat) = (true, 4) ∧
    after (step (p1At .ptCount 16)) (fun t => t.bitPos.toNat) = (true, 21) := by decide +kernel
theorem test_step_lenShort :
    after (step { p1At .ptEntry 27 with cnt := 4, idx := 2 }) (fun t => (t.ptLen.toList.getD 2 9).toNat) = (true, 1) ∧
    after (step { p1At .ptEntry 27 with cnt := 4, idx := 2 }) (fun t => if t.phase = .ptZrun then 1 else 0) = (true, 1) := by
  decide +kernel
theorem test_step_zrun2 :
    after (step { p1At .ptZrun 30 with cnt := 4, idx := 3 }) (fun t => t.idx.toNat) = (true, 3) := by decide +kernel
theorem test_step_cCnt : after (step (p1At .cCount 35)) (fun t => t.cnt.toNat) = (true, 259) := by decide +kernel
/-- P1 bits 66 to 73: the P count 0 and its constant 0 in one step, then the symbols. -/
theorem test_step_pDegen :
    after (step { p1At .ptCount 66 with alph := .p }) (fun t => t.bitPos.toNat) = (true, 74) ∧
    after (step { p1At .ptCount 66 with alph := .p }) (fun t => if t.ptDegen ∧ t.phase = .symbol then 1 else 0) = (true, 1) := by
  decide +kernel
/-- 95 section 2.4: a length of 17 is kept as 17 and one of 30 saturates (R36). -/
theorem test_lenLong_saturates :
    after (exec (.lenLong 23) (mid .ptEntry)) (fun t => (t.ptLen.toList.getD 3 9).toNat) = (true, 17) := by decide +kernel
theorem test_tDegen : after (exec (.tDegen 25) { mid .ptCount with cnt := 0 }) (fun t => t.ptConst.toNat) = (true, 25) := by
  decide +kernel
theorem test_pCnt : after (exec (.pCnt .classic 5) { mid .ptCount with alph := .p }) (fun t => t.bitPos.toNat) = (true, 4) := by
  decide +kernel
theorem test_cDegen : after (exec (.cDegen 258) { mid .cCount with cnt := 0 }) (fun t => t.cConst.toNat) = (true, 258) := by
  decide +kernel
theorem test_tZero : after (exec .tZero (mid .cEntry)) (fun t => t.idx.toNat) = (true, 4) := by decide +kernel
theorem test_tRun4 : after (exec (.tRun4 2) (midT .cEntry 1)) (fun t => t.idx.toNat) = (true, 8) := by decide +kernel
/-- B5b: the run is clamped at slot 510. -/
theorem test_tRun9 : after (exec (.tRun9 511) { midT .cEntry 2 with idx := 0 }) (fun t => t.idx.toNat) = (true, 510) := by
  decide +kernel
/-- B4: T symbol 25 is length 23, kept as 17. -/
theorem test_tLen : after (exec (.tLen 25) { midT .cEntry 25 with idx := 0 }) (fun t => (t.cLen.toList.getD 0 9).toNat) = (true, 17) := by
  decide +kernel
theorem test_lit : after (exec (.lit 0x41) (mid .symbol)) (fun t => (t.dst.read 2).toNat) = (true, 0x41) := by decide +kernel
/-- 90 C6: the constant 511 gives length 258. -/
theorem test_backref : after (exec (.backref 511) { mid .symbol with cConst := 511 }) (fun t => t.cpyLen.toNat) = (true, 258) := by
  decide +kernel
theorem test_pos0 : after (exec .pos0 (mid .dist)) (fun t => t.cpySrc.toNat) = (true, 1) := by decide +kernel
/-- O1: distance 1 at OUT_LEN 2 copies from index 0. -/
theorem test_pos1 : after (exec .pos1 (midT .dist 1)) (fun t => t.cpySrc.toNat) = (true, 0) := by decide +kernel
/-- Q1 and Q2: at OUT_LEN 5, distance 4 copies from index 0 and distance 5 is malformed. -/
theorem test_posN : after (exec (.posN 3 0) { midT .dist 3 with outLen := 5 }) (fun t => t.cpySrc.toNat) = (true, 0) ∧
    after (exec (.posN 3 1) { midT .dist 3 with outLen := 5 }) (fun t => t.statusWord.toNat) = (true, 0xE) := by
  decide +kernel
/-- P4: distance 1 at OUT_LEN 1. -/
theorem test_pos1_malformed :
    after (exec .pos1 { midT .dist 1 with outLen := 1 }) (fun t => t.statusWord.toNat) = (true, 0xE) := by decide +kernel
/-- 95 F2, F4: the header's errors. -/
theorem test_hdr_csize :
    after (exec (.hdr 9 1) { State.reset with phase := .frame, srcLen := 8, dstLen := 1 }) (fun t => t.statusWord.toNat) = (true, 6) ∧
    after (exec (.hdr 0 5) { State.reset with phase := .frame, srcLen := 8, dstLen := 4 }) (fun t => t.statusWord.toNat) = (true, 0xA) := by
  decide +kernel
/-- A word placed for the host's question: the first step after reset runs it. -/
theorem test_fetch_word :
    after (step (State.reset.withFetchWord 16 0x4000)) (fun t => t.remain.toNat) = (true, 2) := by decide +kernel

/-! ## One state and operands for each statement's hypotheses -/

/-- Every `mid` state is sound, but at IDLE and FRAME. -/
theorem mid_inv (p : Phase) (h : p ≠ .idle ∧ p ≠ .frame) : (mid p).Inv := by
  constructor <;> simp [mid, State.reset, Memory.wf, Memory.within, State.totalBits, h]

/-- A job about to read its header. -/
def start : State :=
  { State.reset with busy := true, phase := .frame, srcLen := 40, srcCap := 40, dstLen := 6, dstCap := 6 }

theorem start_inv : start.Inv := by
  constructor <;> simp [start, State.reset, Memory.wf, Memory.within]

/-- The third entry of a T array is next. -/
def thirdEntry : State := { mid .ptEntry with idx := 2 }

theorem thirdEntry_inv : thirdEntry.Inv := by
  constructor <;> simp [thirdEntry, mid, State.reset, Memory.wf, Memory.within, State.totalBits]

/-- The last entry of an array of 31 is next. -/
def lastEntry : State := { mid .ptEntry with cnt := 31, idx := 30 }

theorem lastEntry_inv : lastEntry.Inv := by
  constructor <;> simp [lastEntry, mid, State.reset, Memory.wf, Memory.within, State.totalBits]

/-- The last C slot is next, the count beyond it. -/
def lastSlot : State := { mid .cEntry with cnt := 511, idx := 509 }

theorem lastSlot_inv : lastSlot.Inv := by
  constructor <;> simp [lastSlot, mid, State.reset, Memory.wf, Memory.within, State.totalBits]

theorem reset_inv : State.reset.Inv := by
  constructor <;> simp [State.reset, Memory.wf, Memory.within]

/-- A complete T or P array: two codewords of one bit. -/
def lens2 : Vector CodeLen 31 := setEntry (setEntry (Vector.replicate 31 0) 0 1) 1 1

/-- A complete C array: two codewords of one bit. -/
def lensC2 : Vector CodeLen 510 := setEntry (setEntry (Vector.replicate 510 0) 0x41 1) 0x42 1

theorem lens2_builds : checkLens (lens2.toList.take 19) = none ∧ checkLens (lens2.toList.take 31) = none := by decide +kernel
theorem lensC2_builds : checkLens (lensC2.toList.take 510) = none := by decide +kernel

theorem build_of_check {n : Nat} {a : Alphabet} {lens : List CodeLen}
    (h : checkLens (lens.take (Config.numSymbols a)) = none) : ∃ b, build n a lens arena0 arena0 = .ok b := by
  unfold build
  rw [h]
  exact ⟨_, rfl⟩

theorem build_of_failed_check {n : Nat} {a : Alphabet} {lens : List CodeLen} {c : Cause}
    (h : checkLens (lens.take (Config.numSymbols a)) = some c) : build n a lens arena0 arena0 = .error c := by
  unfold build
  rw [h]

theorem witness_FieldElementsRoundTrip :
    (Instr.hdr 0xFFFFFFFF 0).wf = true ∧ (Instr.hdr 0xFFFFFFFF 0).codeSymbol = none ∧
    (Instr.pCnt .classic 15).wf = true ∧ (Instr.pCnt .classic 15).codeSymbol = none ∧
    (Instr.lenShort 6).wf = true ∧ (Instr.lenShort 6).codeSymbol = none ∧
    (Instr.lenLong 0).wf = true ∧ (Instr.lenLong 0).codeSymbol = none := by decide

theorem witness_DegenerateCodewordRoundTrip :
    ((Instr.posN 31 0x3FFFFFFF).wf = true ∧ (Instr.posN 31 0x3FFFFFFF).codeSymbol = some 31 ∧
      (constTable .p 31).degen = true ∧ (constTable .p 31).const = 31) ∧
    ((Instr.backref 511).wf = true ∧ (Instr.backref 511).codeSymbol = some 511 ∧
      (constTable .c 511).degen = true ∧ (constTable .c 511).const = 511) := by decide

/-- Under `Fault`, a codeword of the trie with its lookahead there. -/
theorem witness_BuiltTableRoundTrip_fault :
    ∃ b : BuildState (2 ^ Config.tableBits (Instr.posN 10 511).place.alphabet),
      (Instr.posN 10 511).wf = true ∧ (Instr.posN 10 511).codeSymbol = some 10 ∧
      10 < Config.numSymbols (Instr.posN 10 511).place.alphabet ∧ 0 < (lensH3.getD 10 0).toNat ∧
      build _ (Instr.posN 10 511).place.alphabet lensH3 arena0 arena0 = .ok b ∧
      Config.tableBits (Instr.posN 10 511).place.alphabet ≤
        (encode (tableOf (Instr.posN 10 511).place.alphabet 0 lensH3 b) (.posN 10 511)
          ++ List.replicate 8 false).length := by
  obtain ⟨b, hb⟩ := build_of_check (n := 2 ^ Config.tableBits .p) (a := .p) (lens := lensH3) (by decide +kernel)
  exact ⟨b, by decide, by decide, by decide, by decide, hb, by
    simp only [List.length_append, List.length_replicate]; exact Nat.le_add_left 8 _⟩
/-- Under `ZeroFill`, a codeword of one bit and nothing after it: fewer bits than the lookahead (95 P1, minimal padding). -/
theorem witness_BuiltTableRoundTrip_zeroFill :
    ∃ b : BuildState (2 ^ Config.tableBits (Instr.place .tZero).alphabet),
      Instr.tZero.wf = true ∧ Instr.tZero.codeSymbol = some 0 ∧ 0 < Config.numSymbols (Instr.place .tZero).alphabet ∧
      0 < (lensH1.getD 0 0).toNat ∧ build _ (Instr.place .tZero).alphabet lensH1 arena0 arena0 = .ok b ∧
      PeekPastEnd.zeroFill ≠ .fault ∧
      (encode (tableOf (Instr.place .tZero).alphabet 0 lensH1 b) .tZero ++ []).length = 1 := by
  obtain ⟨b, hb⟩ := build_of_check (n := 2 ^ Config.tableBits .t) (a := .t) (lens := lensH1) (by decide +kernel)
  exact ⟨b, by decide, by decide, by decide, by decide, hb, by decide, by
    rw [List.append_nil]; exact HufTable.length_codeword _ 0⟩

theorem witness_BuiltTableHasNoReachableEmpty :
    ∃ b : BuildState (2 ^ Config.tableBits .t), build _ .t lensH1 arena0 arena0 = .ok b :=
  build_of_check (by decide +kernel)

theorem witness_FetchedElementIsSelected :
    (p1At .blkCount 0).fetch .blkCount = .ok (.blkhdr 2, (p1At .blkCount 16).bits) := by rfl

theorem witness_FetchedElementHasRoom :
    Place.blkCount ≠ .frame ∧ (p1At .blkCount 0).bitPos.toNat ≤ (p1At .blkCount 0).totalBits ∧
    (p1At .blkCount 0).fetch .blkCount = .ok (.blkhdr 2, (p1At .blkCount 16).bits) :=
  ⟨by decide, by decide, rfl⟩

theorem witness_StepRunsDecodedElement_frame :
    start.host = [] ∧ start.isAt .frame = true ∧ start.fetch .frame = .ok (.hdr 0 0, []) := ⟨rfl, rfl, rfl⟩
theorem witness_StepRunsDecodedElement_blkCount :
    (mid .blkCount).host = [] ∧ (mid .blkCount).isAt .blkCount = true ∧
    ∃ rest, (mid .blkCount).fetch .blkCount = .ok (.blkhdr 0, rest) := ⟨rfl, rfl, _, rfl⟩
theorem witness_StepRunsDecodedElement_ptEntry :
    (mid .ptEntry).host = [] ∧ (mid .ptEntry).isAt .ptEntry = true ∧
    ∃ rest, (mid .ptEntry).fetch .ptEntry = .ok (.lenShort 0, rest) := ⟨rfl, rfl, _, rfl⟩
theorem witness_StepRunsDecodedElement_ptZrun :
    (mid .ptZrun).host = [] ∧ (mid .ptZrun).isAt .ptZrun = true ∧
    ∃ rest, (mid .ptZrun).fetch .ptZrun = .ok (.zrun2 0, rest) := ⟨rfl, rfl, _, rfl⟩
theorem witness_StepRunsDecodedElement_cEntry :
    (mid .cEntry).host = [] ∧ (mid .cEntry).isAt .cEntry = true ∧
    ∃ rest, (mid .cEntry).fetch .cEntry = .ok (.tZero, rest) := ⟨rfl, rfl, _, rfl⟩
theorem witness_StepRunsDecodedElement_symbol :
    (mid .symbol).host = [] ∧ (mid .symbol).isAt .symbol = true ∧
    ∃ rest, (mid .symbol).fetch .symbol = .ok (.lit 0x41, rest) := ⟨rfl, rfl, _, rfl⟩
theorem witness_StepRunsDecodedElement_dist :
    (mid .dist).host = [] ∧ (mid .dist).isAt .dist = true ∧
    ∃ rest, (mid .dist).fetch .dist = .ok (.pos0, rest) := ⟨rfl, rfl, _, rfl⟩

/-- A count above 0 at T: P1's. -/
theorem witness_CountStepRunsCountThenConstant_count :
    (p1At .ptCount 16).host = [] ∧ (p1At .ptCount 16).isAt .tCount = true ∧
    ∃ rest t, (p1At .ptCount 16).fetch .tCount = .ok (.tCnt 4, rest) ∧ exec (.tCnt 4) (p1At .ptCount 16) = .next t ∧
      t.phase ≠ (p1At .ptCount 16).phase := ⟨rfl, rfl, _, _, rfl, rfl, by decide⟩
/-- A count of 0 at T, and the constant after it. -/
theorem witness_CountStepRunsCountThenConstant_T :
    (mid .ptCount).host = [] ∧ (mid .ptCount).isAt .tCount = true ∧
    ∃ rest t rest', (mid .ptCount).fetch .tCount = .ok (.tCnt 0, rest) ∧ exec (.tCnt 0) (mid .ptCount) = .next t ∧
      t.phase = (mid .ptCount).phase ∧ t.fetch .tDegen = .ok (.tDegen 0, rest') := ⟨rfl, rfl, _, _, _, rfl, rfl, rfl, rfl⟩
/-- The same at P. -/
theorem witness_CountStepRunsCountThenConstant_P :
    ({ mid .ptCount with alph := .p } : State).host = [] ∧
    ({ mid .ptCount with alph := .p } : State).isAt (.pCount .classic) = true ∧
    ∃ rest t rest', ({ mid .ptCount with alph := .p } : State).fetch (.pCount .classic) = .ok (.pCnt .classic 0, rest) ∧
      exec (.pCnt .classic 0) { mid .ptCount with alph := .p } = .next t ∧ t.phase = .ptCount ∧
      t.fetch (.pDegen .classic) = .ok (.pDegen .classic 0, rest') := ⟨rfl, rfl, _, _, _, rfl, rfl, rfl, rfl⟩
/-- The same at C. -/
theorem witness_CountStepRunsCountThenConstant_C :
    (mid .cCount).host = [] ∧ (mid .cCount).isAt .cCount = true ∧
    ∃ rest t rest', (mid .cCount).fetch .cCount = .ok (.cCnt 0, rest) ∧ exec (.cCnt 0) (mid .cCount) = .next t ∧
      t.phase = (mid .cCount).phase ∧ t.fetch .cDegen = .ok (.cDegen 0, rest') := ⟨rfl, rfl, _, _, _, rfl, rfl, rfl, rfl⟩

theorem witness_UnselectedElementsAreRefused :
    (Instr.lenShort 7).wf = false ∧ (mid .symbol).isAt (Instr.place .pos0) = false ∧
    ({ mid .symbol with remain := 0 } : State).isAt (Instr.place (.lit 0)) = false := by decide

/-- The third entry of a T array; the last entry of an array; the zero-run; the last C slot. -/
theorem witness_ArrayLoopsEndExactlyAtTheirCount_ptEntry :
    thirdEntry.Inv ∧ thirdEntry.host = [] ∧ thirdEntry.phase = .ptEntry ∧
    (∃ t, step thirdEntry = .next t ∧ t.busy = true ∧ t.phase = .ptZrun) ∧
    lastEntry.Inv ∧ lastEntry.host = [] ∧ lastEntry.phase = .ptEntry ∧
    (∃ t, step lastEntry = .next t ∧ t.busy = true ∧ t.phase = .ptBuild) :=
  ⟨thirdEntry_inv, rfl, rfl, ⟨_, rfl, rfl, rfl⟩, lastEntry_inv, rfl, rfl, _, rfl, rfl, rfl⟩
theorem witness_ArrayLoopsEndExactlyAtTheirCount_ptZrun :
    (mid .ptZrun).Inv ∧ (mid .ptZrun).host = [] ∧ (mid .ptZrun).phase = .ptZrun ∧
    ∃ t, step (mid .ptZrun) = .next t ∧ t.busy = true := ⟨mid_inv _ (by decide), rfl, rfl, _, rfl, rfl⟩
theorem witness_ArrayLoopsEndExactlyAtTheirCount_cEntry :
    lastSlot.Inv ∧ lastSlot.host = [] ∧ lastSlot.phase = .cEntry ∧
    ∃ t, step lastSlot = .next t ∧ t.busy = true ∧ t.idx = 510 ∧ t.phase = .cBuild :=
  ⟨lastSlot_inv, rfl, rfl, _, rfl, rfl, rfl, rfl⟩

/-- The last bit of P1's payload, and the index after it. -/
theorem witness_UnreadBitsAreThePayload :
    (p1At .symbol 74).bitPos.toNat ≤ (p1At .symbol 74).totalBits ∧
    (p1At .symbol 74).bitPos.toNat + 21 < 8 * ((p1At .symbol 74).srcLen.toNat - 8) ∧
    8 * ((p1At .symbol 74).srcLen.toNat - 8) ≤ (p1At .symbol 74).bitPos.toNat + 22 := by decide

theorem witness_PopReadsMostSignificantFirst : 8 ≤ (bitsOf 8 0xa5).length ∧ (bitsOf 8 0xa5).length < 9 := by decide

theorem witness_PeekFollowsTheParameter :
    8 ≤ (bitsOf 8 0x0f).length ∧ (bitsOf 8 0x0f).length < 12 ∧ PeekPastEnd.zeroFill = .zeroFill ∧
    PeekPastEnd.fault = .fault := by decide

theorem witness_HeaderFieldsAreLittleEndian :
    (p1At .frame 0).host = [] ∧ (p1At .frame 0).phase = .frame ∧ 8 ≤ (p1At .frame 0).srcLen.toNat ∧
    ({ State.reset with phase := .frame, srcLen := 8 } : State).host = [] ∧
    8 ≤ ({ State.reset with phase := .frame, srcLen := 8 } : State).srcLen.toNat := by decide

/-- Each check of the header at its boundary (95 F1, F2, F8, F4, P1). -/
theorem witness_HeaderChecksInOrder :
    start.phase = .frame ∧
    ({ start with srcLen := 7 } : State).srcLen.toNat < 8 ∧
    (8 ≤ ({ start with srcLen := 8 } : State).srcLen.toNat ∧
      ({ start with srcLen := 8 } : State).srcLen.toNat < (9 : BitVec 32).toNat) ∧
    (8 ≤ start.srcLen.toNat ∧ (40 : BitVec 32).toNat ≤ start.srcLen.toNat ∧ (0 : BitVec 32) = 0) ∧
    ((5 : BitVec 32) ≠ 0 ∧ (5 : BitVec 32) ≠ start.dstLen) ∧
    ((6 : BitVec 32) ≠ 0 ∧ (6 : BitVec 32) = start.dstLen) := by decide

theorem witness_EmptyOutputSucceedsAtOnce :
    start.Inv ∧ start.host = [] ∧ start.phase = .frame ∧ 8 ≤ start.srcLen.toNat ∧
    start.src.le32 0 ≤ start.srcLen.toNat ∧ start.src.le32 4 = 0 :=
  ⟨start_inv, rfl, rfl, by decide, by decide, by decide⟩

theorem witness_BlockHeaderLoadsRemain :
    (mid .blkCount).phase = .blkCount ∧ (mid .blkCount).bitPos.toNat + 16 ≤ (mid .blkCount).totalBits ∧
    ({ mid .blkCount with bitPos := 240 } : State).bitPos.toNat + 16 =
      ({ mid .blkCount with bitPos := 240 } : State).totalBits := by decide

theorem witness_SymbolDispatch :
    ({ mid .symbol with remain := 0 } : State).host = [] ∧ ({ mid .symbol with remain := 0 } : State).phase = .symbol ∧
    ({ mid .symbol with remain := 0 } : State).remain = 0 ∧ (mid .symbol).phase = .symbol ∧ (mid .symbol).host = [] ∧
    (mid .symbol).remain ≠ 0 ∧ ∃ rest, (mid .symbol).fetch .symbol = .ok (.lit 0x41, rest) :=
  ⟨rfl, rfl, rfl, rfl, rfl, by decide, _, rfl⟩

theorem witness_LiteralWritesOneByte :
    (mid .symbol).phase = .symbol ∧ (mid .symbol).remain ≠ 0 ∧ (mid .symbol).roomFor (.lit 0x41) ∧
    (mid .symbol).outLen.toNat < (mid .symbol).dstLen.toNat ∧ (mid .symbol).outLen + 1 ≠ (mid .symbol).dstLen ∧
    ({ mid .symbol with outLen := 5 } : State).roomFor (.lit 0x41) ∧
    ({ mid .symbol with outLen := 5 } : State).outLen.toNat < ({ mid .symbol with outLen := 5 } : State).dstLen.toNat ∧
    ({ mid .symbol with outLen := 5 } : State).outLen + 1 = ({ mid .symbol with outLen := 5 } : State).dstLen := by
  decide +kernel

theorem witness_BackrefLoadsCopyLength :
    (mid .symbol).phase = .symbol ∧ (mid .symbol).remain ≠ 0 ∧ 256 ≤ (256 : BitVec 9).toNat ∧
    (mid .symbol).roomFor (.backref 256) ∧ 256 ≤ (511 : BitVec 9).toNat ∧ (mid .symbol).roomFor (.backref 511) := by
  decide +kernel

/-- The largest distance that passes at OUT_LEN 5 is 4. -/
theorem witness_PositionsAimTheCopy :
    (mid .dist).phase = .dist ∧ (mid .dist).roomFor .pos0 ∧ 1 ≤ (mid .dist).outLen.toNat ∧
    (mid .dist).roomFor .pos1 ∧ 2 ≤ (mid .dist).outLen.toNat ∧
    (2 ≤ (3 : BitVec 5).toNat ∧ (0 : BitVec 30).toNat < 2 ^ ((3 : BitVec 5).toNat - 1) ∧
      ({ mid .dist with outLen := 5 } : State).roomFor (.posN 3 0) ∧
      2 ^ ((3 : BitVec 5).toNat - 1) + (0 : BitVec 30).toNat < ({ mid .dist with outLen := 5 } : State).outLen.toNat) := by
  decide +kernel

/-- The smallest distance that fails at OUT_LEN 5 is 5. -/
theorem witness_DistanceBeyondOutputIsMalformed :
    (mid .dist).phase = .dist ∧
    (({ mid .dist with outLen := 0 } : State).roomFor .pos0 ∧ ({ mid .dist with outLen := 0 } : State).outLen.toNat = 0) ∧
    (({ mid .dist with outLen := 1 } : State).roomFor .pos1 ∧ ({ mid .dist with outLen := 1 } : State).outLen.toNat ≤ 1) ∧
    (2 ≤ (3 : BitVec 5).toNat ∧ (1 : BitVec 30).toNat < 2 ^ ((3 : BitVec 5).toNat - 1) ∧
      ({ mid .dist with outLen := 5 } : State).roomFor (.posN 3 1) ∧
      ({ mid .dist with outLen := 5 } : State).outLen.toNat ≤ 2 ^ ((3 : BitVec 5).toNat - 1) + (1 : BitVec 30).toNat) := by
  decide +kernel

/-- A copy whose next byte fills DST. -/
def lastCopy : State := { mid .copy with outLen := 5 }

theorem lastCopy_inv : lastCopy.Inv := by
  constructor <;> simp [lastCopy, mid, State.reset, Memory.wf, Memory.within, State.totalBits]

theorem witness_CopyMovesOneByte :
    ((mid .copy).Inv ∧ (mid .copy).host = [] ∧ (mid .copy).phase = .copy ∧ (mid .copy).outLen + 1 ≠ (mid .copy).dstLen) ∧
    (lastCopy.Inv ∧ lastCopy.host = [] ∧ lastCopy.phase = .copy ∧ lastCopy.outLen + 1 = lastCopy.dstLen) :=
  ⟨⟨mid_inv _ (by decide), rfl, rfl, by decide⟩, lastCopy_inv, rfl, rfl, by decide⟩

/-- Three bytes with period 1 (`d` = 0): P1's overlap. -/
theorem witness_OverlappingCopyIsPeriodic :
    (mid .copy).Inv ∧ (mid .copy).host = [] ∧ (mid .copy).phase = .copy ∧ 3 ≤ (mid .copy).cpyLen.toNat ∧
    (mid .copy).outLen.toNat + 3 < (mid .copy).dstLen.toNat ∧ 1 < 3 :=
  ⟨mid_inv _ (by decide), rfl, rfl, by decide, by decide, by decide⟩

theorem witness_GenericCountClearsTheArray :
    (mid .ptCount).phase = .ptCount ∧ (mid .ptCount).alph = .t ∧ (mid .ptCount).bitPos.toNat + 5 ≤ (mid .ptCount).totalBits ∧
    (({ mid .ptCount with alph := .p } : State).var = .classic ∧ ({ mid .ptCount with alph := .p } : State).alph = .p ∧
      (15 : BitVec 5).toNat < 2 ^ 4 ∧ ({ mid .ptCount with alph := .p } : State).bitPos.toNat + 4 ≤
        ({ mid .ptCount with alph := .p } : State).totalBits) ∧
    (({ mid .ptCount with alph := .p, var := .tiano } : State).var = .tiano ∧
      ({ mid .ptCount with alph := .p, var := .tiano } : State).alph = .p ∧ (31 : BitVec 5).toNat < 2 ^ 5 ∧
      ({ mid .ptCount with alph := .p, var := .tiano } : State).bitPos.toNat + 5 ≤
        ({ mid .ptCount with alph := .p, var := .tiano } : State).totalBits) := by decide

theorem witness_GenericConstantMakesTheTableDegenerate :
    ({ mid .ptCount with cnt := 0 } : State).phase = .ptCount ∧ ({ mid .ptCount with cnt := 0 } : State).cnt = 0 ∧
    ({ mid .ptCount with cnt := 0 } : State).alph = .t ∧
    ({ mid .ptCount with cnt := 0 } : State).bitPos.toNat + 5 ≤ ({ mid .ptCount with cnt := 0 } : State).totalBits ∧
    (({ mid .ptCount with cnt := 0, alph := .p } : State).var = .classic ∧ (15 : BitVec 5).toNat < 2 ^ 4 ∧
      ({ mid .ptCount with cnt := 0, alph := .p } : State).bitPos.toNat + 4 ≤
        ({ mid .ptCount with cnt := 0, alph := .p } : State).totalBits) ∧
    (({ mid .ptCount with cnt := 0, alph := .p, var := .tiano } : State).var = .tiano ∧ (31 : BitVec 5).toNat < 2 ^ 5 ∧
      ({ mid .ptCount with cnt := 0, alph := .p, var := .tiano } : State).bitPos.toNat + 5 ≤
        ({ mid .ptCount with cnt := 0, alph := .p, var := .tiano } : State).totalBits) := by decide

/-- The third entry of T, and the last slot. -/
theorem witness_LengthEntryFillsOneSlot :
    ((6 : BitVec 3).toNat ≠ 7 ∧ ({ mid .ptEntry with idx := 2 } : State).phase = .ptEntry ∧
      ({ mid .ptEntry with idx := 2 } : State).idx.toNat < ({ mid .ptEntry with idx := 2 } : State).cnt.toNat ∧
      ({ mid .ptEntry with idx := 2 } : State).idx.toNat < 31 ∧
      ({ mid .ptEntry with idx := 2 } : State).roomFor (.lenShort 6)) ∧
    (({ mid .ptEntry with cnt := 31, idx := 30 } : State).idx.toNat < ({ mid .ptEntry with cnt := 31, idx := 30 } : State).cnt.toNat ∧
      ({ mid .ptEntry with cnt := 31, idx := 30 } : State).idx.toNat < 31 ∧
      ({ mid .ptEntry with cnt := 31, idx := 30 } : State).roomFor (.lenLong 10)) := by decide +kernel

theorem witness_ZeroRunSkipsSlots :
    (mid .ptZrun).phase = .ptZrun ∧ (mid .ptZrun).bitPos.toNat + 2 ≤ (mid .ptZrun).totalBits := by decide

theorem witness_CharCountAndConstant :
    (mid .cCount).phase = .cCount ∧ (mid .cCount).bitPos.toNat + 9 ≤ (mid .cCount).totalBits ∧
    ({ mid .cCount with cnt := 0 } : State).phase = .cCount ∧ ({ mid .cCount with cnt := 0 } : State).cnt = 0 ∧
    ({ mid .cCount with cnt := 0 } : State).bitPos.toNat + 9 ≤ ({ mid .cCount with cnt := 0 } : State).totalBits := by decide

theorem witness_ZeroRunsSkipCharSlots :
    (mid .cEntry).phase = .cEntry ∧ (mid .cEntry).idx.toNat < (mid .cEntry).cnt.toNat ∧ (mid .cEntry).idx.toNat < 510 ∧
    (mid .cEntry).roomFor .tZero ∧ (mid .cEntry).roomFor (.tRun4 15) ∧ (mid .cEntry).roomFor (.tRun9 511) := by
  decide +kernel

theorem witness_LengthSymbolFillsOneCharSlot :
    ({ mid .cEntry with cnt := 511, idx := 509 } : State).phase = .cEntry ∧
    ({ mid .cEntry with cnt := 511, idx := 509 } : State).idx.toNat < ({ mid .cEntry with cnt := 511, idx := 509 } : State).cnt.toNat ∧
    ({ mid .cEntry with cnt := 511, idx := 509 } : State).idx.toNat < 510 ∧ 3 ≤ (3 : BitVec 5).toNat ∧
    ({ mid .cEntry with cnt := 511, idx := 509 } : State).roomFor (.tLen 3) := by decide +kernel

/-- 95 E3: 17, 1, 1; 1, 1, 1, 1; 1, 1. -/
theorem witness_BuildAcceptsExactlyCompleteCodes :
    (∃ l ∈ ([17, 1, 1] : List CodeLen).take (Config.numSymbols .t), 16 < l.toNat) ∧
    ((∀ l ∈ ([1, 1, 1, 1] : List CodeLen).take (Config.numSymbols .t), l.toNat ≤ 16) ∧
      codeSpace (([1, 1, 1, 1] : List CodeLen).take (Config.numSymbols .t)) ≠ 65536) ∧
    ((∀ l ∈ ([1, 1] : List CodeLen).take (Config.numSymbols .t), l.toNat ≤ 16) ∧
      codeSpace (([1, 1] : List CodeLen).take (Config.numSymbols .t)) = 65536) := by decide

theorem witness_BuildStepsStoreTheTable_T :
    ({ mid .ptBuild with ptLen := lens2 } : State).host = [] ∧ ({ mid .ptBuild with ptLen := lens2 } : State).phase = .ptBuild ∧
    ∃ b : BuildState 256, build 256 (GenAlph.alphabet .t) lens2.toList arena0 arena0 = .ok b :=
  ⟨rfl, rfl, build_of_check lens2_builds.1⟩
theorem witness_BuildStepsStoreTheTable_P :
    ({ mid .ptBuild with ptLen := lens2, alph := .p } : State).phase = .ptBuild ∧
    ∃ b : BuildState 256, build 256 (GenAlph.alphabet .p) lens2.toList arena0 arena0 = .ok b :=
  ⟨rfl, build_of_check lens2_builds.2⟩
theorem witness_BuildStepsStoreTheTable_C :
    ({ mid .cBuild with cLen := lensC2 } : State).phase = .cBuild ∧
    ∃ b : BuildState 4096, build 4096 .c lensC2.toList arena0 arena0 = .ok b :=
  ⟨rfl, build_of_check lensC2_builds⟩
/-- 95 H8: an array of zeros. -/
theorem witness_BuildStepsStoreTheTable_errors :
    ((mid .ptBuild).phase = .ptBuild ∧
      build 256 (mid .ptBuild).alph.alphabet (mid .ptBuild).ptLen.toList (mid .ptBuild).left (mid .ptBuild).right = .error .badCodeSet) ∧
    ((mid .cBuild).phase = .cBuild ∧
      build 4096 .c (mid .cBuild).cLen.toList (mid .cBuild).left (mid .cBuild).right = .error .badCodeSet) :=
  ⟨⟨rfl, build_of_failed_check (by decide +kernel)⟩, rfl, build_of_failed_check (by decide +kernel)⟩

/-- Both sides of T's node ids, 19 to 36. -/
theorem witness_BuildKeepsOtherNodes :
    256 = 2 ^ Config.tableBits .t ∧ 18 < Config.numSymbols .t ∧ 2 * Config.numSymbols .t - 1 ≤ 37 ∧
    ∃ b : BuildState 256, build 256 .t lensH1 arena0 arena0 = .ok b :=
  ⟨rfl, by decide, by decide, build_of_check (by decide +kernel)⟩

theorem witness_DegenerateLookupConsumesNothing :
    (mid .dist).ptDegen = true ∧ (mid .symbol).cDegen = true := by decide

/-- 95 F1 and F5. -/
theorem witness_ExhaustionEndsTheJob :
    (({ start with srcLen := 3 } : State).host = [] ∧ ({ start with srcLen := 3 } : State).isAt .frame = true ∧
      ({ start with srcLen := 3 } : State).fetch .frame = .error .shortHeader) ∧
    (({ mid .blkCount with srcLen := 8 } : State).host = [] ∧ ({ mid .blkCount with srcLen := 8 } : State).isAt .blkCount = true ∧
      ({ mid .blkCount with srcLen := 8 } : State).fetch .blkCount = .error (.exhausted [])) :=
  ⟨⟨rfl, rfl, rfl⟩, rfl, rfl, rfl⟩
/-- One byte of payload: a T count of 0 is read and its constant lacks two bits. -/
theorem witness_ExhaustionEndsTheJob_T :
    ({ mid .ptCount with srcLen := 9 } : State).host = [] ∧ ({ mid .ptCount with srcLen := 9 } : State).isAt .tCount = true ∧
    ∃ rest u e, ({ mid .ptCount with srcLen := 9 } : State).fetch .tCount = .ok (.tCnt 0, rest) ∧
      exec (.tCnt 0) { mid .ptCount with srcLen := 9 } = .next u ∧ u.phase = .ptCount ∧ u.fetch .tDegen = .error e :=
  ⟨rfl, rfl, _, _, _, rfl, rfl, rfl, rfl⟩
/-- The same at P under TianoVariant, and at C with two bytes. -/
theorem witness_ExhaustionEndsTheJob_P :
    ({ mid .ptCount with srcLen := 9, alph := .p, var := .tiano } : State).isAt (.pCount .tiano) = true ∧
    ∃ rest u e, ({ mid .ptCount with srcLen := 9, alph := .p, var := .tiano } : State).fetch (.pCount .tiano) =
        .ok (.pCnt .tiano 0, rest) ∧
      exec (.pCnt .tiano 0) { mid .ptCount with srcLen := 9, alph := .p, var := .tiano } = .next u ∧ u.phase = .ptCount ∧
      u.fetch (.pDegen .tiano) = .error e := ⟨rfl, _, _, _, rfl, rfl, rfl, rfl⟩
theorem witness_ExhaustionEndsTheJob_C :
    ({ mid .cCount with srcLen := 10 } : State).isAt .cCount = true ∧
    ∃ rest u e, ({ mid .cCount with srcLen := 10 } : State).fetch .cCount = .ok (.cCnt 0, rest) ∧
      exec (.cCnt 0) { mid .cCount with srcLen := 10 } = .next u ∧ u.phase = .cCount ∧ u.fetch .cDegen = .error e :=
  ⟨rfl, _, _, _, rfl, rfl, rfl, rfl⟩

theorem witness_ElementsKeepStatusOrEndTheJob :
    (∃ t, exec (.lit 0x41) (mid .symbol) = .next t ∧ t.busy = true) ∧
    (∃ t, exec (.lit 0x41) { mid .symbol with outLen := 5 } = .next t ∧ t.busy = false) := ⟨⟨_, rfl, rfl⟩, _, rfl, rfl⟩

theorem witness_JobsEndOnlyWithDone :
    ((mid .copy).Inv ∧ (mid .copy).busy = true ∧ ∃ t, engineStep (mid .copy) = .next t ∧ t.busy = true) ∧
    (lastCopy.Inv ∧ lastCopy.busy = true ∧ ∃ t, engineStep lastCopy = .next t ∧ t.busy = false) :=
  ⟨⟨mid_inv _ (by decide), rfl, _, rfl, rfl⟩, lastCopy_inv, rfl, _, rfl, rfl⟩

theorem witness_SuccessMeansFullOutput :
    (lastCopy.Inv ∧ lastCopy.busy = true ∧ lastCopy.phase ≠ .frame ∧
      ∃ t, engineStep lastCopy = .next t ∧ t.busy = false ∧ t.err = .ok) ∧
    (start.Inv ∧ start.busy = true ∧ start.phase = .frame ∧ ∃ t, engineStep start = .next t ∧ t.busy = false ∧ t.err = .ok) :=
  ⟨⟨lastCopy_inv, rfl, by decide, _, rfl, rfl, rfl⟩, start_inv, rfl, rfl, _, rfl, rfl, rfl⟩

theorem witness_IdleEngineChangesNothing : State.reset.host = [] ∧ State.reset.phase = .idle := by decide

theorem witness_EveryStepKeepsInv :
    ((mid .copy).Inv ∧ ∃ t, step (mid .copy) = .next t) ∧
    (({ State.reset with host := [.supplySrc [1, 0, 2]] } : State).Inv ∧
      ∃ t, step { State.reset with host := [.supplySrc [1, 0, 2]] } = .next t) :=
  ⟨⟨mid_inv _ (by decide), _, rfl⟩, by constructor <;> simp [State.reset, Memory.wf, Memory.within], _, rfl⟩

theorem witness_EngineStepAlwaysAnswers : (mid .dist).Inv ∧ start.Inv ∧ State.reset.Inv :=
  ⟨mid_inv _ (by decide), start_inv, reset_inv⟩

theorem witness_EveryJobEnds : start.Inv ∧ start.host = [] ∧ start.busy = true := ⟨start_inv, rfl, rfl⟩

/-- The engine's step on a sound state, for OutputGrowsByOneByte, CursorNeverRewinds and EngineKeepsTheLaunch. -/
theorem witness_OutputGrowsByOneByte : (mid .copy).Inv ∧ ∃ t, engineStep (mid .copy) = .next t ∧ t.outLen = 3 :=
  ⟨mid_inv _ (by decide), _, rfl, rfl⟩
theorem witness_CursorNeverRewinds : (mid .blkCount).Inv ∧ ∃ t, engineStep (mid .blkCount) = .next t ∧ t.bitPos = 16 :=
  ⟨mid_inv _ (by decide), _, rfl, rfl⟩
theorem witness_EngineKeepsTheLaunch : ∃ t, engineStep (mid .blkCount) = .next t := ⟨_, rfl⟩
theorem witness_ParameterIsConstant : ∃ t, step { State.reset with host := [.reset], peek := .zeroFill } = .next t := ⟨_, rfl⟩

theorem witness_ElementsMemoryFrame :
    (∃ t, exec (.lit 0x41) (mid .symbol) = .next t ∧ 3 ≠ (mid .symbol).outLen.toNat) ∧
    (∃ t, exec .pos0 (mid .dist) = .next t ∧ ∀ b, Instr.pos0 ≠ .lit b) :=
  ⟨⟨_, rfl, by decide⟩, _, rfl, by simp⟩

theorem witness_ElementsRegisterFrame :
    (∃ t, exec .pos0 (mid .dist) = .next t) ∧ (∃ t, exec (.tLen 3) (midT .cEntry 3) = .next t) ∧
    (∃ t, exec (.lenShort 1) (mid .ptEntry) = .next t) := ⟨⟨_, rfl⟩, ⟨_, rfl⟩, _, rfl⟩

theorem witness_BusyWritesAreIgnored : (mid .symbol).busy = true ∧ 0x1C % 4 = 0 := by decide

theorem witness_StartLaunchesAJob :
    State.reset.busy = false ∧ (2 : Word).getLsbD 0 = false ∧ (3 : Word).getLsbD 0 = true ∧
    ({ State.reset with srcLen := 20, srcCap := 20, dstLen := 6, dstCap := 6 } : State).srcLen.toNat ≤ 20 ∧
    ({ State.reset with srcLen := 20, srcCap := 20, dstLen := 6, dstCap := 6 } : State).dstLen.toNat ≤ 6 := by decide

theorem witness_IdleRegisterWrites :
    State.reset.busy = false ∧ 0x04 % 4 = 0 ∧ 0x04 ≠ 0x00 ∧ 0x04 ≠ 0x08 ∧ 0x04 ≠ 0x0C ∧
    0x1C % 4 = 0 ∧ 0x1C ≠ 0x00 ∧ 0x1C ≠ 0x08 ∧ 0x1C ≠ 0x0C := by decide

theorem witness_RegisterMapReads :
    0x04 % 4 = 0 ∧ ¬ ((mid .symbol).done = true ∧ (mid .symbol).err ≠ .ok) ∧ 0x18 < 0x1C := by decide

theorem witness_UndefinedHostMovesAreRefused :
    (2 ≠ 4 ∨ 0 % 4 ≠ 0) ∧ (4 ≠ 4 ∨ 2 % 4 ≠ 0) ∧ (mid .symbol).busy = true ∧
    (({ State.reset with srcLen := 9, srcCap := 8 } : State).busy = false ∧
      ({ State.reset with srcLen := 9, srcCap := 8 } : State).srcCap < ({ State.reset with srcLen := 9, srcCap := 8 } : State).srcLen.toNat ∧
      (1 : Word).getLsbD 0 = true) ∧ (mid .symbol).dstCap ≤ 6 := by decide

theorem witness_SuppliedBuffersHoldTheirBytes : State.reset.busy = false ∧ 19 < p1Bytes.length := by decide

/-- A job whose next step fails (no bit is left), in a buffer larger than DST_LEN. -/
def largerBuffer : State := { mid .blkCount with srcLen := 8, dstCap := 8, dst := [(6, 0x55)] }

theorem largerBuffer_inv : largerBuffer.Inv := by
  constructor <;> simp [largerBuffer, mid, State.reset, Memory.wf, Memory.within, Memory.unlisted, State.totalBits]

/-- Its error leaves DST[0 .. 6) unspecified and the byte at 6 as it was (60 R195, 70 R214). -/
theorem test_error_keeps_bytes_beyond :
    after (engineStep largerBuffer) (fun t => if t.dstByteLost 5 then 1 else 0) = (true, 1) ∧
    after (engineStep largerBuffer) (fun t => (t.dstByteRead 6).toNat) = (true, 0x55) := by decide +kernel

theorem witness_HostReadsTheOutput :
    lastCopy.Inv ∧ lastCopy.busy = true ∧ lastCopy.phase ≠ .frame ∧
    ∃ t, engineStep lastCopy = .next t ∧ t.busy = false ∧ t.err = .ok ∧ 5 < t.dstLen.toNat :=
  ⟨lastCopy_inv, rfl, by decide, _, rfl, rfl, rfl, by decide⟩
/-- A buffer of 8 bytes for a job of 6: byte 6, which no job left unspecified, through an error and through a reset. -/
theorem witness_HostReadsTheOutput_beyond :
    largerBuffer.Inv ∧ largerBuffer.dstLen.toNat ≤ 6 ∧ 6 < largerBuffer.dstCap ∧ largerBuffer.dstByteLost 6 = false ∧
    (∃ t, engineStep largerBuffer = .next t ∧ t.statusWord = 0xE) ∧ ∃ t, hostMove .reset largerBuffer = .next t :=
  ⟨largerBuffer_inv, by decide, by decide, by decide, ⟨_, rfl, rfl⟩, _, rfl⟩

theorem witness_ResetClearsEveryRegister :
    State.reset = State.reset ∧ ∃ t, step { mid .symbol with host := .reset :: [] } = .next t := ⟨rfl, _, rfl⟩

end Sys2Proof.Tests
end

section
/-! SUPPORT. What a step does to the parameter PEEK_PAST_END and to the cursor BITPOS (00_scope.md R8, R10; 10_state.md
R30). -/

namespace Sys2Proof.Machine

/-! ### The parameter -/

theorem Raised.peek {s t : State} (h : Raised s t) : t.peek = s.peek := by
  obtain ⟨n, k, c, -, -, rfl⟩ := h
  simp

theorem regEffect_peek {i : Instr} {s t : State} (h : regEffect i s = some t) : t.peek = s.peek := by
  cases i <;> cases h <;> simp

theorem exec_peek {i : Instr} {s t : State} (h : exec i s = .next t) : t.peek = s.peek := by
  obtain ⟨-, h | ⟨c, o, -, rfl | ⟨-, -, -, rfl⟩⟩ |
    ⟨-, h | ⟨b, -, -, ⟨-, rfl⟩ | ⟨-, rfl⟩⟩ | ⟨d, -, -, rfl⟩⟩⟩ := exec_next h
  · exact h.peek
  · simp
  · simp
  · simpa using regEffect_peek h
  · simp
  · simp
  · simp

theorem buildPt_peek {s t : State} (h : buildPt s = .next t) : t.peek = s.peek := by
  obtain ⟨c, -, rfl⟩ | ⟨b, -, rfl⟩ := buildPt_next h <;> simp

theorem buildC_peek {s t : State} (h : buildC s = .next t) : t.peek = s.peek := by
  obtain ⟨c, -, rfl⟩ | ⟨b, -, rfl⟩ := buildC_next h <;> simp

theorem copyByte_peek {s t : State} (h : copyByte s = .next t) : t.peek = s.peek := by
  obtain ⟨-, -, ⟨-, rfl⟩ | ⟨-, rfl⟩⟩ := copyByte_next h <;> simp

theorem engineStep_peek {s t : State} (h : engineStep s = .next t) : t.peek = s.peek :=
  engineStep_induct (fun s t => t.peek = s.peek)
    (refl := fun _ => rfl)
    (trans := fun _ _ _ _ hsu hut => hut.trans hsu)
    (raised := fun _ _ _ => Raised.peek)
    (element := fun _ _ _ => exec_peek)
    (block := fun _ _ _ => by simp)
    (ptDone := fun _ _ => by simp)
    (cDone := fun _ _ => by simp)
    (pt := fun _ _ _ => buildPt_peek)
    (c := fun _ _ _ => buildC_peek)
    (copy := fun _ _ _ => copyByte_peek) h

theorem writeCtrl_peek {w : Word} {s t : State} (h : writeCtrl w s = .next t) : t.peek = s.peek := by
  unfold writeCtrl at h
  split at h
  · split at h
    · cases h; simp
    · cases h
  · cases h; rfl

theorem writeReg_peek {offset width : Nat} {w : Word} {s t : State} (h : writeReg offset width w s = .next t) :
    t.peek = s.peek := by
  unfold writeReg at h
  split at h
  · split_ifs at h
    · cases h; rfl
    · exact writeCtrl_peek h
    · cases h; rfl
    · cases h; rfl
    · cases h; rfl
  · cases h

theorem hostMove_peek {m : HostMove} {s t : State} (h : hostMove m s = .next t) : t.peek = s.peek := by
  cases m with
  | engine => exact engineStep_peek h
  | writeReg offset width w => exact writeReg_peek h
  | readReg offset width =>
    simp only [hostMove, readReg] at h
    split at h <;> cases h
    rfl
  | supplySrc bytes =>
    simp only [hostMove, supplySrc] at h
    split at h <;> cases h
    rfl
  | supplyDst bytes =>
    simp only [hostMove, supplyDst] at h
    split at h <;> cases h
    rfl
  | readDst i =>
    simp only [hostMove, readDst] at h
    split at h <;> cases h
    rfl
  | reset => cases h; simp

/-- Settles O50: the engine's step keeps the parameter, by induction over its outcomes, and so does every host move. -/
theorem parameterIsConstant : Obligations.ParameterIsConstant := by
  intro s t h
  cases hm : s.host with
  | nil =>
    rw [step_of_no_move hm] at h
    exact engineStep_peek h
  | cons m rest =>
    replace h : hostMove m { s with host := rest } = .next t := by
      simpa [step, nextStep, hm] using h
    exact hostMove_peek (s := { s with host := rest }) h

/-! ### The cursor -/

/-- The cursor has not moved back, except out of FRAME, where the session start sets it (R105); and FRAME, which only START
enters, has not been entered (R28). The second part carries the first through a step of two elements. -/
structure CursorForward (s t : State) : Prop where
  le : s.phase ≠ .frame → s.bitPos.toNat ≤ t.bitPos.toNat
  frame : t.phase = .frame → s.phase = .frame

theorem CursorForward.trans {s u t : State} (hsu : CursorForward s u) (hut : CursorForward u t) : CursorForward s t where
  le hs := (hsu.le hs).trans (hut.le fun hu => hs (hsu.frame hu))
  frame ht := hsu.frame (hut.frame ht)

theorem CursorForward.of_same {s t : State} (hb : t.bitPos = s.bitPos) (hp : t.phase = .frame → s.phase = .frame) :
    CursorForward s t :=
  ⟨fun _ => by rw [hb], hp⟩

/-- Bits that lie inside the sequence move the cursor on (R59). -/
theorem CursorForward.advance {s : State} {n : Nat} (h : s.bitPos.toNat + n ≤ s.totalBits ∨ n = 0) :
    CursorForward s (s.advance n) where
  le _ := by
    rcases h with h | rfl
    · rw [State.advance_toNat h]; omega
    · rw [State.advance_zero]
  frame := id

theorem Raised.cursorForward {s t : State} (h : Raised s t) : CursorForward s t := by
  obtain ⟨n, k, c, -, hn, rfl⟩ := h
  exact (CursorForward.advance hn.symm).trans (.of_same (by simp) (by simp))

theorem State.ptLoopPhase_ne_frame (s : State) (i : Nat) : s.ptLoopPhase i ≠ .frame := by
  unfold State.ptLoopPhase; split <;> simp

theorem State.cLoopPhase_ne_frame (s : State) (i : Nat) : s.cLoopPhase i ≠ .frame := by
  unfold State.cLoopPhase; split <;> simp

/-- A count of 0 stays in its phase, any other opens the entry loop (R140, R141). -/
theorem State.loadPtCount_frame {c : BitVec 9} {s : State} (h : (s.loadPtCount c).phase = .frame) : s.phase = .frame := by
  rw [State.loadPtCount_phase] at h
  split at h
  · exact h
  · cases h

/-- A count of 0 stays in its phase, any other opens the entry loop (R150, R151). -/
theorem State.loadCCount_frame {c : BitVec 9} {s : State} (h : (s.loadCCount c).phase = .frame) : s.phase = .frame := by
  rw [State.loadCCount_phase] at h
  split at h
  · exact h
  · cases h

theorem State.placePtLen_ne_frame (l : Nat) (s : State) : (s.placePtLen l).phase ≠ .frame := by
  rw [State.placePtLen_phase]
  split
  · simp
  · exact s.ptLoopPhase_ne_frame _

theorem regEffect_bitPos {i : Instr} {s t : State} (h : regEffect i s = some t) : t.bitPos = s.bitPos := by
  cases i <;> cases h <;> simp

/-- A count of 0 stays in its phase; every other effect leads to a phase of the session (R28). -/
theorem regEffect_frame {i : Instr} {s t : State} (h : regEffect i s = some t) (ht : t.phase = .frame) :
    s.phase = .frame := by
  cases i <;> cases h
  case tCnt => exact State.loadPtCount_frame ht
  case pCnt => exact State.loadPtCount_frame ht
  case cCnt => exact State.loadCCount_frame ht
  case lenShort => exact absurd ht (State.placePtLen_ne_frame _ s)
  case lenLong => exact absurd ht (State.placePtLen_ne_frame _ s)
  case zrun2 => exact absurd ht (s.ptLoopPhase_ne_frame _)
  case tZero => exact absurd ht (s.cLoopPhase_ne_frame _)
  case tRun4 => exact absurd ht (s.cLoopPhase_ne_frame _)
  case tRun9 => exact absurd ht (s.cLoopPhase_ne_frame _)
  case tLen => exact absurd ht (s.cLoopPhase_ne_frame _)
  all_goals cases ht

theorem regEffect_cursorForward {i : Instr} {s t : State} (h : regEffect i s = some t) : CursorForward s t :=
  .of_same (regEffect_bitPos h) (regEffect_frame h)

theorem exec_cursorForward {i : Instr} {s t : State} (h : exec i s = .next t) : CursorForward s t := by
  obtain ⟨-, hr | ⟨c, o, rfl, rfl | ⟨-, -, -, rfl⟩⟩ |
    ⟨hfit, he | ⟨b, -, -, ⟨-, rfl⟩ | ⟨-, rfl⟩⟩ | ⟨d, -, -, rfl⟩⟩⟩ := exec_next h
  · exact hr.cursorForward
  · exact .of_same (by simp) (by simp)
  · have hp : s.phase = .frame := (execHdr_next h).1
    exact ⟨fun hne => absurd hp hne, fun _ => hp⟩
  · exact (CursorForward.advance hfit).trans (regEffect_cursorForward he)
  · exact (CursorForward.advance hfit).trans (.of_same (by simp) (by simp))
  · exact (CursorForward.advance hfit).trans (.of_same (by simp) (by simp))
  · exact (CursorForward.advance hfit).trans (.of_same (by simp) (by simp))

theorem buildPt_cursorForward {s t : State} (h : buildPt s = .next t) : CursorForward s t := by
  obtain ⟨c, -, rfl⟩ | ⟨b, -, rfl⟩ := buildPt_next h
  · exact .of_same (by simp) (by simp)
  · refine .of_same (by simp) fun hp => ?_
    rw [State.goto_phase] at hp
    split at hp <;> cases hp

theorem buildC_cursorForward {s t : State} (h : buildC s = .next t) : CursorForward s t := by
  obtain ⟨c, -, rfl⟩ | ⟨b, -, rfl⟩ := buildC_next h
  · exact .of_same (by simp) (by simp)
  · exact .of_same (by simp) (by simp)

theorem copyByte_cursorForward {s t : State} (h : copyByte s = .next t) : CursorForward s t := by
  obtain ⟨-, -, ⟨-, rfl⟩ | ⟨-, rfl⟩⟩ := copyByte_next h
  · exact .of_same (by simp) (by simp)
  · refine .of_same (by simp) fun hp => ?_
    rw [State.countCopy_phase] at hp
    split at hp <;> cases hp

theorem engineStep_cursorForward {s t : State} (h : engineStep s = .next t) : CursorForward s t :=
  engineStep_induct CursorForward
    (refl := fun _ => .of_same rfl id)
    (trans := fun _ _ _ _ => .trans)
    (raised := fun _ _ _ => Raised.cursorForward)
    (element := fun _ _ _ => exec_cursorForward)
    (block := fun _ _ _ => .of_same (by simp) (by simp))
    (ptDone := fun _ _ => .of_same (by simp) (by simp))
    (cDone := fun _ _ => .of_same (by simp) (by simp))
    (pt := fun _ _ _ => buildPt_cursorForward)
    (c := fun _ _ _ => buildC_cursorForward)
    (copy := fun _ _ _ => copyByte_cursorForward) h

/-- Settles O48: outside FRAME the engine's step never moves the cursor back, and at FRAME the cursor is still 0. -/
theorem cursorNeverRewinds : Obligations.CursorNeverRewinds := by
  intro s t hinv h
  by_cases hp : s.phase = .frame
  · obtain ⟨h0, -, -⟩ := hinv.fresh hp
    simp [h0]
  · exact (engineStep_cursorForward h).le hp

end Sys2Proof.Machine
end

section
/-! SUPPORT. What a step does to the launch, and to the job's STATUS and output (10_state.md R22 to R31; 20_memory.md R50,
R51; 44_block_driver_output.md R165). -/

namespace Sys2Proof.Machine

/-! ### The launch -/

/-- The launch registers, the source buffer, the buffers' sizes and the host's pending moves stand as they did (R27, R29,
R50). -/
structure SameLaunch (s t : State) : Prop where
  src : t.src = s.src
  srcLen : t.srcLen = s.srcLen
  dstLen : t.dstLen = s.dstLen
  variant : t.variant = s.variant
  var : t.var = s.var
  srcCap : t.srcCap = s.srcCap
  dstCap : t.dstCap = s.dstCap
  host : t.host = s.host

theorem SameLaunch.refl (s : State) : SameLaunch s s := by constructor <;> rfl

theorem SameLaunch.trans {s u t : State} (hsu : SameLaunch s u) (hut : SameLaunch u t) : SameLaunch s t where
  src := hut.src.trans hsu.src
  srcLen := hut.srcLen.trans hsu.srcLen
  dstLen := hut.dstLen.trans hsu.dstLen
  variant := hut.variant.trans hsu.variant
  var := hut.var.trans hsu.var
  srcCap := hut.srcCap.trans hsu.srcCap
  dstCap := hut.dstCap.trans hsu.dstCap
  host := hut.host.trans hsu.host

theorem Raised.sameLaunch {s t : State} (h : Raised s t) : SameLaunch s t := by
  obtain ⟨n, k, c, -, -, rfl⟩ := h
  constructor <;> rfl

theorem regEffect_sameLaunch {i : Instr} {s t : State} (h : regEffect i s = some t) : SameLaunch s t := by
  cases i <;> cases h <;> constructor <;> rfl

theorem exec_sameLaunch {i : Instr} {s t : State} (h : exec i s = .next t) : SameLaunch s t := by
  obtain ⟨-, h | ⟨c, o, -, rfl | ⟨-, -, -, rfl⟩⟩ |
    ⟨-, h | ⟨b, -, -, ⟨-, rfl⟩ | ⟨-, rfl⟩⟩ | ⟨d, -, -, rfl⟩⟩⟩ := exec_next h
  · exact h.sameLaunch
  · constructor <;> rfl
  · constructor <;> rfl
  · have hadv : SameLaunch s (s.advance (s.used i)) := by constructor <;> rfl
    exact hadv.trans (regEffect_sameLaunch h)
  · constructor <;> rfl
  · constructor <;> rfl
  · constructor <;> rfl

theorem buildPt_sameLaunch {s t : State} (h : buildPt s = .next t) : SameLaunch s t := by
  obtain ⟨c, -, rfl⟩ | ⟨b, -, rfl⟩ := buildPt_next h <;> constructor <;> rfl

theorem buildC_sameLaunch {s t : State} (h : buildC s = .next t) : SameLaunch s t := by
  obtain ⟨c, -, rfl⟩ | ⟨b, -, rfl⟩ := buildC_next h <;> constructor <;> rfl

theorem copyByte_sameLaunch {s t : State} (h : copyByte s = .next t) : SameLaunch s t := by
  obtain ⟨-, -, ⟨-, rfl⟩ | ⟨-, rfl⟩⟩ := copyByte_next h <;> constructor <;> rfl

theorem State.goto_sameLaunch (p : Phase) (s : State) : SameLaunch s (s.goto p) := by constructor <;> rfl

theorem engineStep_sameLaunch {s t : State} (h : engineStep s = .next t) : SameLaunch s t :=
  engineStep_induct SameLaunch
    (refl := .refl)
    (trans := fun _ _ _ _ => .trans)
    (raised := fun _ _ _ => Raised.sameLaunch)
    (element := fun _ _ _ => exec_sameLaunch)
    (block := fun s _ _ => s.goto_sameLaunch _)
    (ptDone := fun s _ => s.goto_sameLaunch _)
    (cDone := fun s _ => s.goto_sameLaunch _)
    (pt := fun _ _ _ => buildPt_sameLaunch)
    (c := fun _ _ _ => buildC_sameLaunch)
    (copy := fun _ _ _ => copyByte_sameLaunch) h

/-- Settles O49: every operation of the engine keeps the launch, so the engine's step does. -/
theorem engineKeepsTheLaunch : Obligations.EngineKeepsTheLaunch := by
  intro s t h
  obtain ⟨hsrc, hsrcLen, hdstLen, hvariant, hvar, hsrcCap, hdstCap, hhost⟩ := engineStep_sameLaunch h
  exact ⟨hsrc, hsrcLen, hdstLen, hvariant, hvar, hsrcCap, hdstCap, hhost⟩

/-! ### Where an element stands -/

/-- The phase of a position (R80). -/
def phaseOfPlace : Place → Phase
  | .frame => .frame
  | .blkCount => .blkCount
  | .tCount => .ptCount
  | .tDegen => .ptCount
  | .pCount _ => .ptCount
  | .pDegen _ => .ptCount
  | .ptEntry => .ptEntry
  | .ptZrun => .ptZrun
  | .cCount => .cCount
  | .cDegen => .cCount
  | .cEntry => .cEntry
  | .symbol => .symbol
  | .dist => .dist

theorem phaseOfPlace_ne_idle (p : Place) : phaseOfPlace p ≠ .idle := by
  cases p <;> simp [phaseOfPlace]

theorem phaseOfPlace_ne_frame {p : Place} (h : p ≠ .frame) : phaseOfPlace p ≠ .frame := by
  cases p <;> simp_all [phaseOfPlace]

theorem State.phase_of_isAt {s : State} {p : Place} (h : s.isAt p = true) : s.phase = phaseOfPlace p := by
  cases p <;> simp only [State.isAt, decide_eq_true_eq] at h <;> simp [h, phaseOfPlace]

theorem State.selects_iff {s : State} {i : Instr} : s.selects i = true ↔ i.wf = true ∧ s.isAt i.place = true :=
  Bool.and_eq_true_iff

theorem State.phase_of_selects {s : State} {i : Instr} (h : s.selects i = true) : s.phase = phaseOfPlace i.place :=
  State.phase_of_isAt (State.selects_iff.mp h).2

/-! ### The job's STATUS and output -/

/-- BUSY, DONE and ERR stand as they did (R22). -/
def SameStatus (s t : State) : Prop :=
  t.busy = s.busy ∧ t.done = s.done ∧ t.err = s.err

/-- Nothing is written (R165). -/
def SameOutput (s t : State) : Prop :=
  t.outLen = s.outLen ∧ t.dst = s.dst

/-- One byte is written at OUT_LEN, below DST_LEN, in one of the two phases that write (R163, R165, R166). -/
structure WritesByte (s t : State) : Prop where
  phase : s.phase = .symbol ∨ s.phase = .copy
  room : s.outLen.toNat < s.dstLen.toNat
  dst : ∃ b, t.dst = s.dst.write s.outLen.toNat b
  outLen : t.outLen = s.outLen + 1

/-- All that an element or a step of the engine can do to STATUS and to the output. -/
inductive JobStep (s t : State) : Prop where
  /-- it goes on without writing -/
  | quiet (status : SameStatus s t) (output : SameOutput s t)
  /-- it writes a byte that does not fill DST, and goes on -/
  | wrote (status : SameStatus s t) (output : WritesByte s t) (room : t.outLen ≠ t.dstLen)
  /-- it ends the job in an error (R194) -/
  | failed (k : ErrCode) (error : k ≠ .ok) (ended : t.endedWith k) (output : SameOutput s t)
  /-- it writes the byte that fills DST (R106, R165) -/
  | filled (ended : t.endedWith .ok) (output : WritesByte s t) (full : t.outLen = t.dstLen)
  /-- it is the header of an empty output (R102) -/
  | empty (frame : s.phase = .frame) (ended : t.endedWith .ok) (output : SameOutput s t) (cursor : t.bitPos = s.bitPos)
  /-- it is the header that starts a session (R105) -/
  | started (frame : s.phase = .frame) (status : SameStatus s t) (outLen : t.outLen = 0) (dst : t.dst = s.dst)

/-- STATUS is kept or the job ends (R198). -/
theorem JobStep.keeps_or_ends {s t : State} (h : JobStep s t) : SameStatus s t ∨ ∃ k, t.endedWith k := by
  cases h with
  | quiet status => exact .inl status
  | wrote status => exact .inl status
  | failed k _ ended => exact .inr ⟨k, ended⟩
  | filled ended => exact .inr ⟨_, ended⟩
  | empty _ ended => exact .inr ⟨_, ended⟩
  | started _ status => exact .inl status

/-- At a count nothing is written, and the job goes on or fails. -/
theorem JobStep.at_count {s t : State} (hp : s.phase = .ptCount ∨ s.phase = .cCount) (h : JobStep s t) :
    SameOutput s t ∧ (SameStatus s t ∨ ∃ k, k ≠ .ok ∧ t.endedWith k) := by
  have hwrite : ¬ (s.phase = .symbol ∨ s.phase = .copy) := by rcases hp with hp | hp <;> simp [hp]
  have hframe : s.phase ≠ .frame := by rcases hp with hp | hp <;> simp [hp]
  cases h with
  | quiet status output => exact ⟨output, .inl status⟩
  | wrote _ output => exact absurd output.phase hwrite
  | failed k error ended output => exact ⟨output, .inr ⟨k, error, ended⟩⟩
  | filled _ output => exact absurd output.phase hwrite
  | empty frame => exact absurd frame hframe
  | started frame => exact absurd frame hframe

/-- A count of 0 and its constant are one step (R141, R151). -/
theorem JobStep.count_trans {s u t : State} (hp : s.phase = .ptCount ∨ s.phase = .cCount) (hu : u.phase = s.phase)
    (hsu : JobStep s u) (hut : JobStep u t) : JobStep s t := by
  obtain ⟨⟨hlen, hdst⟩, ⟨hb, hd, he⟩ | ⟨k, -, -, -, -, hidle⟩⟩ := hsu.at_count hp
  · obtain ⟨⟨hlen', hdst'⟩, hstatus⟩ := hut.at_count (by rwa [hu])
    have houtput : SameOutput s t := ⟨hlen'.trans hlen, hdst'.trans hdst⟩
    rcases hstatus with ⟨hb', hd', he'⟩ | ⟨k, hk, hended⟩
    · exact .quiet ⟨hb'.trans hb, hd'.trans hd, he'.trans he⟩ houtput
    · exact .failed k hk hended houtput
  · rw [← hu, hidle] at hp
    simp at hp

theorem State.raise_endedWith (k : ErrCode) (c : Cause) (s : State) : (s.raise k c).endedWith k := ⟨rfl, rfl, rfl, rfl⟩

theorem State.finish_endedWith (s : State) : s.finish.endedWith .ok := ⟨rfl, rfl, rfl, rfl⟩

theorem State.finishFull_endedWith (s : State) : s.finishFull.endedWith .ok := ⟨rfl, rfl, rfl, rfl⟩

theorem Raised.jobStep {s t : State} (h : Raised s t) : JobStep s t := by
  obtain ⟨n, k, c, hk, -, rfl⟩ := h
  exact .failed k hk (State.raise_endedWith _ _ _) (by simp [SameOutput])

theorem regEffect_quiet {i : Instr} {s t : State} (h : regEffect i s = some t) : SameStatus s t ∧ SameOutput s t := by
  cases i <;> cases h <;> simp [SameStatus, SameOutput]

theorem exec_jobStep {i : Instr} {s t : State} (h : exec i s = .next t) : JobStep s t := by
  obtain ⟨hsel, hr | ⟨c, o, rfl, rfl | ⟨-, -, -, rfl⟩⟩ |
    ⟨-, he | ⟨b, rfl, hlt, ⟨hfull, rfl⟩ | ⟨hroom, rfl⟩⟩ | ⟨d, -, -, rfl⟩⟩⟩ := exec_next h
  · exact hr.jobStep
  · exact .empty (execHdr_next h).1 s.finish_endedWith (by simp [SameOutput]) (by simp)
  · exact .started (execHdr_next h).1 (by simp [SameStatus]) (by simp) (by simp)
  · obtain ⟨hstatus, houtput⟩ := regEffect_quiet he
    exact .quiet hstatus houtput
  · have hp : s.phase = .symbol := State.phase_of_selects hsel
    exact .filled (State.finishFull_endedWith _) ⟨.inl hp, hlt, ⟨b, rfl⟩, by simp⟩ (by simpa using hfull)
  · have hp : s.phase = .symbol := State.phase_of_selects hsel
    exact .wrote (by simp [SameStatus]) ⟨.inl hp, hlt, ⟨b, rfl⟩, by simp⟩ (by simpa using hroom)
  · exact .quiet (by simp [SameStatus]) (by simp [SameOutput])

theorem buildPt_jobStep {s t : State} (h : buildPt s = .next t) : JobStep s t := by
  obtain ⟨c, -, rfl⟩ | ⟨b, -, rfl⟩ := buildPt_next h
  · exact (Raised.here (by decide)).jobStep
  · exact .quiet (by simp [SameStatus]) (by simp [SameOutput])

theorem buildC_jobStep {s t : State} (h : buildC s = .next t) : JobStep s t := by
  obtain ⟨c, -, rfl⟩ | ⟨b, -, rfl⟩ := buildC_next h
  · exact (Raised.here (by decide)).jobStep
  · exact .quiet (by simp [SameStatus]) (by simp [SameOutput])

theorem copyByte_jobStep {s t : State} (hp : s.phase = .copy) (h : copyByte s = .next t) : JobStep s t := by
  obtain ⟨-, hlt, ⟨hfull, rfl⟩ | ⟨hroom, rfl⟩⟩ := copyByte_next h
  · exact .filled (State.finishFull_endedWith _) ⟨.inr hp, hlt, ⟨_, rfl⟩, by simp⟩ (by simpa using hfull)
  · exact .wrote (by simp [SameStatus]) ⟨.inr hp, hlt, ⟨_, rfl⟩, by simp⟩ (by simpa using hroom)

theorem State.goto_jobStep (p : Phase) (s : State) : JobStep s (s.goto p) :=
  .quiet (by simp [SameStatus]) (by simp [SameOutput])

theorem runElement_jobStep {p : Place} {s t : State} (h : runElement p s = .next t) : JobStep s t := by
  obtain hr | ⟨i, rest, -, he⟩ := runElement_next h
  · exact hr.jobStep
  · exact exec_jobStep he

theorem engineStep_jobStep {s t : State} (h : engineStep s = .next t) : JobStep s t := by
  rcases engineStep_next h with ⟨-, rfl⟩ | ⟨-, p, h⟩ | ⟨hp, p, q, u, hsu, hu, hut⟩ | ⟨-, -, rfl⟩ | ⟨-, rfl⟩ | ⟨-, rfl⟩ |
    ⟨-, h⟩ | ⟨-, h⟩ | ⟨hp, h⟩
  · exact .quiet ⟨rfl, rfl, rfl⟩ ⟨rfl, rfl⟩
  · exact runElement_jobStep h
  · exact (runElement_jobStep hsu).count_trans hp hu (runElement_jobStep hut)
  · exact s.goto_jobStep _
  · exact s.goto_jobStep _
  · exact s.goto_jobStep _
  · exact buildPt_jobStep h
  · exact buildC_jobStep h
  · exact copyByte_jobStep hp h

/-- Settles O39: what an element can do to STATUS is one of the cases of `JobStep`. -/
theorem elementsKeepStatusOrEndTheJob : Obligations.ElementsKeepStatusOrEndTheJob := by
  intro i s t h
  exact (exec_jobStep h).keeps_or_ends

/-- Settles O41: a running job ends with ERR 0 only by the byte that fills DST, or at the header of an empty output. -/
theorem successMeansFullOutput : Obligations.SuccessMeansFullOutput := by
  intro s t hinv hbusy h hidle hok
  have hrunning : ¬ SameStatus s t := fun hs => by simp [hs.1, hbusy] at hidle
  cases engineStep_jobStep h with
  | quiet status => exact absurd status hrunning
  | wrote status => exact absurd status hrunning
  | failed k error ended => exact absurd (ended.2.2.1.symm.trans hok) error
  | filled _ output full =>
    refine ⟨fun _ => full, fun hframe => ?_⟩
    rcases output.phase with hp | hp <;> simp [hp] at hframe
  | empty frame _ output cursor =>
    obtain ⟨hpos, hlen, -⟩ := hinv.fresh frame
    exact ⟨fun hne => absurd frame hne, fun _ => ⟨output.1.trans hlen, cursor.trans hpos, output.2⟩⟩
  | started _ status => exact absurd status hrunning

/-- OUT_LEN below DST_LEN does not wrap (R165). -/
theorem WritesByte.outLen_toNat {s t : State} (h : WritesByte s t) : t.outLen.toNat = s.outLen.toNat + 1 := by
  have hroom := h.room
  rw [h.outLen]
  bv_omega

theorem WritesByte.read_other {s t : State} (h : WritesByte s t) {a : Nat} (ha : a ≠ s.outLen.toNat) :
    t.dst.read a = s.dst.read a := by
  obtain ⟨b, hb⟩ := h.dst
  rw [hb, Memory.read_write_other ha]

/-- Settles O47: a step writes nothing, or one byte at OUT_LEN; the session start sets OUT_LEN to the 0 it has. -/
theorem outputGrowsByOneByte : Obligations.OutputGrowsByOneByte := by
  intro s t hinv h
  have quiet : SameOutput s t → (∀ a, a ≠ s.outLen.toNat → t.dst.read a = s.dst.read a) ∧
      ((t.outLen = s.outLen ∧ t.dst = s.dst) ∨ t.outLen.toNat = s.outLen.toNat + 1) :=
    fun hs => ⟨fun a _ => by rw [hs.2], .inl hs⟩
  cases engineStep_jobStep h with
  | quiet _ output => exact quiet output
  | wrote _ output => exact ⟨fun a => output.read_other, .inr output.outLen_toNat⟩
  | failed _ _ _ output => exact quiet output
  | filled _ output => exact ⟨fun a => output.read_other, .inr output.outLen_toNat⟩
  | empty _ _ output => exact quiet output
  | started frame _ outLen dst =>
    obtain ⟨-, hlen, -⟩ := hinv.fresh frame
    exact quiet ⟨outLen.trans hlen.symm, dst⟩

end Sys2Proof.Machine
end

section
/-! SUPPORT. Every step keeps the invariant: a step of a running job leaves a sound session behind or ends the job, and a
move of the host acts on an idle engine or not at all (10_state.md R22 to R34; 20_memory.md R52). -/

namespace Sys2Proof.Machine

/-! ### A sound session -/

/-- What the invariant asks of a session by its phase: the length arrays, the distance and the copy stay in their ranges
(R34, R142, R145, R152, R166); IDLE and FRAME are no session. -/
def State.phaseSound (s : State) : Prop :=
  match s.phase with
  | .idle => False
  | .frame => False
  | .ptEntry => s.idx.toNat < s.cnt.toNat ∧ s.cnt.toNat ≤ Config.ptCap
  | .ptZrun => s.alph = .t ∧ s.idx = 3 ∧ s.cnt.toNat ≤ Config.ptCap
  | .cEntry => s.idx.toNat < s.cnt.toNat ∧ s.idx.toNat < Config.cCap
  | .dist => 3 ≤ s.cpyLen.toNat ∧ s.cpyLen.toNat ≤ 258
  | .copy => 1 ≤ s.cpyLen.toNat ∧ s.cpyLen.toNat ≤ 258 ∧ s.cpySrc.toNat < s.outLen.toNat
  | .symbol => True
  | .blkCount => True
  | .ptCount => True
  | .ptBuild => True
  | .cCount => True
  | .cBuild => True

/-- What the invariant asks of a session: the header's length (R101), the cursor (R30), the output (R165) and the phase. -/
structure State.Running (s : State) : Prop where
  header : Config.hdrBytes ≤ s.srcLen.toNat
  cursor : s.bitPos.toNat ≤ s.totalBits
  room : s.outLen.toNat < s.dstLen.toNat
  phase : s.phaseSound

theorem State.Running.inSession {s : State} (h : s.Running) : s.inSession := by
  have hp := h.phase
  constructor <;> intro hs <;> simp [State.phaseSound, hs] at hp

theorem State.Inv.running {s : State} (h : s.Inv) (hp : s.inSession) : s.Running := by
  obtain ⟨hheader, hcursor, hroom⟩ := h.session hp
  refine ⟨hheader, hcursor, hroom, ?_⟩
  unfold State.phaseSound
  split
  next hs => exact hp.1 hs
  next hs => exact hp.2 hs
  next hs => exact h.ptEntry hs
  next hs => exact h.ptZrun hs
  next hs => exact h.cEntry hs
  next hs => exact h.dist hs
  next hs => exact h.copy hs
  all_goals trivial

/-! ### Where each effect leads -/

theorem State.loadPtCount_phaseSound {s : State} (hp : s.phase = .ptCount) (m : BitVec 5) :
    (s.loadPtCount (m.zeroExtend 9)).phaseSound := by
  rcases s.loadPtCount_phase_cases (m.zeroExtend 9) with ⟨-, h⟩ | ⟨hm, h⟩
  · simp only [State.phaseSound, h, hp]
  · simp only [State.phaseSound, h, State.loadPtCount_idx, State.loadPtCount_cnt, Config.ptCap]
    constructor <;> bv_omega

theorem State.loadCCount_phaseSound {s : State} (hp : s.phase = .cCount) (m : BitVec 9) :
    (s.loadCCount m).phaseSound := by
  rcases s.loadCCount_phase_cases m with ⟨-, h⟩ | ⟨hm, h⟩
  · simp only [State.phaseSound, h, hp]
  · simp only [State.phaseSound, h, State.loadCCount_idx, State.loadCCount_cnt, Config.cCap]
    constructor <;> bv_omega

/-- A generic array has at most 31 entries (R140). -/
theorem State.phaseSound_cnt_le {s : State} (h : s.phaseSound) (hp : s.phase = .ptEntry ∨ s.phase = .ptZrun) :
    s.cnt.toNat ≤ 31 := by
  rcases hp with hp | hp <;> simp only [State.phaseSound, hp] at h
  · exact h.2
  · exact h.2.2

theorem State.placePtLen_phaseSound {s : State} (hcnt : s.cnt.toNat ≤ 31) (l : Nat) : (s.placePtLen l).phaseSound := by
  rcases s.placePtLen_phase_cases l with ⟨h, halph, hidx⟩ | ⟨h, hidx⟩ | h
  · simp only [State.phaseSound, h, State.placePtLen_alph, State.placePtLen_idx, State.placePtLen_cnt, hidx]
    exact ⟨halph, rfl, hcnt⟩
  · simp only [State.phaseSound, h, State.placePtLen_idx, State.placePtLen_cnt, BitVec.toNat_ofNat, Config.ptCap]
    omega
  · simp only [State.phaseSound, h]

theorem State.skipPt_phaseSound {s : State} (hcnt : s.cnt.toNat ≤ 31) (z : Nat) : (s.skipPt z).phaseSound := by
  rcases s.skipPt_phase_cases z with ⟨h, hidx⟩ | h
  · simp only [State.phaseSound, h, State.skipPt_idx, State.skipPt_cnt, BitVec.toNat_ofNat, Config.ptCap]
    omega
  · simp only [State.phaseSound, h]

theorem State.skipC_phaseSound (s : State) (run : Nat) : (s.skipC run).phaseSound := by
  rcases s.skipC_phase_cases run with ⟨h, hidx⟩ | h
  · simp only [State.phaseSound, h, State.skipC_idx, State.skipC_cnt, BitVec.toNat_ofNat, Config.cCap]
    omega
  · simp only [State.phaseSound, h]

theorem State.placeCLen_phaseSound (s : State) (l : Nat) : (s.placeCLen l).phaseSound := by
  rcases s.placeCLen_phase_cases l with ⟨h, hidx⟩ | h
  · simp only [State.phaseSound, h, State.placeCLen_idx, State.placeCLen_cnt, BitVec.toNat_ofNat, Config.cCap]
    omega
  · simp only [State.phaseSound, h]

/-- A copy's length is 3 to 258 (R77, R164). -/
theorem State.loadCopy_phaseSound {s : State} {v : BitVec 9} (hv : 256 ≤ v.toNat) :
    (s.loadCopy (v.toNat - 253)).phaseSound := by
  simp only [State.phaseSound, State.loadCopy_phase, State.loadCopy_cpyLen, BitVec.toNat_ofNat]
  omega

theorem State.aimCopy_phaseSound {s : State} {d : Nat} (hlen : 3 ≤ s.cpyLen.toNat ∧ s.cpyLen.toNat ≤ 258)
    (hd : d + 1 ≤ s.outLen.toNat) : (s.aimCopy d).phaseSound := by
  have hlt := s.outLen.isLt
  simp only [State.phaseSound, State.aimCopy_phase, State.aimCopy_cpyLen, State.aimCopy_cpySrc, State.aimCopy_outLen,
    BitVec.toNat_ofNat]
  omega

theorem regEffect_phaseSound {i : Instr} {s t : State} (hsel : s.selects i = true) (hs : s.phaseSound)
    (h : regEffect i s = some t) : t.phaseSound := by
  have hp := State.phase_of_selects hsel
  cases i <;> cases h
  case tCnt m => exact State.loadPtCount_phaseSound hp m
  case pCnt f m => exact State.loadPtCount_phaseSound hp m
  case cCnt m => exact State.loadCCount_phaseSound hp m
  case lenShort l => exact State.placePtLen_phaseSound (State.phaseSound_cnt_le hs (.inl hp)) _
  case lenLong k => exact State.placePtLen_phaseSound (State.phaseSound_cnt_le hs (.inl hp)) _
  case zrun2 z => exact State.skipPt_phaseSound (State.phaseSound_cnt_le hs (.inr hp)) _
  case tZero => exact s.skipC_phaseSound _
  case tRun4 => exact s.skipC_phaseSound _
  case tRun9 => exact s.skipC_phaseSound _
  case tLen => exact s.placeCLen_phaseSound _
  case backref v =>
    refine State.loadCopy_phaseSound ?_
    simpa [Instr.wf] using (State.selects_iff.mp hsel).1
  all_goals trivial

theorem State.selects_advance (s : State) (n : Nat) (i : Instr) : (s.advance n).selects i = s.selects i := by
  have hat : (s.advance n).isAt i.place = s.isAt i.place := by cases i.place <;> rfl
  rw [State.selects, State.selects, hat]

theorem regEffect_place_ne_frame {i : Instr} {s t : State} (h : regEffect i s = some t) : i.place ≠ .frame := by
  cases i <;> cases h <;> simp [Instr.place]

/-! ### The operations of the engine -/

theorem State.inSession_of_phase {s : State} {p : Phase} (h : s.phase = p) (hidle : p ≠ .idle) (hframe : p ≠ .frame) :
    s.inSession :=
  ⟨h.trans_ne hidle, h.trans_ne hframe⟩

theorem State.inSession_of_selects {s : State} {i : Instr} (hsel : s.selects i = true) (hi : i.place ≠ .frame) :
    s.inSession :=
  State.inSession_of_phase (State.phase_of_selects hsel) (phaseOfPlace_ne_idle _) (phaseOfPlace_ne_frame hi)

/-- The bits of an element that are there keep the cursor inside (R59). -/
theorem State.advance_le_totalBits {s : State} {n : Nat} (hs : s.bitPos.toNat ≤ s.totalBits)
    (hn : s.bitPos.toNat + n ≤ s.totalBits ∨ n = 0) : (s.advance n).bitPos.toNat ≤ s.totalBits := by
  rcases hn with hn | rfl
  · rwa [State.advance_toNat hn]
  · rwa [State.advance_zero]

theorem SameLaunch.totalBits {s t : State} (h : SameLaunch s t) : t.totalBits = s.totalBits := by
  rw [State.totalBits, State.totalBits, h.srcLen]

/-- A step that goes on leaves room for the next byte, and what the header has checked (R105, R165). -/
theorem State.Running.step {s t : State} (hs : s.Running) (hl : SameLaunch s t) (hj : JobStep s t) (hb : t.busy = true)
    (hcursor : t.bitPos.toNat ≤ s.totalBits) (hphase : t.phaseSound) : t.Running := by
  refine ⟨by rw [hl.srcLen]; exact hs.header, by rwa [hl.totalBits], ?_, hphase⟩
  cases hj with
  | quiet _ output => rw [output.1, hl.dstLen]; exact hs.room
  | wrote _ output room =>
    have hlen := output.outLen_toNat
    have hle := output.room
    have hdst := hl.dstLen
    bv_omega
  | failed _ _ ended => simp [ended.1] at hb
  | filled ended => simp [ended.1] at hb
  | empty _ ended => simp [ended.1] at hb
  | started frame => exact absurd frame hs.inSession.2

theorem Raised.busy {s t : State} (h : Raised s t) : t.busy = false := by
  obtain ⟨n, k, c, -, -, rfl⟩ := h
  rfl

/-- An element that goes on leaves a sound session behind. -/
theorem exec_running {i : Instr} {s t : State} (hs : s.Inv) (h : exec i s = .next t) (hb : t.busy = true) :
    t.Running := by
  have hl := exec_sameLaunch h
  have hj := exec_jobStep h
  obtain ⟨hsel, hr | ⟨c, o, rfl, rfl | ⟨h8, ho, hlen, rfl⟩⟩ |
    ⟨hfit, he | ⟨b, rfl, -, ⟨-, rfl⟩ | ⟨-, rfl⟩⟩ | ⟨d, hi, hd, rfl⟩⟩⟩ := exec_next h
  · simp [hr.busy] at hb
  · simp at hb
  · refine ⟨h8, by simp, ?_, trivial⟩
    rw [State.sessionStart_outLen, State.sessionStart_dstLen, ← hlen]
    bv_omega
  · have hrun := hs.running (State.inSession_of_selects hsel (regEffect_place_ne_frame he))
    refine hrun.step hl hj hb ?_ (regEffect_phaseSound ((s.selects_advance _ i).trans hsel) hrun.phase he)
    rw [regEffect_bitPos he]
    exact State.advance_le_totalBits hrun.cursor hfit
  · simp at hb
  · have hrun := hs.running (State.inSession_of_selects hsel (by simp [Instr.place]))
    exact hrun.step hl hj hb (State.advance_le_totalBits hrun.cursor hfit) trivial
  · have hplace : i.place = .dist := by rcases hi with ⟨rfl, -⟩ | ⟨rfl, -⟩ | ⟨v, x, rfl, -⟩ <;> rfl
    have hrun := hs.running (State.inSession_of_selects hsel (by simp [hplace]))
    have hp : s.phase = .dist := by rw [State.phase_of_selects hsel, hplace]; rfl
    exact hrun.step hl hj hb (State.advance_le_totalBits hrun.cursor hfit) (State.aimCopy_phaseSound (hs.dist hp) hd)

theorem buildPt_running {s t : State} (hs : s.Running) (h : buildPt s = .next t) (hb : t.busy = true) : t.Running := by
  have step := hs.step (buildPt_sameLaunch h) (buildPt_jobStep h) hb
  obtain ⟨c, -, rfl⟩ | ⟨b, -, rfl⟩ := buildPt_next h
  · simp at hb
  · refine step hs.cursor ?_
    cases s.alph <;> trivial

theorem buildC_running {s t : State} (hs : s.Running) (h : buildC s = .next t) (hb : t.busy = true) : t.Running := by
  have step := hs.step (buildC_sameLaunch h) (buildC_jobStep h) hb
  obtain ⟨c, -, rfl⟩ | ⟨b, -, rfl⟩ := buildC_next h
  · simp at hb
  · exact step hs.cursor trivial

theorem copyByte_running {s t : State} (hs : s.Running) (hp : s.phase = .copy) (h : copyByte s = .next t)
    (hb : t.busy = true) : t.Running := by
  have step := hs.step (copyByte_sameLaunch h) (copyByte_jobStep hp h) hb
  obtain ⟨-, hlt, ⟨-, rfl⟩ | ⟨-, rfl⟩⟩ := copyByte_next h
  · simp at hb
  · refine step hs.cursor ?_
    have hcopy := hs.phase
    simp only [State.phaseSound, hp] at hcopy
    rcases (s.store (s.dst.read s.cpySrc.toNat)).countCopy_phase_cases with ⟨-, hc⟩ | ⟨hmore, hc⟩
    · simp only [State.phaseSound, hc]
    · simp only [State.phaseSound, hc, State.countCopy_cpyLen, State.countCopy_cpySrc, State.countCopy_outLen,
        State.store_cpyLen, State.store_cpySrc, State.store_outLen] at hmore ⊢
      bv_omega

/-! ### The invariant -/

/-- The engine at rest, or between a failed or a finished job and the next. -/
theorem State.Inv.of_idle {t : State} (hsrc : t.src.wf = true) (hdst : t.dst.wf = true)
    (hsrcIn : t.src.within t.srcCap) (hdstIn : t.dst.within t.dstCap) (hphase : t.phase = .idle) (hbusy : t.busy = false)
    (herr : t.done = false → t.err = .ok) : t.Inv where
  srcWf := hsrc
  dstWf := hdst
  srcInside := hsrcIn
  dstInside := hdstIn
  busyPhase := by simp [hphase, hbusy]
  busyDone := by simp [hbusy]
  errDone := herr
  launched := by simp [hbusy]
  fresh := by simp [hphase]
  session h := absurd hphase h.1
  ptEntry := by simp [hphase]
  ptZrun := by simp [hphase]
  cEntry := by simp [hphase]
  dist := by simp [hphase]
  copy := by simp [hphase]

/-- A step of a running job keeps the destination buffer canonical and inside its size (R51). -/
theorem JobStep.dst_sound {s t : State} (hj : JobStep s t) (hwf : s.dst.wf = true) (hin : s.dst.within s.dstCap)
    (hlaunch : s.dstLen.toNat ≤ s.dstCap) : t.dst.wf = true ∧ t.dst.within s.dstCap := by
  have same : t.dst = s.dst → t.dst.wf = true ∧ t.dst.within s.dstCap := fun hd => by rw [hd]; exact ⟨hwf, hin⟩
  have wrote : WritesByte s t → t.dst.wf = true ∧ t.dst.within s.dstCap := fun hw => by
    obtain ⟨b, hb⟩ := hw.dst
    rw [hb]
    exact ⟨Memory.wf_write hwf _ _, Memory.within_write hin (hw.room.trans_le hlaunch)⟩
  cases hj with
  | quiet _ output => exact same output.2
  | wrote _ output => exact wrote output
  | failed _ _ _ output => exact same output.2
  | filled _ output => exact wrote output
  | empty _ _ output => exact same output.2
  | started _ _ _ dst => exact same dst

/-- A step of a running job keeps the invariant, if it leaves a sound session or ends the job. -/
theorem State.Inv.step {s t : State} (hs : s.Inv) (hp : s.phase ≠ .idle) (hl : SameLaunch s t) (hj : JobStep s t)
    (hrun : t.busy = true → t.Running) : t.Inv := by
  have hbusy := hs.busyPhase.mpr hp
  obtain ⟨hsrcLen, hdstLen⟩ := hs.launched hbusy
  have hsrc : t.src.wf = true := by rw [hl.src]; exact hs.srcWf
  have hsrcIn : t.src.within t.srcCap := by rw [hl.src, hl.srcCap]; exact hs.srcInside
  obtain ⟨hdst, hdstIn⟩ := hj.dst_sound hs.dstWf hs.dstInside hdstLen
  rw [← hl.dstCap] at hdstIn
  rcases hj.keeps_or_ends with ⟨hb, hd, he⟩ | ⟨k, hb, hd, -, hidle⟩
  · have hrun := hrun (hb.trans hbusy)
    have hdone : t.done = false := hd.trans (hs.busyDone hbusy)
    exact {
      srcWf := hsrc
      dstWf := hdst
      srcInside := hsrcIn
      dstInside := hdstIn
      busyPhase := ⟨fun _ => hrun.inSession.1, fun _ => hb.trans hbusy⟩
      busyDone := fun _ => hdone
      errDone := fun _ => he.trans (hs.errDone (hs.busyDone hbusy))
      launched := fun _ => by rw [hl.srcLen, hl.srcCap, hl.dstLen, hl.dstCap]; exact ⟨hsrcLen, hdstLen⟩
      fresh := fun h => absurd h hrun.inSession.2
      session := fun _ => ⟨hrun.header, hrun.cursor, hrun.room⟩
      ptEntry := fun h => by simpa only [State.phaseSound, h] using hrun.phase
      ptZrun := fun h => by simpa only [State.phaseSound, h] using hrun.phase
      cEntry := fun h => by simpa only [State.phaseSound, h] using hrun.phase
      dist := fun h => by simpa only [State.phaseSound, h] using hrun.phase
      copy := fun h => by simpa only [State.phaseSound, h] using hrun.phase }
  · exact .of_idle hsrc hdst hsrcIn hdstIn hidle hb (by simp [hd])

theorem exec_inv {i : Instr} {s t : State} (h : exec i s = .next t) (hs : s.Inv) : t.Inv := by
  have hp : s.phase ≠ .idle := (State.phase_of_selects (exec_next h).1).trans_ne (phaseOfPlace_ne_idle _)
  exact hs.step hp (exec_sameLaunch h) (exec_jobStep h) (exec_running hs h)

theorem State.goto_inv {s : State} {p : Phase} (hs : s.Inv) (hp : s.inSession) (hsound : (s.goto p).phaseSound) :
    (s.goto p).Inv := by
  have hrun := hs.running hp
  exact hs.step hp.1 (s.goto_sameLaunch p) (s.goto_jobStep p) fun hb =>
    hrun.step (s.goto_sameLaunch p) (s.goto_jobStep p) hb hrun.cursor hsound

theorem engineStep_inv {s t : State} (h : engineStep s = .next t) : s.Inv → t.Inv :=
  engineStep_induct (fun s t => s.Inv → t.Inv)
    (refl := fun _ => id)
    (trans := fun _ _ _ _ hsu hut hs => hut (hsu hs))
    (raised := fun _ _ hp h hs => hs.step hp h.sameLaunch h.jobStep (by simp [h.busy]))
    (element := fun _ _ _ => exec_inv)
    (block := fun _ hp _ hs => State.goto_inv hs (State.inSession_of_phase hp (by decide) (by decide)) trivial)
    (ptDone := fun _ hp hs => State.goto_inv hs (State.inSession_of_phase hp (by decide) (by decide)) trivial)
    (cDone := fun _ hp hs => State.goto_inv hs (State.inSession_of_phase hp (by decide) (by decide)) trivial)
    (pt := fun _ _ hp h hs => hs.step (by simp [hp]) (buildPt_sameLaunch h) (buildPt_jobStep h)
      (buildPt_running (hs.running (State.inSession_of_phase hp (by decide) (by decide))) h))
    (c := fun _ _ hp h hs => hs.step (by simp [hp]) (buildC_sameLaunch h) (buildC_jobStep h)
      (buildC_running (hs.running (State.inSession_of_phase hp (by decide) (by decide))) h))
    (copy := fun _ _ hp h hs => hs.step (by simp [hp]) (copyByte_sameLaunch h) (copyByte_jobStep hp h)
      (copyByte_running (hs.running (State.inSession_of_phase hp (by decide) (by decide))) hp h)) h

/-! ### The host's moves -/

/-- The invariant does not speak of the host's own fields, nor of the counter of free values. -/
theorem State.Inv.of_host {s : State} (h : s.Inv) (host : List HostMove) (rdata : Word) (free : Nat) :
    ({ s with host := host, rdata := rdata, free := free } : State).Inv :=
  ⟨h.srcWf, h.dstWf, h.srcInside, h.dstInside, h.busyPhase, h.busyDone, h.errDone, h.launched, h.fresh, h.session,
    h.ptEntry, h.ptZrun, h.cEntry, h.dist, h.copy⟩

theorem State.Inv.idle_of_not_busy {s : State} (h : s.Inv) (hb : ¬ s.busy = true) : s.phase = .idle :=
  not_not.mp fun hp => hb (h.busyPhase.mpr hp)

theorem Memory.within_ofBytes (bytes : List Byte) : (Memory.ofBytes 0 bytes).within bytes.length := fun _ hc => by
  have hlt := (Memory.mem_ofBytes hc).2
  omega

/-- START launches a job inside the supplied buffers (R100, R214, R215). -/
theorem State.startJob_inv {s : State} (h : s.Inv) (hlen : s.srcLen.toNat ≤ s.srcCap ∧ s.dstLen.toNat ≤ s.dstCap) :
    s.startJob.Inv where
  srcWf := h.srcWf
  dstWf := h.dstWf
  srcInside := h.srcInside
  dstInside := h.dstInside
  busyPhase := by simp
  busyDone := by simp
  errDone := by simp
  launched _ := hlen
  fresh := by simp
  session hp := absurd rfl hp.2
  ptEntry := by simp
  ptZrun := by simp
  cEntry := by simp
  dist := by simp
  copy := by simp

theorem writeCtrl_inv {w : Word} {s t : State} (hs : s.Inv) (hb : ¬ s.busy = true) (h : writeCtrl w s = .next t) :
    t.Inv := by
  have hvariant : ({ s with variant := variantOfBit (w.getLsbD 1) } : State).Inv :=
    .of_idle hs.srcWf hs.dstWf hs.srcInside hs.dstInside (hs.idle_of_not_busy hb) (by simpa using hb) hs.errDone
  unfold writeCtrl at h
  split at h
  · split at h
    · next hlen => cases h; exact State.startJob_inv hvariant hlen
    · cases h
  · cases h; exact hvariant

theorem writeReg_inv {offset width : Nat} {w : Word} {s t : State} (hs : s.Inv)
    (h : writeReg offset width w s = .next t) : t.Inv := by
  unfold writeReg at h
  split at h
  · split at h
    · cases h; exact hs
    · next hb =>
      have hidle := hs.idle_of_not_busy hb
      have hfalse : s.busy = false := by simpa using hb
      split_ifs at h
      · exact writeCtrl_inv hs hb h
      · cases h; exact .of_idle hs.srcWf hs.dstWf hs.srcInside hs.dstInside hidle hfalse hs.errDone
      · cases h; exact .of_idle hs.srcWf hs.dstWf hs.srcInside hs.dstInside hidle hfalse hs.errDone
      · cases h; exact hs
  · cases h

theorem supplySrc_inv {bytes : List Byte} {s t : State} (hs : s.Inv) (h : supplySrc bytes s = .next t) : t.Inv := by
  unfold supplySrc at h
  split at h
  · cases h
  · next hb =>
    cases h
    exact .of_idle (Memory.wf_ofBytes 0 bytes) hs.dstWf (Memory.within_ofBytes bytes) hs.dstInside
      (hs.idle_of_not_busy hb) (by simpa using hb) hs.errDone

theorem supplyDst_inv {bytes : List Byte} {s t : State} (hs : s.Inv) (h : supplyDst bytes s = .next t) : t.Inv := by
  unfold supplyDst at h
  split at h
  · cases h
  · next hb =>
    cases h
    exact .of_idle hs.srcWf (Memory.wf_ofBytes 0 bytes) hs.srcInside (Memory.within_ofBytes bytes)
      (hs.idle_of_not_busy hb) (by simpa using hb) hs.errDone

theorem hostMove_inv {m : HostMove} {s t : State} (hs : s.Inv) (h : hostMove m s = .next t) : t.Inv := by
  cases m with
  | engine => exact engineStep_inv h hs
  | writeReg offset width w => exact writeReg_inv hs h
  | readReg offset width =>
    simp only [hostMove, readReg] at h
    split at h <;> cases h
    exact hs.of_host _ _ _
  | supplySrc bytes => exact supplySrc_inv hs h
  | supplyDst bytes => exact supplyDst_inv hs h
  | readDst i =>
    simp only [hostMove, readDst] at h
    split at h <;> cases h
    exact hs.of_host _ _ _
  | reset =>
    cases h
    exact .of_idle hs.srcWf hs.dstWf hs.srcInside hs.dstInside rfl rfl fun _ => rfl

/-- Settles O44: the engine's step keeps the invariant by induction over its operations, and so does every host move. -/
theorem everyStepKeepsInv : Obligations.EveryStepKeepsInv := by
  intro s t hs h
  cases hm : s.host with
  | nil =>
    rw [step_of_no_move hm] at h
    exact engineStep_inv h hs
  | cons m rest =>
    replace h : hostMove m { s with host := rest } = .next t := by
      simpa [step, nextStep, hm] using h
    exact hostMove_inv (hs.of_host rest s.rdata s.free) h

/-- Settles O43: right after reset the engine is idle and the buffers are empty. -/
theorem invHoldsAtReset : Obligations.InvHoldsAtReset :=
  .of_idle rfl rfl (by simp [State.reset, Memory.within]) (by simp [State.reset, Memory.within]) rfl rfl fun _ => rfl

end Sys2Proof.Machine
end

section
/-! SUPPORT. What the elements leave unchanged of the memories and of the registers (10_state.md R31 to R39; 20_memory.md
R51). -/

namespace Sys2Proof.Machine

/-! ### Memories -/

/-- The fixed tables and the arena stand as they did: only the builds write them (R39, R128). -/
structure SameTables (s t : State) : Prop where
  ptFix : t.ptFix = s.ptFix
  cFix : t.cFix = s.cFix
  left : t.left = s.left
  right : t.right = s.right

theorem regEffect_sameTables {i : Instr} {s t : State} (h : regEffect i s = some t) : SameTables s t := by
  cases i <;> cases h <;> constructor <;> rfl

theorem exec_sameTables {i : Instr} {s t : State} (h : exec i s = .next t) : SameTables s t := by
  obtain ⟨-, ⟨n, k, c, -, -, rfl⟩ | ⟨c, o, -, rfl | ⟨-, -, -, rfl⟩⟩ |
    ⟨-, h | ⟨b, -, -, ⟨-, rfl⟩ | ⟨-, rfl⟩⟩ | ⟨d, -, -, rfl⟩⟩⟩ := exec_next h
  · constructor <;> rfl
  · constructor <;> rfl
  · constructor <;> rfl
  · obtain ⟨hptFix, hcFix, hleft, hright⟩ := regEffect_sameTables h
    exact ⟨hptFix, hcFix, hleft, hright⟩
  · constructor <;> rfl
  · constructor <;> rfl
  · constructor <;> rfl

/-- LIT writes at OUT_LEN, no other element writes (R165). -/
theorem exec_dst {i : Instr} {s t : State} (h : exec i s = .next t) :
    t.dst = s.dst ∨ ∃ b, i = .lit b ∧ t.dst = s.dst.write s.outLen.toNat b := by
  obtain ⟨-, ⟨n, k, c, -, -, rfl⟩ | ⟨c, o, -, rfl | ⟨-, -, -, rfl⟩⟩ |
    ⟨-, h | ⟨b, hb, -, ⟨-, rfl⟩ | ⟨-, rfl⟩⟩ | ⟨d, -, -, rfl⟩⟩⟩ := exec_next h
  · exact .inl rfl
  · exact .inl rfl
  · exact .inl rfl
  · exact .inl (regEffect_quiet h).2.2
  · exact .inr ⟨b, hb, rfl⟩
  · exact .inr ⟨b, hb, rfl⟩
  · exact .inl rfl

/-- Settles O51: SRC by the frame of the launch, the tables by their own, DST by the one write of LIT. -/
theorem elementsMemoryFrame : Obligations.ElementsMemoryFrame := by
  intro i s t h
  obtain ⟨hptFix, hcFix, hleft, hright⟩ := exec_sameTables h
  refine ⟨(exec_sameLaunch h).src, hptFix, hcFix, hleft, hright, fun a ha => ?_⟩
  obtain hd | ⟨b, rfl, hd⟩ := exec_dst h
  · rw [hd]
  · have hne : a ≠ s.outLen.toNat := ha.resolve_left fun hlit => hlit b rfl
    rw [hd, Memory.read_write_other hne]

/-! ### Registers -/

/-- Each register of the datapath is left by every element whose rule does not write it (R31 to R36). -/
structure RegisterFrame (i : Instr) (s t : State) : Prop where
  remain : (i.place ≠ .frame ∧ i.place ≠ .blkCount ∧ i.place ≠ .symbol) → t.remain = s.remain
  cpyLen : (∀ v, i ≠ .backref v) → t.cpyLen = s.cpyLen
  cpySrc : i.place ≠ .dist → t.cpySrc = s.cpySrc
  alph : i.place ≠ .blkCount → i.place ≠ .cDegen → t.alph = s.alph
  cnt : (i.place ≠ .tCount ∧ i.place ≠ .cCount ∧ ∀ f, i.place ≠ .pCount f) → t.cnt = s.cnt
  idx : (i.place ≠ .tCount ∧ i.place ≠ .cCount ∧ (∀ f, i.place ≠ .pCount f) ∧ i.place ≠ .ptEntry ∧ i.place ≠ .ptZrun ∧
    i.place ≠ .cEntry) → t.idx = s.idx
  ptDegen : (i.place ≠ .tDegen ∧ ∀ f, i.place ≠ .pDegen f) → t.ptDegen = s.ptDegen ∧ t.ptConst = s.ptConst
  cDegen : i.place ≠ .cDegen → t.cDegen = s.cDegen ∧ t.cConst = s.cConst
  outLen : (i.place ≠ .frame ∧ ∀ b, i ≠ .lit b) → t.outLen = s.outLen
  ptLen : (i.place ≠ .tCount ∧ (∀ f, i.place ≠ .pCount f) ∧ i.place ≠ .ptEntry) → t.ptLen = s.ptLen
  cLen : (i.place ≠ .cCount ∧ ∀ v, i ≠ .tLen v) → t.cLen = s.cLen

/-- Bits consumed are no register of the frame. -/
theorem RegisterFrame.of_advance {i : Instr} {n : Nat} {s t : State} (h : RegisterFrame i (s.advance n) t) :
    RegisterFrame i s t := by
  obtain ⟨hremain, hcpyLen, hcpySrc, halph, hcnt, hidx, hptDegen, hcDegen, houtLen, hptLen, hcLen⟩ := h
  exact ⟨hremain, hcpyLen, hcpySrc, halph, hcnt, hidx, hptDegen, hcDegen, houtLen, hptLen, hcLen⟩

theorem regEffect_registerFrame {i : Instr} {s t : State} (h : regEffect i s = some t) : RegisterFrame i s t := by
  cases i <;> cases h <;> constructor <;> simp [Instr.place]

theorem exec_registerFrame {i : Instr} {s t : State} (h : exec i s = .next t) : RegisterFrame i s t := by
  obtain ⟨-, ⟨n, k, c, -, -, rfl⟩ | ⟨c, o, rfl, rfl | ⟨-, -, -, rfl⟩⟩ |
    ⟨-, h | ⟨b, rfl, -, ⟨-, rfl⟩ | ⟨-, rfl⟩⟩ | ⟨d, hi, -, rfl⟩⟩⟩ := exec_next h
  · constructor <;> simp
  · constructor <;> simp
  · constructor <;> simp [Instr.place]
  · exact (regEffect_registerFrame h).of_advance
  · constructor <;> simp [Instr.place]
  · constructor <;> simp [Instr.place]
  · have hplace : i.place = .dist := by rcases hi with ⟨rfl, -⟩ | ⟨rfl, -⟩ | ⟨v, x, rfl, -⟩ <;> rfl
    constructor <;> simp [hplace]

/-- Settles O52: the launch registers by their own frame, every other register by `RegisterFrame`. -/
theorem elementsRegisterFrame : Obligations.ElementsRegisterFrame := by
  intro i s t h
  obtain ⟨hremain, hcpyLen, hcpySrc, halph, hcnt, hidx, hptDegen, hcDegen, houtLen, hptLen, hcLen⟩ := exec_registerFrame h
  obtain ⟨-, hsrcLen, hdstLen, hvariant, hvar, -, -, -⟩ := exec_sameLaunch h
  exact ⟨⟨hvariant, hsrcLen, hdstLen, hvar⟩, hremain, hcpyLen, hcpySrc, halph, hcnt, hidx, hptDegen, hcDegen, houtLen,
    hptLen, hcLen⟩

end Sys2Proof.Machine
end

section
/-! SUPPORT. What a step runs, what an idle engine does, and what the host's moves do (10_state.md R20 to R28;
30_encoding.md R80; 41_framer.md R100; 70_reset_and_hazards.md R210 to R216). -/

namespace Sys2Proof.Machine

/-! ### The engine -/

theorem runElement_of_fetch {s : State} {p : Place} {i : Instr} {rest : List Bool} (h : s.fetch p = .ok (i, rest)) :
    runElement p s = exec i s := by
  simp [runElement, h]

/-- The engine runs the element of the position it stands at (R28, R80). -/
theorem engineStep_of_isAt {s : State} {p : Place} (h : s.isAt p = true)
    (hp : p = .frame ∨ p = .blkCount ∨ p = .ptEntry ∨ p = .ptZrun ∨ p = .cEntry ∨ p = .symbol ∨ p = .dist) :
    engineStep s = runElement p s := by
  have hphase := State.phase_of_isAt h
  rw [engineStep, hphase]
  rcases hp with rfl | rfl | rfl | rfl | rfl | rfl | rfl
  · rfl
  · rfl
  · exact if_pos h
  · rfl
  · exact if_pos h
  · have hremain : s.remain ≠ 0 := (of_decide_eq_true h).2
    exact if_neg hremain
  · rfl

/-- Settles O8: the engine's step is the element of its position, read and executed. -/
theorem stepRunsDecodedElement : Obligations.StepRunsDecodedElement := by
  intro s p i rest hhost hat hp hfetch
  rw [step_of_no_move hhost, engineStep_of_isAt hat hp, runElement_of_fetch hfetch]

theorem step_of_idle {s : State} (hhost : s.host = []) (hp : s.phase = .idle) : step s = .next s := by
  rw [step_of_no_move hhost, engineStep, hp]

/-- Settles O42: by induction on the number of steps. -/
theorem idleEngineChangesNothing : Obligations.IdleEngineChangesNothing := by
  intro k s hhost hp
  induction k with
  | zero => exact run_zero s
  | succ k ih => rw [run_next (step_of_idle hhost hp), ih]

/-! ### STATUS -/

theorem State.statusWord_toNat (s : State) :
    s.statusWord.toNat = s.busy.toNat + 2 * s.done.toNat + 4 * s.err.code.toNat := by
  unfold State.statusWord
  cases s.busy <;> cases s.done <;> cases s.err <;> rfl

theorem State.statusWord_eq {s : State} {w : Word}
    (h : s.busy.toNat + 2 * s.done.toNat + 4 * s.err.code.toNat = w.toNat) : s.statusWord = w :=
  BitVec.eq_of_toNat_eq (s.statusWord_toNat.trans h)

/-- Settles O37: STATUS is the sum of the flags that raising and finishing set. -/
theorem endOfJobStatusWords : Obligations.EndOfJobStatusWords := by
  intro s c
  exact ⟨State.statusWord_eq rfl, State.statusWord_eq rfl, State.statusWord_eq rfl, State.statusWord_eq rfl, rfl,
    fun _ => rfl⟩

/-! ### Register accesses -/

theorem wordAccess_four {offset : Nat} (h : offset % 4 = 0) : wordAccess offset 4 = true := by
  simp [wordAccess, h]

theorem wordAccess_false {offset width : Nat} (h : width ≠ 4 ∨ offset % 4 ≠ 0) : wordAccess offset width = false := by
  rcases h with h | h <;> simp [wordAccess, h]

/-- A read of an aligned word gives the register's value (R20, R27). -/
theorem step_readReg (s : State) (rest : List HostMove) {offset : Nat} (h : offset % 4 = 0) :
    step { s with host := .readReg offset 4 :: rest } = .next { s with host := rest, rdata := s.regValue offset } := by
  rw [step_move, hostMove, readReg, if_pos (wordAccess_four h)]
  rfl

/-- A write of an aligned word while a job runs (R27). -/
theorem writeReg_busy {s : State} (hb : s.busy = true) {offset : Nat} (h : offset % 4 = 0) (w : Word) :
    writeReg offset 4 w s = .next s := by
  rw [writeReg, if_pos (wordAccess_four h), if_pos hb]

/-- Settles O53: a write while BUSY is ignored, a read changes only what the host has read. -/
theorem busyWritesAreIgnored : Obligations.BusyWritesAreIgnored := by
  intro s rest offset w h
  refine ⟨fun hb => ?_, step_readReg s rest h⟩
  rw [step_move, hostMove, writeReg_busy (s := { s with host := rest }) hb h]

/-- A write of CTRL while no job runs (R21). -/
theorem writeReg_ctrl {s : State} (hb : s.busy = false) (w : Word) : writeReg 0 4 w s = writeCtrl w s := by
  simp [writeReg, wordAccess, hb]

/-- Settles O54: a CTRL write samples the variant; with bit 0 set, the writes of START follow. -/
theorem startLaunchesAJob : Obligations.StartLaunchesAJob := by
  intro s rest w hb
  rw [step_move, hostMove, writeReg_ctrl (s := { s with host := rest }) hb, writeCtrl]
  refine ⟨fun h0 => ?_, fun h0 hsrc hdst => ?_⟩
  · rw [if_neg (ne_true_of_eq_false h0)]
    rfl
  · rw [if_pos h0, if_pos ⟨hsrc, hdst⟩]
    exact ⟨_, rfl, rfl, rfl, rfl, State.statusWord_eq rfl, rfl, rfl, rfl, rfl, rfl, rfl, rfl, rfl, rfl, rfl, rfl⟩

/-- A write of SRC_LEN while no job runs (R23). -/
theorem writeReg_srcLen {s : State} (hb : s.busy = false) (w : Word) :
    writeReg 0x08 4 w s = .next { s with srcLen := w } := by
  simp [writeReg, wordAccess, hb]

/-- A write of DST_LEN while no job runs (R24). -/
theorem writeReg_dstLen {s : State} (hb : s.busy = false) (w : Word) :
    writeReg 0x0C 4 w s = .next { s with dstLen := w } := by
  simp [writeReg, wordAccess, hb]

/-- A write of a read-only or unlisted register (R20, R22, R25, R26). -/
theorem writeReg_other {s : State} (hb : s.busy = false) {offset : Nat} (h : offset % 4 = 0) (h0 : offset ≠ 0x00)
    (h8 : offset ≠ 0x08) (hC : offset ≠ 0x0C) (w : Word) : writeReg offset 4 w s = .next s := by
  simp [writeReg, wordAccess_four h, hb, h0, h8, hC]

/-- Settles O55: the offset of the write selects the register, if any. -/
theorem idleRegisterWrites : Obligations.IdleRegisterWrites := by
  intro s rest w hb
  refine ⟨?_, ?_, fun offset h h0 h8 hC => ?_⟩
  · rw [step_move, hostMove, writeReg_srcLen (s := { s with host := rest }) hb]
  · rw [step_move, hostMove, writeReg_dstLen (s := { s with host := rest }) hb]
  · rw [step_move, hostMove, writeReg_other (s := { s with host := rest }) hb h h0 h8 hC]

/-! ### Moves that are refused -/

theorem writeReg_refused {offset width : Nat} (h : width ≠ 4 ∨ offset % 4 ≠ 0) (w : Word) (s : State) :
    writeReg offset width w s = .refused .badRegisterAccess := by
  simp [writeReg, wordAccess_false h]

theorem readReg_refused {offset width : Nat} (h : width ≠ 4 ∨ offset % 4 ≠ 0) (s : State) :
    readReg offset width s = .refused .badRegisterAccess := by
  simp [readReg, wordAccess_false h]

theorem writeCtrl_refused {s : State} (h : s.srcCap < s.srcLen.toNat ∨ s.dstCap < s.dstLen.toNat) {w : Word}
    (h0 : w.getLsbD 0 = true) : writeCtrl w s = .refused .launchTooLong := by
  have hlen : ¬ (s.srcLen.toNat ≤ s.srcCap ∧ s.dstLen.toNat ≤ s.dstCap) := by omega
  rw [writeCtrl, if_pos h0, if_neg hlen]

/-- Settles O57: each of the four kinds of moves meets the guard that names it. -/
theorem undefinedHostMovesAreRefused : Obligations.UndefinedHostMovesAreRefused := by
  intro s rest
  refine ⟨fun offset width w h => ⟨?_, ?_⟩, fun hb bytes => ⟨?_, ?_⟩, fun hb hlong w h0 => ?_, fun i hi => ?_⟩
  · rw [step_move, hostMove, writeReg_refused h]
  · rw [step_move, hostMove, readReg_refused h]
  · rw [step_move, hostMove, supplySrc, if_pos hb]
  · rw [step_move, hostMove, supplyDst, if_pos hb]
  · rw [step_move, hostMove, writeReg_ctrl (s := { s with host := rest }) hb,
      writeCtrl_refused (s := { s with host := rest }) hlong h0]
  · rw [step_move, hostMove, readDst, if_neg (Nat.not_lt.mpr hi)]

/-! ### What the registers read -/

theorem State.ctrlWord_toNat (s : State) : s.ctrlWord.toNat = if s.variant = .tiano then 2 else 0 := by
  unfold State.ctrlWord
  cases s.variant <;> rfl

theorem State.not_failed {s : State} (h : ¬ (s.done = true ∧ s.err ≠ .ok)) : s.failed = false := by
  simpa [State.failed] using h

/-- Settles O56: CTRL and STATUS by their bits, BITPOS by its two words, each other offset by the map. -/
theorem registerMapReads : Obligations.RegisterMapReads := by
  intro s
  refine ⟨fun rest offset h => step_readReg s rest h, s.ctrlWord_toNat, s.statusWord_toNat, rfl, rfl, fun h => ?_,
    fun offset h => ?_⟩
  · have hpos : s.bitPosRead = s.bitPos := by simp [State.bitPosRead, State.not_failed h]
    have hlen : s.outLenRead = s.outLen := by simp [State.outLenRead, State.not_failed h]
    refine ⟨hlen, ?_, ?_⟩
    · show (s.bitPosRead.extractLsb' 0 32).toNat = _
      simp [hpos]
    · show ((s.bitPosRead.extractLsb' 32 3).zeroExtend 32).toNat = _
      have hlt := s.bitPos.isLt
      simp [hpos, Nat.shiftRight_eq_div_pow]
      omega
  · unfold State.regValue
    simp (disch := omega) only [if_neg]

end Sys2Proof.Machine
end

section
/-! SUPPORT. The bit reader: the value and the rest of a read, the bits of the payload, and the header's bytes
(20_memory.md R50 to R60; 30_encoding.md R71). -/

namespace Sys2Proof.Machine

/-! ### POP and PEEK -/

@[simp] theorem msbValue_zero (bits : List Bool) : msbValue 0 bits = 0 := rfl

/-- The first bit read is the most significant (R56). -/
theorem msbValue_succ (n : Nat) (bits : List Bool) :
    msbValue (n + 1) bits = (bits.getD 0 false).toNat * 2 ^ n + msbValue n bits.tail := by
  simp [msbValue, List.range_succ_eq_map, Function.comp_def, Nat.sub_add_eq, Nat.sub_right_comm]

/-- A read of `n` bits after `acc`: their value, and the bits after them (R56, R59). -/
theorem takeBits_of_le {n : Nat} {bits : List Bool} (h : n ≤ bits.length) (acc : Nat) :
    takeBits n acc bits = some (acc * 2 ^ n + msbValue n bits, bits.drop n) := by
  induction n generalizing acc bits with
  | zero => simp [takeBits]
  | succ n ih =>
    cases bits with
    | nil => simp at h
    | cons b bits =>
      rw [takeBits, ih (Nat.le_of_succ_le_succ h), msbValue_succ, pow_succ]
      simp only [List.getD_cons_zero, List.tail_cons, List.drop_succ_cons, Option.some.injEq, Prod.mk.injEq, and_true]
      ring

/-- A read past the end takes the missing bits as 0 (R60). -/
theorem zeroFilled_eq_msbValue (n acc : Nat) (bits : List Bool) :
    zeroFilled n acc bits = acc * 2 ^ n + msbValue n bits := by
  induction n generalizing acc bits with
  | zero => simp [zeroFilled]
  | succ n ih =>
    cases bits with
    | nil =>
      rw [zeroFilled, ih, msbValue_succ, pow_succ]
      simp only [List.getD_nil, Bool.toNat_false, List.tail_nil]
      ring
    | cons b bits =>
      rw [zeroFilled, ih, msbValue_succ, pow_succ]
      simp only [List.getD_cons_zero, List.tail_cons]
      ring

/-- Settles O13: a read that has its bits gives their value, one that lacks bits fails where it stood. -/
theorem popReadsMostSignificantFirst : Obligations.PopReadsMostSignificantFirst := by
  intro n bits
  refine ⟨fun h => ?_, fun h => ?_⟩
  · simp [popBits, takeBits_of_le h]
  · simp [popBits, takeBits_eq_none.mpr h]

/-- Settles O14: a lookahead with its bits gives their value; only past the end does the parameter decide. -/
theorem peekFollowsTheParameter : Obligations.PeekFollowsTheParameter := by
  intro n bits pk
  refine ⟨fun h => ?_, fun hlt hpk => ?_⟩
  · by_cases hle : n ≤ bits.length
    · simp [peekBits, takeBits_of_le hle]
    · obtain rfl := h.resolve_left hle
      simp [peekBits, takeBits_eq_none.mpr (not_le.mp hle), zeroFilled_eq_msbValue]
  · simp [peekBits, takeBits_eq_none.mpr hlt, hpk]

/-! ### The header's bytes -/

/-- Reading back bytes from their bits (R55, R71). -/
theorem takeBytes_bitsOfBytes (bytes : List Byte) (rest : List Bool) :
    takeBytes bytes.length (bitsOfBytes bytes ++ rest) = some (bytes.map BitVec.toNat, rest) := by
  induction bytes with
  | nil => rfl
  | cons b bytes ih =>
    have hbits : bitsOfBytes (b :: bytes) ++ rest = bitsOf 8 b.toNat ++ (bitsOfBytes bytes ++ rest) := by
      simp [bitsOfBytes]
    rw [hbits, List.length_cons, takeBytes, takeBits_bitsOf, Nat.mod_eq_of_lt b.isLt]
    simp [ih]

/-- Every source byte below SRC_LEN can be read (R50). -/
theorem State.srcRead_of_lt {s : State} {i : Nat} (h : i < s.srcLen.toNat) : s.srcRead i = some (s.src.read i) :=
  if_pos h

/-- A source of at least eight bytes has its whole header (R101). -/
theorem State.headerBytes_of_le {s : State} (h : 8 ≤ s.srcLen.toNat) :
    s.headerBytes = (List.range 8).map s.src.read := by
  unfold State.headerBytes
  rw [← List.filterMap_eq_map]
  refine List.filterMap_congr fun i hi => State.srcRead_of_lt ?_
  exact (List.mem_range.mp hi).trans_le h

/-- `LE32` of a buffer is `LE32` of its four bytes (R56). -/
theorem Memory.le32_eq_leNat (m : Memory) (a : Nat) :
    m.le32 a = leNat [(m.read a).toNat, (m.read (a + 1)).toNat, (m.read (a + 2)).toNat, (m.read (a + 3)).toNat] := by
  simp only [Memory.le32, leNat]
  omega

/-- The header read at FRAME, where its eight bytes are there (R71, R101). -/
theorem State.fetch_frame {s : State} (h : 8 ≤ s.srcLen.toNat) :
    s.fetch .frame = .ok (.hdr (BitVec.ofNat 32 (s.src.le32 0)) (BitVec.ofNat 32 (s.src.le32 4)), []) := by
  have hsplit : bitsOfBytes s.headerBytes =
      bitsOfBytes [s.src.read 0, s.src.read 1, s.src.read 2, s.src.read 3] ++
        (bitsOfBytes [s.src.read 4, s.src.read 5, s.src.read 6, s.src.read 7] ++ []) := by
    rw [State.headerBytes_of_le h, List.append_nil]
    simp only [bitsOfBytes, ← List.flatMap_append]
    rfl
  have hcsize := takeBytes_bitsOfBytes [s.src.read 0, s.src.read 1, s.src.read 2, s.src.read 3]
    (bitsOfBytes [s.src.read 4, s.src.read 5, s.src.read 6, s.src.read 7] ++ [])
  have hosize := takeBytes_bitsOfBytes [s.src.read 4, s.src.read 5, s.src.read 6, s.src.read 7] []
  simp only [List.length_cons, List.length_nil, List.map_cons, List.map_nil, Nat.reduceAdd] at hcsize hosize
  rw [State.fetch, State.bitsAt, decode, decodeHdr, hsplit, hcsize]
  simp only [hosize, Memory.le32_eq_leNat, Nat.reduceAdd]

/-- Settles O15: at FRAME the step is the element read from the header's bytes. -/
theorem headerFieldsAreLittleEndian : Obligations.HeaderFieldsAreLittleEndian := by
  intro s hhost hphase h
  have hat : s.isAt .frame = true := decide_eq_true hphase
  rw [step_of_no_move hhost, engineStep_of_isAt hat (.inl rfl), runElement_of_fetch (State.fetch_frame h)]

/-! ### The payload -/

/-- `BIT(k)` below TOTAL_BITS (R55). -/
theorem State.bit_of_lt {s : State} {k : Nat} (h : k < s.totalBits) :
    s.bit k = some ((s.src.read (8 + k / 8)).getLsbD (7 - k % 8)) := by
  have hbyte : 8 + k / 8 < s.srcLen.toNat := by
    simp only [State.totalBits, Config.hdrBytes] at h
    omega
  simp [State.bit, h, State.srcRead_of_lt hbyte]

theorem State.bitsFrom_getElem? {s : State} {fuel k j : Nat} (h : k + fuel ≤ s.totalBits) (hj : j < fuel) :
    (s.bitsFrom fuel k)[j]? = s.bit (k + j) := by
  induction fuel generalizing k j with
  | zero => omega
  | succ fuel ih =>
    obtain ⟨b, hb⟩ := s.bit_isSome (k := k) (by omega)
    rw [State.bitsFrom, hb]
    cases j with
    | zero => simpa using hb.symm
    | succ j =>
      rw [List.getElem?_cons_succ, ih (by omega) (by omega)]
      congr 1
      omega

/-- Settles O12: the unread bit `j` is `BIT(BITPOS + j)`, and there are `TOTAL_BITS - BITPOS` of them. -/
theorem unreadBitsAreThePayload : Obligations.UnreadBitsAreThePayload := by
  intro s j hpos
  refine ⟨fun h => ?_, fun h => ?_⟩
  · have hk : s.bitPos.toNat + j < s.totalBits := h
    rw [State.bits, State.bitsFrom_getElem? (by omega) (by omega), State.bit_of_lt hk]
  · have hk : s.totalBits ≤ s.bitPos.toNat + j := h
    rw [List.getElem?_eq_none]
    rw [State.bits_length]
    omega

end Sys2Proof.Machine
end

section
/-! SUPPORT. What reading an element has established: its position, its operands, its bits and its lookahead; and why no
element can be read (20_memory.md R57 to R60; 30_encoding.md R71 to R80; 42_huffman_table.md R129 to R134). -/

namespace Sys2Proof.Machine

/-! ### An element that is read -/

/-- `used` bits stand before `rest`. -/
def Consumes (bits rest : List Bool) (n : Nat) : Prop :=
  ∃ used, bits = used ++ rest ∧ used.length = n

theorem Consumes.append {bits mid rest : List Bool} {n m : Nat} (h : Consumes bits mid n) (h' : Consumes mid rest m) :
    Consumes bits rest (n + m) := by
  obtain ⟨used, rfl, rfl⟩ := h
  obtain ⟨used', rfl, rfl⟩ := h'
  exact ⟨used ++ used', by simp, by simp⟩

theorem Consumes.length_le {bits rest : List Bool} {n : Nat} (h : Consumes bits rest n) : n ≤ bits.length := by
  obtain ⟨used, rfl, rfl⟩ := h
  simp

theorem Consumes.drop {bits rest : List Bool} {n : Nat} (h : Consumes bits rest n) : bits.drop n = rest := by
  obtain ⟨used, rfl, rfl⟩ := h
  simp

/-- Reading bytes consumes eight bits each (R71). -/
theorem takeBytes_some {n : Nat} {bits : List Bool} {bytes : List Nat} {rest : List Bool}
    (h : takeBytes n bits = some (bytes, rest)) : Consumes bits rest (8 * n) := by
  induction n generalizing bits bytes with
  | zero =>
    cases h
    exact ⟨[], rfl, rfl⟩
  | succ n ih =>
    rw [takeBytes] at h
    split at h
    · cases h
    · next b mid hb =>
      obtain ⟨⟨bytes', rest'⟩, h', hrest⟩ := Option.map_eq_some_iff.mp h
      cases hrest
      have hbyte : Consumes bits mid 8 := (takeBits_some hb).1
      rw [Nat.mul_succ, Nat.add_comm]
      exact hbyte.append (ih h')

/-- What an element read from some bits at a position has: the position, operands its encoding admits, its own bits
before what is left, and for a codeword of a built table under `Fault` the bits of the lookahead (R59, R60, R80, R132,
R133). -/
structure ReadAs (pk : PeekPastEnd) (t : HufTable) (p : Place) (bits : List Bool) (i : Instr) (rest : List Bool) :
    Prop where
  place : i.place = p
  wf : i.wf = true
  consumes : Consumes bits rest (i.bitLength t)
  lookahead : i.codeSymbol ≠ none → t.degen = false → pk = .fault → Config.tableBits t.alph ≤ bits.length

/-- A field element (R72): it has no codeword, and its operand fits its field. -/
theorem ReadAs.of_field {pk : PeekPastEnd} {t : HufTable} {p : Place} {bits : List Bool} {i : Instr} {rest : List Bool}
    {n : Nat} {mk : Nat → Instr} (h : decodeField n mk bits = .ok (i, rest))
    (hmk : ∀ v, v < 2 ^ n →
      (mk v).place = p ∧ (mk v).wf = true ∧ (mk v).bitLength t = n ∧ (mk v).codeSymbol = none) :
    ReadAs pk t p bits i rest := by
  obtain ⟨v, rfl, hlt, hused⟩ := decodeField_ok h
  obtain ⟨hplace, hwf, hlen, hcode⟩ := hmk v hlt
  exact ⟨hplace, hwf, by rw [hlen]; exact hused, fun hne => absurd hcode hne⟩

/-- A codeword element without raw bits (R74). -/
theorem ReadAs.of_code {pk : PeekPastEnd} {t : HufTable} {p : Place} {bits : List Bool} {i : Instr} {rest : List Bool}
    {v : Nat} (h : t.decodeSym pk bits = .ok (v, rest)) (hplace : i.place = p) (hwf : i.wf = true)
    (hlen : i.bitLength t = t.codeBits v) : ReadAs pk t p bits i rest := by
  obtain ⟨hused, -, hbuilt⟩ := HufTable.decodeSym_ok h
  exact ⟨hplace, hwf, by rw [hlen]; exact hused, fun _ hd => (hbuilt hd).2⟩

/-- A codeword element with raw bits (R74). -/
theorem ReadAs.of_code_field {pk : PeekPastEnd} {t : HufTable} {p : Place} {bits mid : List Bool} {i : Instr}
    {rest : List Bool} {v n : Nat} {mk : Nat → Instr} (h : t.decodeSym pk bits = .ok (v, mid))
    (hraw : decodeField n mk mid = .ok (i, rest))
    (hmk : ∀ x, x < 2 ^ n → (mk x).place = p ∧ (mk x).wf = true ∧ (mk x).bitLength t = t.codeBits v + n) :
    ReadAs pk t p bits i rest := by
  obtain ⟨hused, -, hbuilt⟩ := HufTable.decodeSym_ok h
  obtain ⟨x, rfl, hlt, hraw⟩ := decodeField_ok hraw
  obtain ⟨hplace, hwf, hlen⟩ := hmk x hlt
  have hcode : Consumes bits mid (t.codeBits v) := hused
  exact ⟨hplace, hwf, by rw [hlen]; exact hcode.append hraw, fun _ hd => (hbuilt hd).2⟩

theorem decodeHdr_readAs {pk : PeekPastEnd} {t : HufTable} {bits : List Bool} {i : Instr} {rest : List Bool}
    (h : decodeHdr bits = .ok (i, rest)) : ReadAs pk t .frame bits i rest := by
  unfold decodeHdr at h
  split at h
  · cases h
  · next c mid hc =>
    split at h
    · cases h
    · next o rest' ho =>
      cases h
      exact ⟨rfl, rfl, (takeBytes_some hc).append (takeBytes_some ho), fun hne => absurd rfl hne⟩

theorem decodeLen_readAs {pk : PeekPastEnd} {t : HufTable} {bits : List Bool} {i : Instr} {rest : List Bool}
    (h : decodeLen bits = .ok (i, rest)) : ReadAs pk t .ptEntry bits i rest := by
  unfold decodeLen at h
  split at h
  · cases h
  · next l mid hl =>
    obtain ⟨hused, hlt⟩ := popBits_ok hl
    have hhead : Consumes bits mid 3 := hused
    split at h
    · split at h
      · cases h
      · next k rest' hk =>
        cases h
        have htail : Consumes bits rest (3 + (k + 1)) := hhead.append (popTail_some hk)
        have hlen : (Instr.lenLong k).bitLength t = 3 + (k + 1) := by
          simp only [Instr.bitLength]
          omega
        exact ⟨rfl, rfl, by rwa [hlen], fun hne => absurd rfl hne⟩
    · next hne =>
      cases h
      refine ⟨rfl, ?_, hhead, fun hne => absurd rfl hne⟩
      simp only [Instr.wf, BitVec.toNat_ofNat, Nat.mod_eq_of_lt hlt]
      exact decide_eq_true hne

theorem decodeCEntry_readAs {pk : PeekPastEnd} {t : HufTable} {bits : List Bool} {i : Instr} {rest : List Bool}
    (hsym : ∀ v rest, t.decodeSym pk bits = .ok (v, rest) → v < 2 ^ 5) (h : decodeCEntry pk t bits = .ok (i, rest)) :
    ReadAs pk t .cEntry bits i rest := by
  unfold decodeCEntry at h
  split at h
  · cases h
  · next v mid hv =>
    split_ifs at h with h0 h1 h2
    · cases h
      exact .of_code hv rfl rfl (by rw [h0]; rfl)
    · exact .of_code_field hv h fun x _ => ⟨rfl, rfl, by rw [h1]; rfl⟩
    · exact .of_code_field hv h fun x _ => ⟨rfl, rfl, by rw [h2]; rfl⟩
    · cases h
      have hval : (BitVec.ofNat 5 v).toNat = v := Nat.mod_eq_of_lt (hsym v _ hv)
      refine .of_code hv rfl ?_ (by simp only [Instr.bitLength, hval])
      simp only [Instr.wf, hval, decide_eq_true_eq]
      omega

theorem decodeSymbol_readAs {pk : PeekPastEnd} {t : HufTable} {bits : List Bool} {i : Instr} {rest : List Bool}
    (hsym : ∀ v rest, t.decodeSym pk bits = .ok (v, rest) → v < 2 ^ 9) (h : decodeSymbol pk t bits = .ok (i, rest)) :
    ReadAs pk t .symbol bits i rest := by
  unfold decodeSymbol at h
  split at h
  · cases h
  · next v mid hv =>
    split_ifs at h with hlit
    · cases h
      have hval : (BitVec.ofNat 8 v).toNat = v := Nat.mod_eq_of_lt hlit
      exact .of_code hv rfl rfl (by simp only [Instr.bitLength, hval])
    · cases h
      have hval : (BitVec.ofNat 9 v).toNat = v := Nat.mod_eq_of_lt (hsym v _ hv)
      refine .of_code hv rfl ?_ (by simp only [Instr.bitLength, hval])
      simp only [Instr.wf, hval, decide_eq_true_eq]
      omega

theorem decodeDist_readAs {pk : PeekPastEnd} {t : HufTable} {bits : List Bool} {i : Instr} {rest : List Bool}
    (hsym : ∀ v rest, t.decodeSym pk bits = .ok (v, rest) → v < 2 ^ 5) (h : decodeDist pk t bits = .ok (i, rest)) :
    ReadAs pk t .dist bits i rest := by
  unfold decodeDist at h
  split at h
  · cases h
  · next v mid hv =>
    split_ifs at h with h0 h1
    · cases h
      exact .of_code hv rfl rfl (by rw [h0]; rfl)
    · cases h
      exact .of_code hv rfl rfl (by rw [h1]; rfl)
    · have hlt := hsym v _ hv
      have hval : (BitVec.ofNat 5 v).toNat = v := Nat.mod_eq_of_lt hlt
      refine .of_code_field hv h fun x hx => ⟨rfl, ?_, by simp only [Instr.bitLength, hval]⟩
      have hfit : x < 2 ^ 30 := hx.trans_le (Nat.pow_le_pow_right (by decide) (by omega))
      simp only [Instr.wf, hval, BitVec.toNat_ofNat, Nat.mod_eq_of_lt hfit, Bool.and_eq_true, decide_eq_true_eq]
      exact ⟨by omega, hx⟩

@[simp] theorem State.table_alph (s : State) (a : Alphabet) : (s.table a).alph = a := by
  cases a <;> rfl

/-- A symbol fits the width its constant has, 9 bits at C and 5 bits elsewhere (R35, R120, R131). -/
theorem State.decodeSym_lt {s : State} {a : Alphabet} {pk : PeekPastEnd} {bits : List Bool} {v : Nat} {rest : List Bool}
    (h : (s.table a).decodeSym pk bits = .ok (v, rest)) : v < 2 ^ (if a = .c then 9 else 5) := by
  obtain ⟨-, hconst, hbuilt⟩ := HufTable.decodeSym_ok h
  rw [State.table_alph] at hbuilt
  have hfit : (s.table a).const < 2 ^ (if a = .c then 9 else 5) ∧
      Config.numSymbols a < 2 ^ (if a = .c then 9 else 5) := by
    cases a
    · exact ⟨s.ptConst.isLt, by decide⟩
    · exact ⟨s.cConst.isLt, by decide⟩
    · exact ⟨s.ptConst.isLt, by decide⟩
  cases hd : (s.table a).degen with
  | true => rw [hconst hd]; exact hfit.1
  | false => exact (hbuilt hd).1.trans hfit.2

/-- What is read at a position (R59, R60, R80). -/
theorem State.fetch_readAs {s : State} {p : Place} {i : Instr} {rest : List Bool} (h : s.fetch p = .ok (i, rest)) :
    ReadAs s.peek (s.table p.alphabet) p (s.bitsAt p) i rest := by
  have hfits : ∀ {n v : Nat}, n ≤ 5 → v < 2 ^ n → decide ((BitVec.ofNat 5 v).toNat < 2 ^ n) = true := by
    intro n v hn hv
    exact decide_eq_true ((Nat.mod_le _ _).trans_lt hv)
  have hwidth : ∀ f, Config.posCountBits f ≤ 5 := fun f => by cases f <;> decide
  cases p with
  | frame => exact decodeHdr_readAs h
  | blkCount => exact .of_field h fun _ _ => ⟨rfl, rfl, rfl, rfl⟩
  | tCount => exact .of_field h fun _ _ => ⟨rfl, rfl, rfl, rfl⟩
  | tDegen => exact .of_field h fun _ _ => ⟨rfl, rfl, rfl, rfl⟩
  | pCount f => exact .of_field h fun _ hv => ⟨rfl, hfits (hwidth f) hv, rfl, rfl⟩
  | pDegen f => exact .of_field h fun _ hv => ⟨rfl, hfits (hwidth f) hv, rfl, rfl⟩
  | ptEntry => exact decodeLen_readAs h
  | ptZrun => exact .of_field h fun _ _ => ⟨rfl, rfl, rfl, rfl⟩
  | cCount => exact .of_field h fun _ _ => ⟨rfl, rfl, rfl, rfl⟩
  | cDegen => exact .of_field h fun _ _ => ⟨rfl, rfl, rfl, rfl⟩
  | cEntry => exact decodeCEntry_readAs (fun _ _ => State.decodeSym_lt) h
  | symbol => exact decodeSymbol_readAs (fun _ _ => State.decodeSym_lt) h
  | dist => exact decodeDist_readAs (fun _ _ => State.decodeSym_lt) h

/-- After the header an element is read from the unread bits (R57). -/
theorem State.bitsAt_of_ne_frame {s : State} {p : Place} (h : p ≠ .frame) : s.bitsAt p = s.bits := by
  cases p with
  | frame => exact absurd rfl h
  | _ => rfl

/-- Settles O7: what is read was among the unread bits, of which there are `TOTAL_BITS - BITPOS`. -/
theorem fetchedElementHasRoom : Obligations.FetchedElementHasRoom := by
  intro s p i rest hp hpos h
  obtain ⟨rfl, -, hconsumes, hlook⟩ := State.fetch_readAs h
  rw [State.bitsAt_of_ne_frame hp] at hconsumes hlook
  rw [State.table_alph] at hlook
  have hlen := s.bits_length
  have hroom : s.bitPos.toNat + i.bitLength (s.table i.place.alphabet) ≤ s.totalBits := by
    have := hconsumes.length_le
    omega
  refine ⟨⟨hroom, fun hcode hd hpk => ?_⟩, ?_⟩
  · have := hlook hcode hd hpk
    omega
  · rw [State.bits_advance hroom, hconsumes.drop]

end Sys2Proof.Machine
end

section
/-! SUPPORT. Counts and their constants, and streams that end too early: an element that cannot be read ends the job
(20_memory.md R59; 43_length_arrays.md R140, R141, R150, R151; 60_exceptions.md R191). -/

namespace Sys2Proof.Machine

/-! ### Counts and their constants -/

/-- A count position and that of the constant after a count of 0 (R140, R141, R150, R151). -/
def CountOf (p q : Place) : Prop :=
  (p = .tCount ∧ q = .tDegen) ∨ (∃ f, p = .pCount f ∧ q = .pDegen f) ∨ (p = .cCount ∧ q = .cDegen)

theorem CountOf.phase {p q : Place} (h : CountOf p q) : phaseOfPlace p = .ptCount ∨ phaseOfPlace p = .cCount := by
  rcases h with ⟨rfl, -⟩ | ⟨f, rfl, -⟩ | ⟨rfl, -⟩
  · exact .inl rfl
  · exact .inl rfl
  · exact .inr rfl

theorem CountOf.constant_ne_frame {p q : Place} (h : CountOf p q) : q ≠ .frame := by
  rcases h with ⟨-, rfl⟩ | ⟨f, -, rfl⟩ | ⟨-, rfl⟩ <;> simp

/-- At a count position the engine reads the count, and its constant where one follows. -/
theorem engineStep_of_count {s : State} {p q : Place} (hpq : CountOf p q) (hat : s.isAt p = true) :
    engineStep s = runCount p q s := by
  have hphase := State.phase_of_isAt hat
  rcases hpq with ⟨rfl, rfl⟩ | ⟨f, rfl, rfl⟩ | ⟨rfl, rfl⟩
  · have halph : s.alph = .t := (of_decide_eq_true hat).2
    simp only [engineStep, hphase, phaseOfPlace, State.genPlaces, halph]
  · obtain ⟨-, halph, hvar⟩ := of_decide_eq_true hat
    simp only [engineStep, hphase, phaseOfPlace, State.genPlaces, halph, hvar]
  · simp only [engineStep, hphase, phaseOfPlace]

theorem runCount_of_moved {s u : State} {p q : Place} (h : runElement p s = .next u) (hne : u.phase ≠ s.phase) :
    runCount p q s = .next u := by
  simp only [runCount, h, if_neg hne]

theorem runCount_of_stayed {s u : State} {p q : Place} (h : runElement p s = .next u) (heq : u.phase = s.phase) :
    runCount p q s = runElement q u := by
  simp only [runCount, h, if_pos heq]

theorem State.loadPtCount_stays {c : BitVec 9} {s : State}
    (h : (s.loadPtCount c).phase = .ptCount) : (s.loadPtCount c).cnt = 0 := by
  rcases s.loadPtCount_phase_cases c with ⟨hc, -⟩ | ⟨-, hentry⟩
  · exact hc
  · cases hentry.symm.trans h

theorem State.loadCCount_stays {c : BitVec 9} {s : State}
    (h : (s.loadCCount c).phase = .cCount) : (s.loadCCount c).cnt = 0 := by
  rcases s.loadCCount_phase_cases c with ⟨hc, -⟩ | ⟨-, hentry⟩
  · exact hc
  · cases hentry.symm.trans h

theorem Raised.phase {s t : State} (h : Raised s t) : t.phase = .idle := by
  obtain ⟨n, k, c, -, -, rfl⟩ := h
  rfl

/-- A count that leaves PHASE as it was is a count of 0, and its constant stands next (R141, R151). -/
theorem isAt_constant_of_count {s u : State} {p q : Place} {i : Instr} (hpq : CountOf p q) (hi : i.place = p)
    (h : exec i s = .next u) (heq : u.phase = s.phase) : u.isAt q = true := by
  have hsel := (exec_next h).1
  have hat := (State.selects_iff.mp hsel).2
  have hphase : u.phase = phaseOfPlace i.place := heq.trans (State.phase_of_selects hsel)
  have hgo : ¬ Raised s u := fun hr => phaseOfPlace_ne_idle _ (hphase.symm.trans hr.phase)
  rcases hpq with ⟨rfl, rfl⟩ | ⟨f, rfl, rfl⟩ | ⟨rfl, rfl⟩ <;> cases i <;> cases hi
  case inl.tCnt m =>
    obtain ⟨-, he⟩ := (exec_reg_next (fun _ => by simp [regEffect]) h).2.resolve_left hgo
    cases he
    obtain ⟨hp, halph⟩ := of_decide_eq_true hat
    exact decide_eq_true ⟨hphase, halph, State.loadPtCount_stays hphase⟩
  case inr.inl.pCnt m =>
    obtain ⟨-, he⟩ := (exec_reg_next (fun _ => by simp [regEffect]) h).2.resolve_left hgo
    cases he
    obtain ⟨hp, halph, hvar⟩ := of_decide_eq_true hat
    exact decide_eq_true ⟨hphase, halph, hvar, State.loadPtCount_stays hphase⟩
  case inr.inr.cCnt m =>
    obtain ⟨-, he⟩ := (exec_reg_next (fun _ => by simp [regEffect]) h).2.resolve_left hgo
    cases he
    exact decide_eq_true ⟨hphase, State.loadCCount_stays hphase⟩

/-! ### Streams that end too early -/

theorem peekBits_error {pk : PeekPastEnd} {n : Nat} {bits : List Bool} {e : DecodeError}
    (h : peekBits pk n bits = .error e) : e = .exhausted bits := by
  unfold peekBits at h
  split at h
  · cases h
  · cases pk with
    | fault => cases h; rfl
    | zeroFill => cases h

theorem HufTable.decodeSym_error {t : HufTable} {pk : PeekPastEnd} {bits : List Bool} {e : DecodeError}
    (h : t.decodeSym pk bits = .error e) : e ≠ .shortHeader := by
  unfold HufTable.decodeSym at h
  split at h
  · cases h
  · split at h
    · next hpeek =>
      cases h
      rw [peekBits_error hpeek]
      simp
    · split at h
      · cases h; simp
      · cases h; simp
      · split at h
        · next hpop =>
          cases h
          rw [(popBits_error hpop).2]
          simp
        · cases h

theorem decodeField_error_ne {n : Nat} {mk : Nat → Instr} {bits : List Bool} {e : DecodeError}
    (h : decodeField n mk bits = .error e) : e ≠ .shortHeader := by
  rw [(decodeField_error h).2]
  simp

theorem decodeHdr_error {bits : List Bool} {e : DecodeError} (h : decodeHdr bits = .error e) : e = .shortHeader := by
  unfold decodeHdr at h
  split at h
  · cases h; rfl
  · split at h
    · cases h; rfl
    · cases h

theorem decodeLen_error {bits : List Bool} {e : DecodeError} (h : decodeLen bits = .error e) : e ≠ .shortHeader := by
  unfold decodeLen at h
  split at h
  · next hpop =>
    cases h
    rw [(popBits_error hpop).2]
    simp
  · split at h
    · split at h
      · cases h; simp
      · cases h
    · cases h

theorem decodeCEntry_error {pk : PeekPastEnd} {t : HufTable} {bits : List Bool} {e : DecodeError}
    (h : decodeCEntry pk t bits = .error e) : e ≠ .shortHeader := by
  unfold decodeCEntry at h
  split at h
  · next hsym => cases h; exact HufTable.decodeSym_error hsym
  · split_ifs at h
    · exact decodeField_error_ne h
    · exact decodeField_error_ne h

theorem decodeSymbol_error {pk : PeekPastEnd} {t : HufTable} {bits : List Bool} {e : DecodeError}
    (h : decodeSymbol pk t bits = .error e) : e ≠ .shortHeader := by
  unfold decodeSymbol at h
  split at h
  · next hsym => cases h; exact HufTable.decodeSym_error hsym
  · split_ifs at h

theorem decodeDist_error {pk : PeekPastEnd} {t : HufTable} {bits : List Bool} {e : DecodeError}
    (h : decodeDist pk t bits = .error e) : e ≠ .shortHeader := by
  unfold decodeDist at h
  split at h
  · next hsym => cases h; exact HufTable.decodeSym_error hsym
  · split_ifs at h
    exact decodeField_error_ne h

/-- Only the header is read from bytes that may be missing (R101). -/
theorem State.fetch_error_iff {s : State} {p : Place} {e : DecodeError} (h : s.fetch p = .error e) :
    e = .shortHeader ↔ p = .frame := by
  cases p with
  | frame => exact iff_of_true (decodeHdr_error h) rfl
  | ptEntry => exact iff_of_false (decodeLen_error h) (by simp)
  | cEntry => exact iff_of_false (decodeCEntry_error h) (by simp)
  | symbol => exact iff_of_false (decodeSymbol_error h) (by simp)
  | dist => exact iff_of_false (decodeDist_error h) (by simp)
  | _ => exact iff_of_false (decodeField_error_ne h) (by simp)

/-- An element that cannot be read ends the job: InvalidSrcSize at the header, else MalformedSrcData (R191). -/
theorem runElement_of_error {s : State} {p : Place} {e : DecodeError} (h : s.fetch p = .error e) :
    ∃ t, runElement p s = .next t ∧ t.endedWith (if p = .frame then .invalidSrcSize else .malformedSrcData) := by
  have hshort := State.fetch_error_iff h
  simp only [runElement, h]
  cases e with
  | shortHeader =>
    rw [if_pos (hshort.mp rfl)]
    exact ⟨_, rfl, State.raise_endedWith _ _ _⟩
  | exhausted rest =>
    rw [if_neg (by simpa using hshort)]
    exact ⟨_, rfl, State.raise_endedWith _ _ _⟩
  | emptyEntry rest =>
    rw [if_neg (by simpa using hshort)]
    exact ⟨_, rfl, State.raise_endedWith _ _ _⟩

/-- A position is that of a count, of a constant, or of an element that is a step of its own (R28, R80; log 13). -/
theorem count_or_constant_or_alone (p : Place) :
    (∃ q, CountOf p q) ∨ (p = .tDegen ∨ p = .cDegen ∨ ∃ f, p = .pDegen f) ∨
    (p = .frame ∨ p = .blkCount ∨ p = .ptEntry ∨ p = .ptZrun ∨ p = .cEntry ∨ p = .symbol ∨ p = .dist) := by
  cases p with
  | tCount => exact .inl ⟨_, .inl ⟨rfl, rfl⟩⟩
  | pCount f => exact .inl ⟨_, .inr (.inl ⟨f, rfl, rfl⟩)⟩
  | cCount => exact .inl ⟨_, .inr (.inr ⟨rfl, rfl⟩)⟩
  | _ => simp

/-- Settles O38: the step runs the element, the count or the constant whose reading fails, and that ends the job. -/
theorem exhaustionEndsTheJob : Obligations.ExhaustionEndsTheJob := by
  intro s p hhost hat
  rw [step_of_no_move hhost]
  refine ⟨fun ⟨hT, hC, hP⟩ e he => ?_, fun q hpq i rest u e hfetch hexec hstay he => ?_⟩
  · obtain ⟨t, hrun, hended⟩ := runElement_of_error he
    refine ⟨t, ?_, hended⟩
    rcases count_or_constant_or_alone p with ⟨q, hpq⟩ | hconst | halone
    · have hmoved : t.phase ≠ s.phase := by
        rw [State.phase_of_isAt hat, hended.2.2.2]
        exact (phaseOfPlace_ne_idle p).symm
      rw [engineStep_of_count hpq hat, runCount_of_moved hrun hmoved]
    · rcases hconst with h | h | ⟨f, h⟩
      · exact absurd h hT
      · exact absurd h hC
      · exact absurd h (hP f)
    · rw [engineStep_of_isAt hat halone, hrun]
  · obtain ⟨t, hrun, hended⟩ := runElement_of_error he
    rw [if_neg (CountOf.constant_ne_frame hpq)] at hended
    have hcount : runElement p s = .next u := (runElement_of_fetch hfetch).trans hexec
    exact ⟨t, by rw [engineStep_of_count hpq hat, runCount_of_stayed hcount hstay, hrun], hended⟩

end Sys2Proof.Machine
end

section
/-! SUPPORT. The engine's step always answers: an element that is read is one its position selects, a count of 0 stands
before its constant, a write has room and a length entry has its slot (20_memory.md R52). -/

namespace Sys2Proof.Machine

/-! ### Every element answers -/

/-- A step answers a next state: no fault, no refusal. -/
def Answers (o : Out) : Prop :=
  ∃ t, o = .next t

theorem ifSelected_answers {i : Instr} {s : State} {k : State → Out} (hsel : s.selects i = true) (hk : Answers (k s)) :
    Answers (ifSelected i s k) := by
  rwa [ifSelected_of k hsel]

theorem popThen_answers {n : Nat} {s : State} {k : State → Out} (hk : ∀ m, Answers (k (s.advance m))) :
    Answers (popThen n s k) := by
  unfold popThen
  split
  · exact hk n
  · exact ⟨_, rfl⟩

theorem tailThen_answers {n : Nat} {s : State} {k : State → Out} (hk : ∀ m, Answers (k (s.advance m))) :
    Answers (tailThen n s k) := by
  unfold tailThen
  split
  · exact hk (n + 1)
  · exact ⟨_, rfl⟩

theorem codeThen_answers {a : Alphabet} {v : Nat} {s : State} {k : State → Out} (hk : ∀ m, Answers (k (s.advance m))) :
    Answers (codeThen a v s k) := by
  unfold codeThen
  split
  · rw [← s.advance_zero]
    exact hk 0
  · split
    · exact ⟨_, rfl⟩
    · exact popThen_answers hk

/-- A length entry below slot 31 has its slot (R142). -/
theorem putPtLen_answers {l : Nat} {s : State} (h : s.idx.toNat < Config.ptCap) : Answers (putPtLen l s) :=
  ⟨_, if_pos h⟩

theorem takeDistance_answers (d : Nat) (s : State) : Answers (takeDistance d s) := by
  unfold takeDistance
  split <;> exact ⟨_, rfl⟩

/-- A write below DST_LEN is inside DST (R51, R52). -/
theorem writeThen_answers {b : Byte} {s : State} {k : State → Out} (h : s.outLen.toNat < s.dstLen.toNat)
    (hk : Answers (k (s.store b))) : Answers (writeThen b s k) := by
  unfold writeThen
  rw [if_pos h]
  split
  · exact ⟨_, rfl⟩
  · exact hk

theorem copyByte_answers {s : State} (hsrc : s.cpySrc.toNat < s.outLen.toNat)
    (hroom : s.outLen.toNat < s.dstLen.toNat) :
    Answers (copyByte s) := by
  have hread : s.dstRead s.cpySrc.toNat = some (s.dst.read s.cpySrc.toNat) := if_pos (hsrc.trans hroom)
  simp only [copyByte, hread]
  exact writeThen_answers hroom ⟨_, rfl⟩

theorem buildPt_answers (s : State) : Answers (buildPt s) := by
  unfold buildPt
  split <;> exact ⟨_, rfl⟩

theorem buildC_answers (s : State) : Answers (buildC s) := by
  unfold buildC
  split <;> exact ⟨_, rfl⟩

theorem execHdr_answers {c o : BitVec 32} {s : State} (hsel : s.selects (.hdr c o) = true) :
    Answers (execHdr c o s) := by
  refine ifSelected_answers hsel ?_
  split_ifs <;> exact ⟨_, rfl⟩

/-- What an element needs of a state beside its position: a slot for a length entry, room for a literal (R142, R165). -/
structure State.Ready (s : State) : Prop where
  slot : s.phase = .ptEntry → s.idx.toNat < Config.ptCap
  room : s.phase = .symbol → s.outLen.toNat < s.dstLen.toNat

theorem State.Inv.ready {s : State} (h : s.Inv) : s.Ready where
  slot hp := (h.ptEntry hp).1.trans_le (h.ptEntry hp).2
  room hp := (h.session (State.inSession_of_phase hp (by decide) (by decide))).2.2

/-- An element that its position selects answers: it meets no slot and no byte outside its memory (R52). -/
theorem exec_answers {i : Instr} {s : State} (hs : s.Ready) (hsel : s.selects i = true) : Answers (exec i s) := by
  have hp := State.phase_of_selects hsel
  unfold exec
  cases i with
  | hdr c o => exact execHdr_answers hsel
  | blkhdr n => exact ifSelected_answers hsel (popThen_answers fun _ => ⟨_, rfl⟩)
  | tCnt m => exact ifSelected_answers hsel (popThen_answers fun _ => ⟨_, rfl⟩)
  | tDegen v => exact ifSelected_answers hsel (popThen_answers fun _ => ⟨_, rfl⟩)
  | pCnt f m => exact ifSelected_answers hsel (popThen_answers fun _ => ⟨_, rfl⟩)
  | pDegen f v => exact ifSelected_answers hsel (popThen_answers fun _ => ⟨_, rfl⟩)
  | lenShort l => exact ifSelected_answers hsel (popThen_answers fun _ => putPtLen_answers (hs.slot hp))
  | lenLong k =>
    exact ifSelected_answers hsel (popThen_answers fun _ => tailThen_answers fun _ => putPtLen_answers (hs.slot hp))
  | zrun2 z => exact ifSelected_answers hsel (popThen_answers fun _ => ⟨_, rfl⟩)
  | cCnt m => exact ifSelected_answers hsel (popThen_answers fun _ => ⟨_, rfl⟩)
  | cDegen v => exact ifSelected_answers hsel (popThen_answers fun _ => ⟨_, rfl⟩)
  | tZero => exact ifSelected_answers hsel (codeThen_answers fun _ => ⟨_, rfl⟩)
  | tRun4 r => exact ifSelected_answers hsel (codeThen_answers fun _ => popThen_answers fun _ => ⟨_, rfl⟩)
  | tRun9 r => exact ifSelected_answers hsel (codeThen_answers fun _ => popThen_answers fun _ => ⟨_, rfl⟩)
  | tLen v => exact ifSelected_answers hsel (codeThen_answers fun _ => ⟨_, rfl⟩)
  | lit b => exact ifSelected_answers hsel (codeThen_answers fun _ => writeThen_answers (hs.room hp) ⟨_, rfl⟩)
  | backref v => exact ifSelected_answers hsel (codeThen_answers fun _ => ⟨_, rfl⟩)
  | pos0 => exact ifSelected_answers hsel (codeThen_answers fun _ => takeDistance_answers _ _)
  | pos1 => exact ifSelected_answers hsel (codeThen_answers fun _ => takeDistance_answers _ _)
  | posN v x =>
    exact ifSelected_answers hsel (codeThen_answers fun _ => popThen_answers fun _ => takeDistance_answers _ _)

/-! ### The engine's step answers -/

/-- What is read where the state stands is selected there (R80). -/
theorem State.selects_of_fetch {s : State} {p : Place} {i : Instr} {rest : List Bool} (hat : s.isAt p = true)
    (h : s.fetch p = .ok (i, rest)) : s.selects i = true := by
  obtain ⟨rfl, hwf, -, -⟩ := State.fetch_readAs h
  exact State.selects_iff.mpr ⟨hwf, hat⟩

theorem runElement_answers {s : State} {p : Place} (hs : s.Ready) (hat : s.isAt p = true) :
    Answers (runElement p s) := by
  unfold runElement
  split
  · next h => exact exec_answers hs (State.selects_of_fetch hat h)
  · exact readFailed_answers _ _

/-- A count answers, and so does the constant after a count of 0 (R140, R141, R150, R151). -/
theorem runCount_answers {s : State} {p q : Place} (hpq : CountOf p q) (hs : s.Ready) (hat : s.isAt p = true) :
    Answers (runCount p q s) := by
  obtain ⟨u, hu⟩ := runElement_answers hs hat
  by_cases hstay : u.phase = s.phase
  · rw [runCount_of_stayed hu hstay]
    have hphase := hpq.phase
    rw [← State.phase_of_isAt hat, ← hstay] at hphase
    have hready : u.Ready := by constructor <;> intro hp <;> simp [hp] at hphase
    rcases runElement_next hu with hr | ⟨i, rest, hfetch, hexec⟩
    · simp [hr.phase] at hphase
    · exact runElement_answers hready (isAt_constant_of_count hpq (State.fetch_readAs hfetch).place hexec hstay)
  · exact ⟨u, runCount_of_moved hu hstay⟩

theorem engineStep_answers {s : State} (hs : s.Inv) : Answers (engineStep s) := by
  unfold engineStep
  split
  · exact ⟨_, rfl⟩
  · next hp => exact runElement_answers hs.ready (decide_eq_true hp)
  · next hp =>
    split
    · exact ⟨_, rfl⟩
    · next hremain => exact runElement_answers hs.ready (decide_eq_true ⟨hp, hremain⟩)
  · next hp => exact runElement_answers hs.ready (decide_eq_true hp)
  · next hp =>
    cases halph : s.alph with
    | t =>
      simp only [State.genPlaces, halph]
      exact runCount_answers (.inl ⟨rfl, rfl⟩) hs.ready (decide_eq_true ⟨hp, halph⟩)
    | p =>
      simp only [State.genPlaces, halph]
      exact runCount_answers (.inr (.inl ⟨_, rfl, rfl⟩)) hs.ready (decide_eq_true ⟨hp, halph, rfl⟩)
  · split
    · next hat => exact runElement_answers hs.ready hat
    · exact ⟨_, rfl⟩
  · next hp => exact runElement_answers hs.ready (decide_eq_true hp)
  · exact buildPt_answers s
  · next hp => exact runCount_answers (.inr (.inr ⟨rfl, rfl⟩)) hs.ready (decide_eq_true hp)
  · split
    · next hat => exact runElement_answers hs.ready hat
    · exact ⟨_, rfl⟩
  · exact buildC_answers s
  · next hp => exact runElement_answers hs.ready (decide_eq_true hp)
  · next hp =>
    exact copyByte_answers (hs.copy hp).2.2 (hs.session (State.inSession_of_phase hp (by decide) (by decide))).2.2

/-- Settles O45: the engine answers in every state with the invariant, and its step is the machine's where no move of
the host is pending or the oldest one leaves the step to it. -/
theorem engineStepAlwaysAnswers : Obligations.EngineStepAlwaysAnswers := by
  intro s hs
  obtain ⟨t, ht⟩ := engineStep_answers hs
  exact ⟨t, ht, fun hhost => (step_of_no_move hhost).trans ht, fun rest => step_move .engine rest s⟩

end Sys2Proof.Machine
end

section
/-! SUPPORT. What the host's buffers hold: the bytes supplied, the output of a finished job, and the bytes beyond
DST_LEN (20_memory.md R50 to R52, R62; 60_exceptions.md R195; 70_reset_and_hazards.md R213 to R216). -/

namespace Sys2Proof.Machine

/-! ### Supplied buffers -/

theorem Memory.read_ofBytes_of_lt {bytes : List Byte} {a : Nat} (h : a < bytes.length) :
    some ((Memory.ofBytes 0 bytes).read a) = bytes[a]? := by
  rw [Memory.read_ofBytes 0 a bytes (Nat.zero_le a)]
  simp [h]

theorem supplySrc_of_idle {s : State} (hb : s.busy = false) (bytes : List Byte) :
    supplySrc bytes s = .next { s with src := Memory.ofBytes 0 bytes, srcCap := bytes.length } :=
  if_neg (ne_true_of_eq_false hb)

theorem supplyDst_of_idle {s : State} (hb : s.busy = false) (bytes : List Byte) :
    supplyDst bytes s = .next { s with dst := Memory.ofBytes 0 bytes, dstCap := bytes.length, dstLost := [] } :=
  if_neg (ne_true_of_eq_false hb)

/-- Settles O58: a supplied buffer is made of its bytes; supplying DST forgets what an earlier job left unspecified. -/
theorem suppliedBuffersHoldTheirBytes : Obligations.SuppliedBuffersHoldTheirBytes := by
  intro s rest bytes hb
  rw [step_move, step_move, hostMove, hostMove, supplySrc_of_idle (s := { s with host := rest }) hb,
    supplyDst_of_idle (s := { s with host := rest }) hb]
  exact ⟨⟨_, rfl, rfl, rfl, Memory.wf_ofBytes 0 bytes, fun a ha => Memory.read_ofBytes_of_lt ha⟩,
    _, rfl, rfl, rfl, Memory.wf_ofBytes 0 bytes, fun a ha => ⟨Memory.read_ofBytes_of_lt ha, rfl⟩⟩

/-! ### Unspecified bytes after a step -/

/-- All that an element or a step of the engine can do to the unspecified bytes of DST (R195; log 11). -/
inductive LostStep (s t : State) : Prop where
  /-- the job goes on -/
  | quiet (status : SameStatus s t) (lost : t.dstLost = s.dstLost)
  /-- an error leaves `DST[0 .. DST_LEN)` unspecified -/
  | failed (k : ErrCode) (error : k ≠ .ok) (ended : t.endedWith k)
      (lost : ∀ i, t.dstByteLost i = (decide (i < s.dstLen.toNat) || s.dstByteLost i))
  /-- the byte that fills DST leaves none of `DST[0 .. DST_LEN)` unspecified (R62) -/
  | filled (ended : t.endedWith .ok) (lost : ∀ i, t.dstByteLost i = (decide (s.dstLen.toNat ≤ i) && s.dstByteLost i))
  /-- the header of an empty output (R102) -/
  | empty (frame : s.phase = .frame) (lost : t.dstLost = s.dstLost)

/-- A byte at or above DST_LEN is not made unspecified (R195, R214). -/
theorem LostStep.beyond {s t : State} (h : LostStep s t) {i : Nat} (hi : s.dstLen.toNat ≤ i)
    (hs : s.dstByteLost i = false) : t.dstByteLost i = false := by
  cases h with
  | quiet _ lost => rwa [State.dstByteLost, lost]
  | failed _ _ _ lost => simp [lost, hs, hi]
  | filled _ lost => simp [lost, hs]
  | empty _ lost => rwa [State.dstByteLost, lost]

/-- A count of 0 and its constant are one step (R141, R151): only the constant can end it. -/
theorem LostStep.count_trans {s u t : State} (hp : s.phase = .ptCount ∨ s.phase = .cCount) (hu : u.phase = s.phase)
    (hlen : u.dstLen = s.dstLen) (hsu : LostStep s u) (hut : LostStep u t) : LostStep s t := by
  rw [← hu] at hp
  cases hsu with
  | quiet status lost =>
    have hbyte : ∀ i, u.dstByteLost i = s.dstByteLost i := fun i => by rw [State.dstByteLost, lost]; rfl
    cases hut with
    | quiet status' lost' =>
      exact .quiet ⟨status'.1.trans status.1, status'.2.1.trans status.2.1, status'.2.2.trans status.2.2⟩
        (lost'.trans lost)
    | failed k error ended lost' => exact .failed k error ended fun i => by rw [lost', hlen, hbyte]
    | filled ended lost' => exact .filled ended fun i => by rw [lost', hlen, hbyte]
    | empty frame => simp [frame] at hp
  | failed k _ ended => simp [ended.2.2.2] at hp
  | filled ended => simp [ended.2.2.2] at hp
  | empty frame => simp [hu, frame] at hp

theorem Raised.lostStep {s t : State} (h : Raised s t) : LostStep s t := by
  obtain ⟨n, k, c, hk, -, rfl⟩ := h
  exact .failed k hk (State.raise_endedWith _ _ _) fun i => State.raise_dstByteLost k c (s.advance n) i

theorem regEffect_dstLost {i : Instr} {s t : State} (h : regEffect i s = some t) : t.dstLost = s.dstLost := by
  cases i <;> cases h <;> rfl

theorem exec_lostStep {i : Instr} {s t : State} (h : exec i s = .next t) : LostStep s t := by
  obtain ⟨-, hr | ⟨c, o, rfl, rfl | ⟨-, -, -, rfl⟩⟩ |
    ⟨-, he | ⟨b, -, -, ⟨-, rfl⟩ | ⟨-, rfl⟩⟩ | ⟨d, -, -, rfl⟩⟩⟩ := exec_next h
  · exact hr.lostStep
  · exact .empty (execHdr_next h).1 rfl
  · exact .quiet ⟨rfl, rfl, rfl⟩ rfl
  · obtain ⟨hstatus, -⟩ := regEffect_quiet he
    exact .quiet hstatus (by simpa using regEffect_dstLost he)
  · exact .filled (State.finishFull_endedWith _) fun i => State.finishFull_dstByteLost _ i
  · exact .quiet ⟨rfl, rfl, rfl⟩ rfl
  · exact .quiet ⟨rfl, rfl, rfl⟩ rfl

theorem runElement_lostStep {p : Place} {s t : State} (h : runElement p s = .next t) : LostStep s t := by
  obtain hr | ⟨i, rest, -, he⟩ := runElement_next h
  · exact hr.lostStep
  · exact exec_lostStep he

theorem runElement_sameLaunch {p : Place} {s t : State} (h : runElement p s = .next t) : SameLaunch s t := by
  obtain hr | ⟨i, rest, -, he⟩ := runElement_next h
  · exact hr.sameLaunch
  · exact exec_sameLaunch he

theorem buildPt_lostStep {s t : State} (h : buildPt s = .next t) : LostStep s t := by
  obtain ⟨c, -, rfl⟩ | ⟨b, -, rfl⟩ := buildPt_next h
  · exact (Raised.here (by decide)).lostStep
  · exact .quiet ⟨rfl, rfl, rfl⟩ rfl

theorem buildC_lostStep {s t : State} (h : buildC s = .next t) : LostStep s t := by
  obtain ⟨c, -, rfl⟩ | ⟨b, -, rfl⟩ := buildC_next h
  · exact (Raised.here (by decide)).lostStep
  · exact .quiet ⟨rfl, rfl, rfl⟩ rfl

theorem copyByte_lostStep {s t : State} (h : copyByte s = .next t) : LostStep s t := by
  obtain ⟨-, -, ⟨-, rfl⟩ | ⟨-, rfl⟩⟩ := copyByte_next h
  · exact .filled (State.finishFull_endedWith _) fun i => State.finishFull_dstByteLost _ i
  · exact .quiet ⟨rfl, rfl, rfl⟩ rfl

theorem engineStep_lostStep {s t : State} (h : engineStep s = .next t) : LostStep s t := by
  rcases engineStep_next h with ⟨-, rfl⟩ | ⟨-, p, h⟩ | ⟨hp, p, q, u, hsu, hu, hut⟩ | ⟨-, -, rfl⟩ | ⟨-, rfl⟩ | ⟨-, rfl⟩ |
    ⟨-, h⟩ | ⟨-, h⟩ | ⟨-, h⟩
  · exact .quiet ⟨rfl, rfl, rfl⟩ rfl
  · exact runElement_lostStep h
  · exact (runElement_lostStep hsu).count_trans hp hu (runElement_sameLaunch hsu).dstLen (runElement_lostStep hut)
  · exact .quiet ⟨rfl, rfl, rfl⟩ rfl
  · exact .quiet ⟨rfl, rfl, rfl⟩ rfl
  · exact .quiet ⟨rfl, rfl, rfl⟩ rfl
  · exact buildPt_lostStep h
  · exact buildC_lostStep h
  · exact copyByte_lostStep h

/-! ### Reading DST -/

/-- A byte that is neither racing nor unspecified reads as the buffer holds it (R62, R214). -/
theorem step_readDst (s : State) (rest : List HostMove) {a : Nat} (ha : a < s.dstCap) (hrace : s.dstRacing a = false)
    (hlost : s.dstByteLost a = false) :
    step { s with host := .readDst a :: rest } =
      .next { s with host := rest, rdata := (s.dst.read a).zeroExtend 32 } := by
  have hr : ({ s with host := rest } : State).dstRacing a = false := hrace
  have hl : ({ s with host := rest } : State).dstByteLost a = false := hlost
  rw [step_move, hostMove, readDst, if_pos ha]
  simp [hr, hl, State.dstByteRead]

/-- A step writes nothing at or above DST_LEN (R51, R52). -/
theorem JobStep.read_beyond {s t : State} (h : JobStep s t) {a : Nat} (ha : s.dstLen.toNat ≤ a) :
    t.dst.read a = s.dst.read a := by
  have same : t.dst = s.dst → t.dst.read a = s.dst.read a := fun hd => by rw [hd]
  have wrote : WritesByte s t → t.dst.read a = s.dst.read a := fun hw =>
    hw.read_other (hw.room.trans_le ha).ne'
  cases h with
  | quiet _ output => exact same output.2
  | wrote _ output => exact wrote output
  | failed _ _ _ output => exact same output.2
  | filled _ output => exact wrote output
  | empty _ _ output => exact same output.2
  | started _ _ _ dst => exact same dst

theorem zeroExtend_byte_toNat (b : Byte) : (b.zeroExtend 32).toNat = b.toNat :=
  (BitVec.toNat_setWidth 32 b).trans (Nat.mod_eq_of_lt (b.isLt.trans (by decide)))

/-- After the byte that fills DST the host reads what the buffer holds below DST_LEN (R62, R216). -/
theorem readDst_after_success {s t : State} (hs : s.Inv) (hb : s.busy = true) (hp : s.phase ≠ .frame)
    (h : engineStep s = .next t) (hidle : t.busy = false) (hok : t.err = .ok) {a : Nat} (ha : a < t.dstLen.toNat) :
    a < t.dstCap ∧ t.dstRacing a = false ∧ t.dstByteLost a = false := by
  have hl := engineStep_sameLaunch h
  have hcap : a < t.dstCap := by
    rw [hl.dstLen] at ha
    rw [hl.dstCap]
    exact ha.trans_le (hs.launched hb).2
  refine ⟨hcap, by simp [State.dstRacing, hidle], ?_⟩
  cases engineStep_lostStep h with
  | quiet status =>
    rw [status.1, hb] at hidle
    cases hidle
  | failed k error ended => exact absurd (ended.2.2.1.symm.trans hok) error
  | filled _ lost =>
    rw [lost, ← hl.dstLen, decide_eq_false (Nat.not_le.mpr ha), Bool.false_and]
  | empty frame => exact absurd frame hp

/-- What stands at or above DST_LEN outlives a step of the engine and a reset (R52, R195, R214). -/
theorem readDst_beyond {s t : State} (h : engineStep s = .next t ∨ hostMove .reset s = .next t) {a : Nat}
    (ha : s.dstLen.toNat ≤ a) (hlost : s.dstByteLost a = false) :
    t.dstCap = s.dstCap ∧ t.dstRacing a = false ∧ t.dstByteLost a = false ∧ t.dst.read a = s.dst.read a := by
  rcases h with h | h
  · have hl := engineStep_sameLaunch h
    have hrace : t.dstRacing a = false := by simp [State.dstRacing, hl.dstLen, ha]
    exact ⟨hl.dstCap, hrace, (engineStep_lostStep h).beyond ha hlost, (engineStep_jobStep h).read_beyond ha⟩
  · cases h
    have hrace : s.dstRacing a = false := by simp [State.dstRacing, ha]
    exact ⟨rfl, rfl, by simp [State.hostReset_dstByteLost, hrace, hlost], rfl⟩

/-- Settles O59: in both cases the byte read neither races nor is unspecified, so the host reads the buffer's byte. -/
theorem hostReadsTheOutput : Obligations.HostReadsTheOutput := by
  refine ⟨fun s t rest hs hb hp h hidle hok a ha => ?_, fun s t rest a _ h ha hcap hlost => ?_⟩
  · obtain ⟨hcap, hrace, hl⟩ := readDst_after_success hs hb hp h hidle hok ha
    exact ⟨_, step_readDst t rest hcap hrace hl, rfl, zeroExtend_byte_toNat _, rfl, rfl⟩
  · obtain ⟨hsame, hrace, hl, hread⟩ := readDst_beyond h ha hlost
    exact ⟨_, step_readDst t rest (by rwa [hsame]) hrace hl, by rw [← hread]; exact zeroExtend_byte_toNat _⟩

end Sys2Proof.Machine
end

section
/-! SUPPORT. An element decodes back from its encoding, and one out of its position is refused (30_encoding.md R70 to R80;
42_huffman_table.md R131). -/

namespace Sys2Proof

/-! ### Elements without a codeword -/

/-- A field that holds an operand reads back as the element of that operand (R72). -/
theorem decodeField_bitsOf {n w : Nat} (mk : BitVec w → Instr) {v : BitVec w} (h : v.toNat < 2 ^ n)
    (rest : List Bool) :
    decodeField n (fun m => mk (BitVec.ofNat w m)) (bitsOf n v.toNat ++ rest) = .ok (mk v, rest) := by
  simp [decodeField, popBits_bitsOf h]

/-- A field as wide as its operand: the operand always fits (R72). -/
theorem decodeField_bitVec {w : Nat} (mk : BitVec w → Instr) (v : BitVec w) (rest : List Bool) :
    decodeField w (fun m => mk (BitVec.ofNat w m)) (bitsOf w v.toNat ++ rest) = .ok (mk v, rest) :=
  decodeField_bitsOf mk v.isLt rest

/-- The four bytes of a header word read back, least significant first (R56, R71). -/
theorem takeBytes_encodeLE32 (v : Nat) (rest : List Bool) :
    takeBytes 4 (encodeLE32 v ++ rest) =
      some ([v % 256, v / 256 % 256, v / 65536 % 256, v / 16777216 % 256], rest) := by
  simp [encodeLE32, takeBytes, takeBits_bitsOf]

/-- `LE32` of the four bytes of a header word is the word (R56). -/
theorem leNat_bytes {v : Nat} (h : v < 2 ^ 32) :
    leNat [v % 256, v / 256 % 256, v / 65536 % 256, v / 16777216 % 256] = v := by
  simp only [leNat]
  omega

theorem decodeHdr_encodeLE32 (c o : BitVec 32) (rest : List Bool) :
    decodeHdr (encodeLE32 c.toNat ++ encodeLE32 o.toNat ++ rest) = .ok (.hdr c o, rest) := by
  simp [decodeHdr, takeBytes_encodeLE32, leNat_bytes c.isLt, leNat_bytes o.isLt]

/-- A short length is no escape: its field is not 7 (R73). -/
theorem decodeLen_lenShort {l : BitVec 3} (h : l.toNat ≠ 7) (rest : List Bool) :
    decodeLen (bitsOf 3 l.toNat ++ rest) = .ok (.lenShort l, rest) := by
  simp [decodeLen, popBits_bitsOf l.isLt, h]

/-- A long length is the escape 7 and its unary tail (R73, R144). -/
theorem decodeLen_lenLong (k : Nat) (rest : List Bool) :
    decodeLen ([true, true, true] ++ List.replicate k true ++ [false] ++ rest) = .ok (.lenLong k, rest) := by
  have hescape : popBits 3 ([true, true, true] ++ (List.replicate k true ++ false :: rest)) =
      .ok (7, List.replicate k true ++ false :: rest) := popBits_bitsOf (v := 7) (by decide) _
  have hbits : [true, true, true] ++ List.replicate k true ++ [false] ++ rest =
      [true, true, true] ++ (List.replicate k true ++ false :: rest) := by simp
  rw [hbits, decodeLen, hescape]
  simp [popTail_replicate]

/-- Settles O2: each field, header word and length entry reads back from its own bits. -/
theorem fieldElementsRoundTrip : Obligations.FieldElementsRoundTrip := by
  intro i pk t rest hwf hcode
  cases i with
  | hdr c o => exact decodeHdr_encodeLE32 c o rest
  | blkhdr n => exact decodeField_bitVec .blkhdr n rest
  | tCnt m => exact decodeField_bitVec .tCnt m rest
  | tDegen v => exact decodeField_bitVec .tDegen v rest
  | pCnt f m => exact decodeField_bitsOf (.pCnt f) (of_decide_eq_true hwf) rest
  | pDegen f v => exact decodeField_bitsOf (.pDegen f) (of_decide_eq_true hwf) rest
  | lenShort l => exact decodeLen_lenShort (of_decide_eq_true hwf) rest
  | lenLong k => exact decodeLen_lenLong k rest
  | zrun2 z => exact decodeField_bitVec .zrun2 z rest
  | cCnt m => exact decodeField_bitVec .cCnt m rest
  | cDegen v => exact decodeField_bitVec .cDegen v rest
  | _ => cases hcode

/-! ### Elements with a codeword -/

/-- The raw bits that follow an element's codeword (R74, R75). -/
def Instr.rawBits : Instr → List Bool
  | .tRun4 r => bitsOf 4 r.toNat
  | .tRun9 r => bitsOf 9 r.toNat
  | .posN v x => bitsOf (v.toNat - 1) x.toNat
  | _ => []

/-- A codeword element is its codeword and then its raw bits (R74). -/
theorem encode_of_codeSymbol {i : Instr} {v : Nat} (h : i.codeSymbol = some v) (t : HufTable) :
    encode t i = t.codeword v ++ i.rawBits := by
  cases i <;> cases h <;> simp [encode, Instr.rawBits]

/-- A codeword element decodes back if its symbol does: the rest of the element are raw bits, which no table changes
(R74 to R78). -/
theorem decode_encode_of_decodeSym {i : Instr} {v : Nat} {pk : PeekPastEnd} {t : HufTable} {rest : List Bool}
    (hwf : i.wf = true) (hcode : i.codeSymbol = some v)
    (hsym : t.decodeSym pk (encode t i ++ rest) = .ok (v, i.rawBits ++ rest)) :
    decode pk t i.place (encode t i ++ rest) = .ok (i, rest) := by
  generalize encode t i ++ rest = bits at hsym ⊢
  cases i with
  | tZero =>
    cases hcode
    simp [Instr.place, decode, decodeCEntry, hsym, Instr.rawBits]
  | tRun4 r =>
    cases hcode
    simpa [Instr.place, decode, decodeCEntry, hsym, Instr.rawBits] using decodeField_bitVec .tRun4 r rest
  | tRun9 r =>
    cases hcode
    simpa [Instr.place, decode, decodeCEntry, hsym, Instr.rawBits] using decodeField_bitVec .tRun9 r rest
  | tLen w =>
    cases hcode
    have hw : 3 ≤ w.toNat := of_decide_eq_true hwf
    simp [Instr.place, decode, decodeCEntry, hsym, Instr.rawBits, show w.toNat ≠ 0 by omega,
      show w.toNat ≠ 1 by omega, show w.toNat ≠ 2 by omega]
  | lit b =>
    cases hcode
    simp [Instr.place, decode, decodeSymbol, hsym, Instr.rawBits, b.isLt]
  | backref w =>
    cases hcode
    have hw : ¬ w.toNat < 256 := not_lt.mpr (of_decide_eq_true hwf)
    simp [Instr.place, decode, decodeSymbol, hsym, Instr.rawBits, hw]
  | pos0 =>
    cases hcode
    simp [Instr.place, decode, decodeDist, hsym, Instr.rawBits]
  | pos1 =>
    cases hcode
    simp [Instr.place, decode, decodeDist, hsym, Instr.rawBits]
  | posN w x =>
    cases hcode
    obtain ⟨hw, hx⟩ : 2 ≤ w.toNat ∧ x.toNat < 2 ^ (w.toNat - 1) := by simpa [Instr.wf] using hwf
    simpa [Instr.place, decode, decodeDist, hsym, Instr.rawBits, show w.toNat ≠ 0 by omega,
      show w.toNat ≠ 1 by omega] using decodeField_bitsOf (.posN w) hx rest
  | _ => cases hcode

/-- A degenerate table gives its constant and uses no bit (R131). -/
theorem HufTable.decodeSym_of_degen {t : HufTable} (h : t.degen = true) (pk : PeekPastEnd) (bits : List Bool) :
    t.decodeSym pk bits = .ok (t.const, bits) :=
  if_pos h

/-- A symbol of a degenerate table has no codeword bits (R131). -/
theorem HufTable.codeword_of_degen {t : HufTable} (h : t.degen = true) (v : Nat) : t.codeword v = [] :=
  if_pos h

/-- Settles O3: the symbol is the constant of the table, so the element is read from its raw bits. -/
theorem degenerateCodewordRoundTrip : Obligations.DegenerateCodewordRoundTrip := by
  intro i v pk t rest hwf hcode hdegen hconst
  refine decode_encode_of_decodeSym hwf hcode ?_
  rw [encode_of_codeSymbol hcode, HufTable.codeword_of_degen hdegen, HufTable.decodeSym_of_degen hdegen, hconst,
    List.nil_append]

namespace Machine

/-! ### Elements and their positions -/

/-- Settles O6: the position and the operands of what is read. -/
theorem fetchedElementIsSelected : Obligations.FetchedElementIsSelected := by
  intro s p i rest h
  have hread := State.fetch_readAs h
  exact ⟨hread.place, hread.wf⟩

/-- An element that is not selected has no meaning (log 17). -/
theorem ifSelected_of_not {i : Instr} {s : State} (k : State → Out) (h : s.selects i = false) :
    ifSelected i s k = .refused .notSelected := by
  simp [ifSelected, h]

/-- Every meaning asks first whether its own element is selected (R80; log 17). -/
theorem exec_of_not_selects {i : Instr} {s : State} (h : s.selects i = false) : exec i s = .refused .notSelected := by
  unfold exec
  cases i <;> exact ifSelected_of_not _ h

/-- Settles O10: neither a wrong operand nor a wrong position is selected. -/
theorem unselectedElementsAreRefused : Obligations.UnselectedElementsAreRefused := by
  intro i s h
  exact exec_of_not_selects (Bool.and_eq_false_iff.mpr h)

end Machine

end Sys2Proof
end

section
/-! SUPPORT. The header's checks, and the end of every job: each step of a running job writes a byte, consumes a bit, or
goes down in the order of the phases (41_framer.md R101 to R108). -/

namespace Sys2Proof.Machine

/-! ### The header's checks -/

/-- HDR stands at FRAME and admits all its operands (R71, R80). -/
theorem State.selects_hdr {s : State} (hp : s.phase = .frame) (c o : BitVec 32) : s.selects (.hdr c o) = true :=
  State.selects_iff.mpr ⟨rfl, decide_eq_true hp⟩

theorem execHdr_of_short {s : State} {c o : BitVec 32} (hp : s.phase = .frame) (h8 : s.srcLen.toNat < 8) :
    execHdr c o s = .next (s.raise .invalidSrcSize .shortSrc) := by
  rw [execHdr, ifSelected_of _ (s.selects_hdr hp c o), if_pos h8]

theorem execHdr_of_csize {s : State} {c o : BitVec 32} (hp : s.phase = .frame) (h8 : 8 ≤ s.srcLen.toNat)
    (hc : s.srcLen.toNat < c.toNat) : execHdr c o s = .next (s.raise .invalidSrcSize .csize) := by
  rw [execHdr, ifSelected_of _ (s.selects_hdr hp c o), if_neg h8.not_gt, if_pos hc]

theorem execHdr_of_empty {s : State} {c o : BitVec 32} (hp : s.phase = .frame) (h8 : 8 ≤ s.srcLen.toNat)
    (hc : c.toNat ≤ s.srcLen.toNat) (ho : o = 0) : execHdr c o s = .next s.finish := by
  rw [execHdr, ifSelected_of _ (s.selects_hdr hp c o), if_neg h8.not_gt, if_neg hc.not_gt, if_pos ho]

theorem execHdr_of_osize {s : State} {c o : BitVec 32} (hp : s.phase = .frame) (h8 : 8 ≤ s.srcLen.toNat)
    (hc : c.toNat ≤ s.srcLen.toNat) (ho : o ≠ 0) (hd : o ≠ s.dstLen) :
    execHdr c o s = .next (s.raise .invalidDstSize .osize) := by
  rw [execHdr, ifSelected_of _ (s.selects_hdr hp c o), if_neg h8.not_gt, if_neg hc.not_gt, if_neg ho, if_pos hd]

theorem execHdr_of_valid {s : State} {c o : BitVec 32} (hp : s.phase = .frame) (h8 : 8 ≤ s.srcLen.toNat)
    (hc : c.toNat ≤ s.srcLen.toNat) (ho : o ≠ 0) (hd : o = s.dstLen) : execHdr c o s = .next s.sessionStart := by
  rw [execHdr, ifSelected_of _ (s.selects_hdr hp c o), if_neg h8.not_gt, if_neg hc.not_gt, if_neg ho,
    if_neg (not_not.mpr hd)]

/-- Settles O16: one equation of HDR for each check, in the order of R101. -/
theorem headerChecksInOrder : Obligations.HeaderChecksInOrder := by
  intro s c o hp
  refine ⟨fun h8 => ?_, fun h8 hc => ?_, fun h8 hc ho => ?_, fun h8 hc ho hd => ?_, fun h8 hc ho hd => ?_⟩
  · exact ⟨_, execHdr_of_short hp h8, State.raise_endedWith _ _ _⟩
  · exact ⟨_, execHdr_of_csize hp h8 hc, State.raise_endedWith _ _ _⟩
  · exact ⟨_, execHdr_of_empty hp h8 hc ho, s.finish_endedWith⟩
  · exact ⟨_, execHdr_of_osize hp h8 hc ho hd, State.raise_endedWith _ _ _⟩
  · exact execHdr_of_valid hp h8 hc ho hd

/-- Settles O17: the step is HDR of the header's two words, which ends the job; OUT_LEN and BITPOS are 0 since START. -/
theorem emptyOutputSucceedsAtOnce : Obligations.EmptyOutputSucceedsAtOnce := by
  intro s hs hhost hp h8 hcsize hosize
  obtain ⟨hpos, hlen, -⟩ := hs.fresh hp
  have hc : (BitVec.ofNat 32 (s.src.le32 0)).toNat ≤ s.srcLen.toNat := by
    rw [BitVec.toNat_ofNat]
    exact (Nat.mod_le _ _).trans hcsize
  have ho : BitVec.ofNat 32 (s.src.le32 4) = 0 := congrArg (BitVec.ofNat 32) hosize
  exact ⟨(headerFieldsAreLittleEndian s hhost hp h8).trans (execHdr_of_empty hp h8 hc ho), hlen, hpos⟩

/-! ### What a phase can still do -/

theorem State.phaseWork_of_idle {s : State} (h : s.phase = .idle) : s.phaseWork = 0 := by
  simp only [State.phaseWork, h]

theorem State.phaseWork_pos {s : State} (h : s.phase ≠ .idle) : 0 < s.phaseWork := by
  unfold State.phaseWork
  split
  next hidle => exact absurd hidle h
  all_goals omega

/-- No phase does more without a bit or a byte than one bit of the sequence is worth (R108). -/
theorem State.phaseWork_lt (s : State) : s.phaseWork < 1024 := by
  unfold State.phaseWork Config.cCap
  split <;> omega

/-- At C_ENTRY the work falls as IDX moves on, and at the build (R152). -/
theorem State.phaseWork_lt_of_cEntry {s t : State} (hat : s.isAt .cEntry = true)
    (h : (t.phase = .cEntry ∧ s.idx.toNat < t.idx.toNat) ∨ t.phase = .cBuild) : t.phaseWork < s.phaseWork := by
  obtain ⟨hp, -, hidx⟩ := of_decide_eq_true hat
  rcases h with ⟨ht, hlt⟩ | ht <;> simp only [State.phaseWork, hp, ht] <;> omega

theorem State.skipC_phaseWork_lt {s : State} {run : Nat} (hat : s.isAt .cEntry = true) (hrun : 0 < run) :
    (s.skipC run).phaseWork < s.phaseWork := by
  obtain ⟨-, -, hidx⟩ := of_decide_eq_true hat
  refine State.phaseWork_lt_of_cEntry hat ((s.skipC_phase_cases run).imp_left fun ⟨hentry, _, _⟩ => ⟨hentry, ?_⟩)
  simp only [State.skipC_idx, BitVec.toNat_ofNat]
  omega

theorem State.placeCLen_phaseWork_lt {s : State} {l : Nat} (hat : s.isAt .cEntry = true) :
    (s.placeCLen l).phaseWork < s.phaseWork := by
  obtain ⟨-, -, hidx⟩ := of_decide_eq_true hat
  refine State.phaseWork_lt_of_cEntry hat ((s.placeCLen_phase_cases l).imp_left fun ⟨hentry, _, _⟩ => ⟨hentry, ?_⟩)
  simp only [State.placeCLen_idx, BitVec.toNat_ofNat]
  omega

/-! ### Every step spends something -/

/-- Why a step is not for nothing (R108): it writes a byte, consumes a bit of the sequence, or goes down in the order of
the phases. -/
inductive Spends (s t : State) : Prop where
  /-- it writes a byte (R165) -/
  | byte (output : WritesByte s t)
  /-- it moves the cursor on, which stood inside the sequence (R59) -/
  | bits (room : s.bitPos.toNat < s.totalBits) (cursor : s.bitPos.toNat < t.bitPos.toNat)
  /-- it leaves less for its phase to do -/
  | phase (lt : t.phaseWork < s.phaseWork)

/-- The end of a job leaves nothing to do (R106, R194). -/
theorem Spends.of_idle {s t : State} (hs : s.phase ≠ .idle) (ht : t.phase = .idle) : Spends s t :=
  .phase (by rw [State.phaseWork_of_idle ht]; exact State.phaseWork_pos hs)

theorem posCountBits_pos (f : Variant) : 0 < Config.posCountBits f := by
  cases f <;> decide

/-- An element without a codeword has bits of its own (R71 to R73). -/
theorem bitLength_pos_of_no_code {i : Instr} (t : HufTable) (h : i.codeSymbol = none) : 0 < i.bitLength t := by
  cases i <;> simp [Instr.codeSymbol, Instr.bitLength, posCountBits_pos] at h ⊢

/-- An element that only sets registers has bits of its own; or it is an entry of the C array, which moves IDX on, or a
back-reference, which leaves for its distance. The last two may be codewords of a degenerate table (R131). -/
theorem regEffect_spends {i : Instr} {s t : State} (hsel : s.selects i = true) (hfit : s.fits i)
    (h : regEffect i (s.advance (s.used i)) = some t) : Spends s t := by
  have hat := (State.selects_iff.mp hsel).2
  by_cases hcode : i.codeSymbol = none
  · have hpos : 0 < s.used i := bitLength_pos_of_no_code _ hcode
    have hroom := hfit.resolve_right hpos.ne'
    have hcursor := State.advance_toNat hroom
    rw [← regEffect_bitPos h] at hcursor
    exact .bits (by omega) (by omega)
  · cases i with
    | tZero => cases h; exact .phase (State.skipC_phaseWork_lt hat (by omega))
    | tRun4 r => cases h; exact .phase (State.skipC_phaseWork_lt hat (by omega))
    | tRun9 r => cases h; exact .phase (State.skipC_phaseWork_lt hat (by omega))
    | tLen v => cases h; exact .phase (State.placeCLen_phaseWork_lt hat)
    | backref v => cases h; exact .phase (by simp [State.phaseWork, (of_decide_eq_true hat).1])
    | lit b => cases h
    | pos0 => cases h
    | pos1 => cases h
    | posN v x => cases h
    | _ => exact absurd rfl hcode

theorem exec_spends {i : Instr} {s t : State} (h : exec i s = .next t) : Spends s t := by
  obtain ⟨hsel, hcases⟩ := exec_next h
  have hp := State.phase_of_selects hsel
  have hidle : s.phase ≠ .idle := hp.trans_ne (phaseOfPlace_ne_idle _)
  obtain hr | ⟨c, o, rfl, rfl | ⟨-, -, -, rfl⟩⟩ |
    ⟨hfit, he | ⟨b, rfl, hlt, ⟨-, rfl⟩ | ⟨-, rfl⟩⟩ | ⟨d, hi, -, rfl⟩⟩ := hcases
  · exact .of_idle hidle hr.phase
  · exact .of_idle hidle rfl
  · exact .phase (by simp [State.phaseWork, hp, Instr.place, phaseOfPlace])
  · exact regEffect_spends hsel hfit he
  · exact .of_idle hidle rfl
  · exact .byte ⟨.inl hp, hlt, ⟨b, rfl⟩, rfl⟩
  · have hplace : i.place = .dist := by rcases hi with ⟨rfl, -⟩ | ⟨rfl, -⟩ | ⟨v, x, rfl, -⟩ <;> rfl
    exact .phase (by simp [State.phaseWork, hp, hplace, phaseOfPlace])

theorem buildPt_spends {s t : State} (hp : s.phase = .ptBuild) (h : buildPt s = .next t) : Spends s t := by
  obtain ⟨c, -, rfl⟩ | ⟨b, -, rfl⟩ := buildPt_next h
  · exact .of_idle (by simp [hp]) rfl
  · cases halph : s.alph <;> exact .phase (by simp [State.phaseWork, hp])

theorem buildC_spends {s t : State} (hp : s.phase = .cBuild) (h : buildC s = .next t) : Spends s t := by
  obtain ⟨c, -, rfl⟩ | ⟨b, -, rfl⟩ := buildC_next h
  · exact .of_idle (by simp [hp]) rfl
  · exact .phase (by simp [State.phaseWork, hp])

theorem copyByte_spends {s t : State} (hp : s.phase = .copy) (h : copyByte s = .next t) : Spends s t := by
  obtain ⟨-, hlt, ⟨-, rfl⟩ | ⟨-, rfl⟩⟩ := copyByte_next h
  · exact .of_idle (by simp [hp]) rfl
  · exact .byte ⟨.inr hp, hlt, ⟨_, rfl⟩, rfl⟩

/-! ### The work of a job falls -/

/-- What START leaves in BITPOS and OUT_LEN stands until the header has been read (R100, R105). -/
def State.Fresh (s : State) : Prop :=
  s.phase = .frame → s.bitPos = 0 ∧ s.outLen = 0

/-- The output of a job never shrinks (R31). -/
theorem JobStep.outLen_le {s t : State} (hs : s.Fresh) (h : JobStep s t) : s.outLen.toNat ≤ t.outLen.toNat := by
  cases h with
  | quiet _ output => rw [output.1]
  | wrote _ output => rw [output.outLen_toNat]; omega
  | failed _ _ _ output => rw [output.1]
  | filled _ output => rw [output.outLen_toNat]; omega
  | empty _ _ output => rw [output.1]
  | started frame => simp [(hs frame).2]

theorem CursorForward.bitPos_le {s t : State} (hs : s.Fresh) (h : CursorForward s t) :
    s.bitPos.toNat ≤ t.bitPos.toNat := by
  by_cases hp : s.phase = .frame
  · simp [(hs hp).1]
  · exact h.le hp

/-- A byte is worth more than all the bits of the sequence, and a bit more than any phase (R108). -/
theorem Spends.work_lt {s t : State} (h : Spends s t) (hl : SameLaunch s t) (hout : s.outLen.toNat ≤ t.outLen.toNat)
    (hcur : s.bitPos.toNat ≤ t.bitPos.toNat) : t.work < s.work := by
  have hphase := t.phaseWork_lt
  rw [State.work, State.work, hl.dstLen, hl.totalBits]
  have hbytes : (s.dstLen.toNat - t.outLen.toNat) * (s.totalBits + 1) ≤
      (s.dstLen.toNat - s.outLen.toNat) * (s.totalBits + 1) := Nat.mul_le_mul_right _ (by omega)
  cases h with
  | byte output =>
    have hone : s.dstLen.toNat - s.outLen.toNat = s.dstLen.toNat - t.outLen.toNat + 1 := by
      have hlen := output.outLen_toNat
      have hroom := output.room
      omega
    rw [hone, Nat.succ_mul]
    omega
  | bits room cursor => omega
  | phase lt => omega

theorem exec_work_lt {i : Instr} {s t : State} (hs : s.Fresh) (h : exec i s = .next t) : t.work < s.work :=
  (exec_spends h).work_lt (exec_sameLaunch h) ((exec_jobStep h).outLen_le hs) ((exec_cursorForward h).bitPos_le hs)

theorem Raised.work_lt {s t : State} (hs : s.Fresh) (hp : s.phase ≠ .idle) (h : Raised s t) : t.work < s.work :=
  (Spends.of_idle hp h.phase).work_lt h.sameLaunch (h.jobStep.outLen_le hs) (h.cursorForward.bitPos_le hs)

theorem runElement_work_lt {p : Place} {s t : State} (hs : s.Fresh) (hp : s.phase ≠ .idle)
    (h : runElement p s = .next t) : t.work < s.work := by
  obtain hr | ⟨i, rest, -, he⟩ := runElement_next h
  · exact hr.work_lt hs hp
  · exact exec_work_lt hs he

/-- Every step of a running job leaves less work (R108). -/
theorem engineStep_work_lt {s t : State} (hs : s.Fresh) (hp : s.phase ≠ .idle) (h : engineStep s = .next t) :
    t.work < s.work := by
  have spent (hspends : Spends s t) : t.work < s.work :=
    hspends.work_lt (engineStep_sameLaunch h) ((engineStep_jobStep h).outLen_le hs)
      ((engineStep_cursorForward h).bitPos_le hs)
  rcases engineStep_next h with ⟨hidle, -⟩ | ⟨-, p, hrun⟩ | ⟨hcount, p, q, u, hsu, hu, hut⟩ | ⟨hsym, -, rfl⟩ |
    ⟨hentry, rfl⟩ | ⟨hentry, rfl⟩ | ⟨hbuild, hrun⟩ | ⟨hbuild, hrun⟩ | ⟨hcopy, hrun⟩
  · exact absurd hidle hp
  · exact runElement_work_lt hs hp hrun
  · have hfresh : u.Fresh := fun hf => by
      rw [← hu, hf] at hcount
      simp at hcount
    exact (runElement_work_lt hfresh (hu.trans_ne hp) hut).trans (runElement_work_lt hs hp hsu)
  · exact spent (.phase (by simp [State.phaseWork, hsym]))
  · exact spent (.phase (by simp [State.phaseWork, hentry]))
  · exact spent (.phase (by simp only [State.phaseWork, hentry, State.goto_phase]; omega))
  · exact spent (buildPt_spends hbuild hrun)
  · exact spent (buildC_spends hbuild hrun)
  · exact spent (copyByte_spends hcopy hrun)

theorem State.Inv.isFresh {s : State} (h : s.Inv) : s.Fresh := fun hp => by
  obtain ⟨hpos, hlen, -⟩ := h.fresh hp
  exact ⟨hpos, hlen⟩

/-- Settles O46: by strong induction on the work, which every step of a running job lowers. -/
theorem everyJobEnds : Obligations.EveryJobEnds := by
  intro s
  induction hn : s.work using Nat.strong_induction_on generalizing s with
  | _ n ih =>
    subst hn
    intro hs hhost hbusy
    obtain ⟨t, ht⟩ := engineStep_answers hs
    have hstep : step s = .next t := (step_of_no_move hhost).trans ht
    have hlt : t.work < s.work := engineStep_work_lt hs.isFresh (hs.busyPhase.mp hbusy) ht
    rcases (engineStep_jobStep ht).keeps_or_ends with ⟨hb, -, -⟩ | ⟨e, hb, hd, -, -⟩
    · have hhost' : t.host = [] := (engineStep_sameLaunch ht).host.trans hhost
      obtain ⟨k, u, hk, hrun, hend⟩ := ih t.work hlt t rfl (engineStep_inv ht hs) hhost' (hb.trans hbusy)
      exact ⟨k + 1, u, by omega, (run_next hstep k).trans hrun, hend⟩
    · exact ⟨1, t, by omega, (run_next hstep 0).trans (run_zero t), hb, hd⟩

end Sys2Proof.Machine
end

section
/-! SUPPORT. The canonical code: its codewords as bit strings. In an array that passes the checks of a build no codeword
begins another one, and any 16 bits begin with one (42_huffman_table.md R122 to R127). -/

namespace Sys2Proof

/-! ### The bits of a number -/

/-- The high bits of a number come before its low bits (R55). -/
theorem bitsOf_add (m k v : Nat) : bitsOf (m + k) v = bitsOf m (v / 2 ^ k) ++ bitsOf k v := by
  induction m with
  | zero => simp [bitsOf]
  | succ m ih => rw [Nat.succ_add, bitsOf, ih, bitsOf, Nat.testBit_div_two_pow]; rfl

/-- The first `k` of `n` bits are those of the number without its low bits. -/
theorem take_bitsOf {k n : Nat} (h : k ≤ n) (v : Nat) : (bitsOf n v).take k = bitsOf k (v / 2 ^ (n - k)) := by
  obtain ⟨j, rfl⟩ := Nat.exists_eq_add_of_le h
  rw [bitsOf_add, Nat.add_sub_cancel_left, List.take_left' (length_bitsOf k _)]

/-- Numbers of `n` bits with the same bits are equal. -/
theorem bitsOf_inj {n v w : Nat} (hv : v < 2 ^ n) (hw : w < 2 ^ n) : bitsOf n v = bitsOf n w ↔ v = w := by
  refine ⟨fun h => ?_, fun h => h ▸ rfl⟩
  have hread := popBits_bitsOf hv []
  rw [h, popBits_bitsOf hw []] at hread
  simpa using hread.symm

theorem bitsOf_mod (n v : Nat) : bitsOf n (v % 2 ^ n) = bitsOf n v := by
  have h (m : Nat) (hm : m ≤ n) : bitsOf m (v % 2 ^ n) = bitsOf m v := by
    induction m with
    | zero => rfl
    | succ m ih => simp [bitsOf, ih (by omega), Nat.testBit_mod_two_pow, show m < n by omega]
  exact h n le_rfl

namespace Machine

theorem msbValue_lt (n : Nat) (bits : List Bool) : msbValue n bits < 2 ^ n := by
  induction n generalizing bits with
  | zero => simp
  | succ n ih =>
    rw [msbValue_succ, pow_succ]
    have hlow := ih bits.tail
    cases bits.getD 0 false <;> simp <;> omega

/-- The bits of what a lookahead reads: those that are there, and then 0-bits (R60). -/
theorem bitsOf_msbValue (n : Nat) (bits : List Bool) :
    bitsOf n (msbValue n bits) = (bits ++ List.replicate n false).take n := by
  induction n generalizing bits with
  | zero => rfl
  | succ n ih =>
    have hlow := msbValue_lt n bits.tail
    have hhigh : (msbValue (n + 1) bits).testBit n = bits.getD 0 false := by
      rw [msbValue_succ, mul_comm, Nat.testBit_two_pow_mul_add _ hlow]
      cases bits.getD 0 false <;> simp
    have hrest : bitsOf n (msbValue (n + 1) bits) = bitsOf n (msbValue n bits.tail) := by
      rw [← bitsOf_mod, msbValue_succ, Nat.mul_add_mod_of_lt hlow]
    rw [bitsOf, hhigh, hrest, ih]
    cases bits with
    | nil => simp [List.replicate_succ]
    | cons b bits => simp [List.replicate_succ', ← List.append_assoc, List.take_append]

/-! ### Start offsets -/

/-- `start[len + 1]` is what `start[len]` and the codewords of length `len` take (R122). -/
theorem startOf_add_count {len : Nat} (lens : List CodeLen) (h : 0 < len) :
    startOf lens (len + 1) = startOf lens len + countLen lens len * 2 ^ (16 - len) := by
  cases len with
  | zero => omega
  | succ n => rfl

theorem startOf_mono (lens : List CodeLen) : Monotone (startOf lens) := by
  refine monotone_nat_of_le_succ fun n => ?_
  cases n with
  | zero => simp [startOf]
  | succ n => exact Nat.le_add_right _ _

/-- A start offset is left-aligned (R122). -/
theorem two_pow_dvd_startOf (lens : List CodeLen) (len : Nat) : 2 ^ (16 - len) ∣ startOf lens len := by
  induction len with
  | zero => simp [startOf]
  | succ n ih =>
    cases n with
    | zero => simp [startOf]
    | succ n =>
      have hstep : 2 ^ (16 - (n + 2)) ∣ 2 ^ (16 - (n + 1)) := Nat.pow_dvd_pow 2 (by omega)
      exact Nat.dvd_add (hstep.trans ih) (hstep.trans (Nat.dvd_mul_left _ _))

/-! ### Codewords -/

/-- The code length of a symbol; 0 beyond the array. -/
def lenAt (lens : List CodeLen) (v : Nat) : Nat :=
  (lens.getD v 0).toNat

/-- The codeword of a symbol, in stream order (R125). -/
def wordAt (lens : List CodeLen) (v : Nat) : List Bool :=
  bitsOf (lenAt lens v) (codeOf lens v / 2 ^ (16 - lenAt lens v))

@[simp] theorem length_wordAt (lens : List CodeLen) (v : Nat) : (wordAt lens v).length = lenAt lens v := by
  simp [wordAt]

theorem codeOf_eq (lens : List CodeLen) (v : Nat) :
    codeOf lens v =
      startOf lens (lenAt lens v) + countLen (lens.take v) (lenAt lens v) * 2 ^ (16 - lenAt lens v) := rfl

/-- The codeword of a built table is that of its examined slots (R125). -/
theorem codeword_tableOf {n : Nat} {a : Alphabet} {lens : List CodeLen} {v : Nat} (hv : v < Config.numSymbols a)
    (const : Nat) (b : BuildState n) :
    (tableOf a const lens b).codeword v = wordAt (lens.take (Config.numSymbols a)) v := by
  simp [HufTable.codeword, HufTable.lenOf, tableOf, wordAt, lenAt, List.getD_eq_getElem?_getD, hv]

/-- A codeword is left-aligned in 16 bits (R122). -/
theorem codeOf_div_mul (lens : List CodeLen) (v : Nat) :
    codeOf lens v / 2 ^ (16 - lenAt lens v) * 2 ^ (16 - lenAt lens v) = codeOf lens v :=
  Nat.div_mul_cancel (Nat.dvd_add (two_pow_dvd_startOf lens _) (Nat.dvd_mul_left _ _))

theorem lt_length_of_lenAt_pos {lens : List CodeLen} {v : Nat} (h : 0 < lenAt lens v) : v < lens.length := by
  by_contra hv
  simp [lenAt, List.getD_eq_getElem?_getD, List.getElem?_eq_none (not_lt.mp hv)] at h

/-- One symbol more: the count of its own length grows by one (R121, R125). -/
theorem countLen_take_succ {lens : List CodeLen} {v : Nat} (hv : v < lens.length) (len : Nat) :
    countLen (lens.take (v + 1)) len = countLen (lens.take v) len + if lenAt lens v = len then 1 else 0 := by
  rw [List.take_add_one, List.getElem?_eq_getElem hv]
  simp only [countLen, Option.toList_some, List.countP_append, List.countP_singleton, lenAt,
    List.getD_eq_getElem _ _ hv, decide_eq_true_eq]

theorem countLen_take_le {lens : List CodeLen} {v w : Nat} (h : v ≤ w) (len : Nat) :
    countLen (lens.take v) len ≤ countLen (lens.take w) len :=
  (List.take_sublist_take_left h).countP_le

theorem countLen_take_le_countLen (lens : List CodeLen) (v len : Nat) :
    countLen (lens.take v) len ≤ countLen lens len :=
  (List.take_sublist v lens).countP_le

/-- The codewords of a length come in the order of their symbols (R125). -/
theorem codeOf_add_le_of_lt {lens : List CodeLen} {v w : Nat} (hv : v < lens.length) (hlt : v < w)
    (heq : lenAt lens v = lenAt lens w) : codeOf lens v + 2 ^ (16 - lenAt lens v) ≤ codeOf lens w := by
  have hcount := countLen_take_le (lens := lens) hlt (lenAt lens v)
  rw [countLen_take_succ hv, if_pos rfl] at hcount
  rw [codeOf_eq, codeOf_eq, ← heq, Nat.add_assoc, ← Nat.succ_mul]
  exact Nat.add_le_add_left (Nat.mul_le_mul_right _ hcount) _

/-- The codewords of a length end where those of the next begin (R122). -/
theorem codeOf_add_le_startOf {lens : List CodeLen} {v : Nat} (hv : 0 < lenAt lens v) :
    codeOf lens v + 2 ^ (16 - lenAt lens v) ≤ startOf lens (lenAt lens v + 1) := by
  have hcount := countLen_take_le_countLen lens (v + 1) (lenAt lens v)
  rw [countLen_take_succ (lt_length_of_lenAt_pos hv), if_pos rfl] at hcount
  rw [startOf_add_count lens hv, codeOf_eq, Nat.add_assoc, ← Nat.succ_mul]
  exact Nat.add_le_add_left (Nat.mul_le_mul_right _ hcount) _

/-- A shorter codeword lies below a longer one (R122). -/
theorem codeOf_add_le_of_lenAt_lt {lens : List CodeLen} {v w : Nat} (hv : 0 < lenAt lens v)
    (hlt : lenAt lens v < lenAt lens w) : codeOf lens v + 2 ^ (16 - lenAt lens v) ≤ codeOf lens w :=
  calc codeOf lens v + 2 ^ (16 - lenAt lens v)
      ≤ startOf lens (lenAt lens v + 1) := codeOf_add_le_startOf hv
    _ ≤ startOf lens (lenAt lens w) := startOf_mono lens hlt
    _ ≤ codeOf lens w := Nat.le_add_right _ _

/-- Some slot of a length is the `j`-th of that length. -/
theorem exists_slot_of_lt_countLen {lens : List CodeLen} {len j : Nat} (h : j < countLen lens len) :
    ∃ v < lens.length, lenAt lens v = len ∧ countLen (lens.take v) len = j := by
  induction lens generalizing j with
  | nil => simp [countLen] at h
  | cons l lens ih =>
    by_cases hl : l.toNat = len
    · cases j with
      | zero => exact ⟨0, by simp, hl, rfl⟩
      | succ j =>
        obtain ⟨v, hv, hlen, hcount⟩ := ih (j := j) (by simpa [countLen, hl] using h)
        exact ⟨v + 1, by simpa using hv, hlen, by simpa [countLen, hl] using hcount⟩
    · obtain ⟨v, hv, hlen, hcount⟩ := ih (j := j) (by simpa [countLen, hl] using h)
      exact ⟨v + 1, by simpa using hv, hlen, by simpa [countLen, hl] using hcount⟩

/-! ### A complete code -/

/-- The lengths that a build accepts (R121, R123). -/
structure CompleteCode (lens : List CodeLen) : Prop where
  legal : ∀ l ∈ lens, l.toNat ≤ 16
  full : startOf lens 17 = 2 ^ 16

theorem checkLens_eq_none {lens : List CodeLen} (h : checkLens lens = none) : CompleteCode lens := by
  unfold checkLens at h
  split at h
  · cases h
  · next hlong =>
    split at h
    · cases h
    · next hfull => exact ⟨by simpa using hlong, not_not.mp hfull⟩

namespace CompleteCode

variable {lens : List CodeLen}

theorem lenAt_le (hc : CompleteCode lens) (v : Nat) : lenAt lens v ≤ 16 := by
  by_cases hv : v < lens.length
  · rw [lenAt, List.getD_eq_getElem _ _ hv]
    exact hc.legal _ (List.getElem_mem hv)
  · simp [lenAt, List.getD_eq_getElem?_getD, List.getElem?_eq_none (not_lt.mp hv)]

/-- A codeword's values end inside the code space (R122, R123). -/
theorem codeOf_add_le (hc : CompleteCode lens) {v : Nat} (hv : 0 < lenAt lens v) :
    codeOf lens v + 2 ^ (16 - lenAt lens v) ≤ 2 ^ 16 :=
  calc codeOf lens v + 2 ^ (16 - lenAt lens v)
      ≤ startOf lens (lenAt lens v + 1) := codeOf_add_le_startOf hv
    _ ≤ startOf lens 17 := startOf_mono lens (Nat.succ_le_succ (hc.lenAt_le v))
    _ = 2 ^ 16 := hc.full

theorem codeOf_lt (hc : CompleteCode lens) {v : Nat} (hv : 0 < lenAt lens v) : codeOf lens v < 2 ^ 16 :=
  lt_of_lt_of_le (Nat.lt_add_of_pos_right (Nat.two_pow_pos _)) (hc.codeOf_add_le hv)

/-- The first `n` bits of a codeword's value (R125). -/
theorem codeOf_div_lt (hc : CompleteCode lens) {v n : Nat} (hv : 0 < lenAt lens v) (hn : n ≤ 16) :
    codeOf lens v / 2 ^ (16 - n) < 2 ^ n := by
  refine Nat.div_lt_of_lt_mul ?_
  rw [← pow_add, Nat.sub_add_cancel hn]
  exact hc.codeOf_lt hv

/-- A codeword pops as one field (R133). -/
theorem popBits_wordAt (hc : CompleteCode lens) {v : Nat} (hv : 0 < lenAt lens v) (rest : List Bool) :
    ∃ x, popBits (lenAt lens v) (wordAt lens v ++ rest) = .ok (x, rest) :=
  ⟨_, popBits_bitsOf (hc.codeOf_div_lt hv (hc.lenAt_le v)) rest⟩

/-- The values of `n` bits that begin with a codeword are a run of `2^(n - len)` (R125, step (c)). -/
theorem wordAt_prefix_bitsOf_iff (hc : CompleteCode lens) {v n i : Nat} (hv : 0 < lenAt lens v)
    (hn : lenAt lens v ≤ n) (hn16 : n ≤ 16) (hi : i < 2 ^ n) :
    wordAt lens v <+: bitsOf n i ↔
      codeOf lens v / 2 ^ (16 - n) ≤ i ∧ i < codeOf lens v / 2 ^ (16 - n) + 2 ^ (n - lenAt lens v) := by
  have hword := codeOf_div_mul lens v
  have hc' := hc.codeOf_div_lt hv (hn.trans hn16)
  rw [List.prefix_iff_eq_take, length_wordAt, take_bitsOf hn, wordAt]
  generalize codeOf lens v = c at hword hc' ⊢
  generalize lenAt lens v = k at *
  have hsplit : 2 ^ (16 - k) = 2 ^ (n - k) * 2 ^ (16 - n) := by rw [← pow_add]; congr 1; omega
  have hfirst : c / 2 ^ (16 - n) = c / 2 ^ (16 - k) * 2 ^ (n - k) := by
    conv_lhs => rw [← hword, hsplit, ← mul_assoc, Nat.mul_div_cancel _ (Nat.two_pow_pos _), ← hsplit]
  have hi' : i / 2 ^ (n - k) < 2 ^ k :=
    Nat.div_lt_of_lt_mul (by rwa [← pow_add, Nat.sub_add_cancel hn])
  rw [bitsOf_inj hc' hi', hfirst, eq_comm, Nat.div_eq_iff (Nat.two_pow_pos _)]
  have hpos := Nat.two_pow_pos (n - k)
  omega

/-- The run of a short codeword ends inside the fixed table (R125). -/
theorem shortRun_le (hc : CompleteCode lens) {v n : Nat} (hv : 0 < lenAt lens v) (hn : lenAt lens v ≤ n)
    (hn16 : n ≤ 16) :
    codeOf lens v / 2 ^ (16 - n) + 2 ^ (n - lenAt lens v) ≤ 2 ^ n := by
  have hcode := hc.codeOf_add_le hv
  have hunit := Nat.two_pow_pos (16 - n)
  have hlen : 2 ^ (16 - lenAt lens v) = 2 ^ (n - lenAt lens v) * 2 ^ (16 - n) := by rw [← pow_add]; congr 1; omega
  have hall : 2 ^ 16 = 2 ^ n * 2 ^ (16 - n) := by rw [← pow_add, Nat.add_sub_cancel' hn16]
  rw [← Nat.add_mul_div_right _ _ hunit, ← hlen]
  exact Nat.div_le_of_le_mul (by rw [mul_comm, ← hall]; exact hcode)

/-- No codeword begins with another one (R127, point 1). -/
theorem prefix_unique (hc : CompleteCode lens) {v w : Nat} (hv : 0 < lenAt lens v) (hw : 0 < lenAt lens w)
    (h : wordAt lens v <+: wordAt lens w) : v = w := by
  have hwlt := hc.codeOf_lt hw
  have hself : wordAt lens w <+: bitsOf 16 (codeOf lens w) := by
    rw [hc.wordAt_prefix_bitsOf_iff hw (hc.lenAt_le w) le_rfl hwlt]
    simp
  have hcover := (hc.wordAt_prefix_bitsOf_iff hv (hc.lenAt_le v) le_rfl hwlt).mp (h.trans hself)
  have hle : lenAt lens v ≤ lenAt lens w := by simpa using h.length_le
  simp only [Nat.sub_self, pow_zero, Nat.div_one] at hcover
  obtain ⟨hlow, hhigh⟩ := hcover
  rcases hle.lt_or_eq with hlt | heq
  · have := codeOf_add_le_of_lenAt_lt hv hlt
    omega
  · rcases lt_trichotomy v w with hlt | rfl | hlt
    · have := codeOf_add_le_of_lt (lt_length_of_lenAt_pos hv) hlt heq
      omega
    · rfl
    · have := codeOf_add_le_of_lt (lt_length_of_lenAt_pos hw) hlt heq.symm
      have := Nat.two_pow_pos (16 - lenAt lens w)
      omega

/-- Every value of 16 bits lies in the codewords of some length (R123). -/
theorem exists_len_of_lt (hc : CompleteCode lens) {c : Nat} (h : c < 2 ^ 16) :
    ∃ len, 0 < len ∧ len ≤ 16 ∧ startOf lens len ≤ c ∧ c < startOf lens (len + 1) := by
  have hex : ∃ k, c < startOf lens (k + 1) := ⟨16, by rw [hc.full]; exact h⟩
  have hpos : 0 < Nat.find hex := by
    rw [Nat.find_pos]
    simp [startOf]
  have hbelow : ¬ c < startOf lens (Nat.find hex - 1 + 1) := Nat.find_min hex (by omega)
  rw [Nat.sub_add_cancel hpos, not_lt] at hbelow
  refine ⟨Nat.find hex, hpos, Nat.find_min' hex (by rw [hc.full]; exact h), hbelow, Nat.find_spec hex⟩

/-- Sixteen bits begin with a codeword (R127, point 1). -/
theorem exists_prefix (hc : CompleteCode lens) {bits : List Bool} (h : 16 ≤ bits.length) :
    ∃ v, 0 < lenAt lens v ∧ wordAt lens v <+: bits := by
  obtain ⟨len, hpos, hle, hlow, hhigh⟩ := hc.exists_len_of_lt (msbValue_lt 16 bits)
  have hunit := Nat.two_pow_pos (16 - len)
  rw [startOf_add_count lens hpos] at hhigh
  obtain ⟨v, -, hlen, hcount⟩ := exists_slot_of_lt_countLen (lens := lens) (len := len)
    (j := (msbValue 16 bits - startOf lens len) / 2 ^ (16 - len)) (by rw [Nat.div_lt_iff_lt_mul hunit]; omega)
  subst hlen
  have hcover : wordAt lens v <+: bitsOf 16 (msbValue 16 bits) := by
    rw [hc.wordAt_prefix_bitsOf_iff hpos hle le_rfl (msbValue_lt 16 bits), codeOf_eq, hcount]
    have hdiv := Nat.div_add_mod' (msbValue 16 bits - startOf lens (lenAt lens v)) (2 ^ (16 - lenAt lens v))
    have hmod := Nat.mod_lt (msbValue 16 bits - startOf lens (lenAt lens v)) hunit
    simp only [Nat.sub_self, pow_zero, Nat.div_one]
    omega
  rw [bitsOf_msbValue, List.take_append_of_le_length h] at hcover
  exact ⟨v, hpos, hcover.trans (List.take_prefix 16 bits)⟩

end CompleteCode

end Machine

end Sys2Proof
end

section
/-! SUPPORT. What a build accepts, what its step stores, and the lookup of a degenerate table (42_huffman_table.md R121
to R131; 43_length_arrays.md R146, R157). -/

namespace Sys2Proof.Machine

/-! ### The checks of a build -/

theorem checkLens_of_long {lens : List CodeLen} (h : ∃ l ∈ lens, 16 < l.toNat) :
    checkLens lens = some .lengthTooLong :=
  if_pos (by simpa using h)

/-- With legal lengths only the code space decides (R122, R123). -/
theorem checkLens_of_legal {lens : List CodeLen} (h : ∀ l ∈ lens, l.toNat ≤ 16) :
    checkLens lens = if codeSpace lens = 65536 then none else some .badCodeSet := by
  have hlong : ¬ (lens.any fun l => decide (Config.maxLen < l.toNat)) = true := by simpa using h
  rw [checkLens, if_neg hlong, startOf_17 lens h, ite_not]
  rfl

theorem build_of_checkLens_some {n : Nat} {a : Alphabet} {lens : List CodeLen} {c : Cause}
    (h : checkLens (lens.take (Config.numSymbols a)) = some c) (left right : Vector Entry 1019) :
    build n a lens left right = .error c := by
  rw [build, h]

theorem build_of_checkLens_none {n : Nat} {a : Alphabet} {lens : List CodeLen}
    (h : checkLens (lens.take (Config.numSymbols a)) = none) (left right : Vector Entry 1019) :
    ∃ b, build n a lens left right = .ok b := by
  rw [build, h]
  exact ⟨_, rfl⟩

/-- Settles O33: the long length is looked for first, and then `start[17]` is the code space. -/
theorem buildAcceptsExactlyCompleteCodes : Obligations.BuildAcceptsExactlyCompleteCodes := by
  intro n a lens left right
  refine ⟨fun hlong => ?_, fun hlegal hspace => ?_, fun hlegal hspace => ?_⟩
  · exact build_of_checkLens_some (checkLens_of_long hlong) left right
  · exact build_of_checkLens_some (by rw [checkLens_of_legal hlegal, if_neg hspace]) left right
  · exact build_of_checkLens_none (by rw [checkLens_of_legal hlegal, if_pos hspace]) left right

/-! ### The build steps -/

theorem step_of_ptBuild {s : State} (hhost : s.host = []) (hp : s.phase = .ptBuild) : step s = buildPt s := by
  simp [step_of_no_move hhost, engineStep, hp]

theorem step_of_cBuild {s : State} (hhost : s.host = []) (hp : s.phase = .cBuild) : step s = buildC s := by
  simp [step_of_no_move hhost, engineStep, hp]

/-- PT_BUILD with a table to store (R128, R146). -/
theorem buildPt_of_ok {s : State} {b : BuildState 256}
    (hb : build 256 s.alph.alphabet s.ptLen.toList s.left s.right = .ok b) :
    buildPt s = .next ((s.setPtTable b).goto (if s.alph = .t then .cCount else .symbol)) := by
  rw [buildPt, hb]
  cases s.alph <;> rfl

theorem buildPt_of_error {s : State} {c : Cause}
    (hc : build 256 s.alph.alphabet s.ptLen.toList s.left s.right = .error c) : buildPt s = malformed c s := by
  rw [buildPt, hc]

/-- C_BUILD with a table to store (R128, R157). -/
theorem buildC_of_ok {s : State} {b : BuildState 4096} (hb : build 4096 .c s.cLen.toList s.left s.right = .ok b) :
    buildC s = .next { (s.setCTable b) with alph := .p, phase := .ptCount } := by
  rw [buildC, hb]

theorem buildC_of_error {s : State} {c : Cause} (hc : build 4096 .c s.cLen.toList s.left s.right = .error c) :
    buildC s = malformed c s := by
  rw [buildC, hc]

/-- Settles O34: the step at a build phase is the build, by what the build answers. -/
theorem buildStepsStoreTheTable : Obligations.BuildStepsStoreTheTable := by
  intro s hhost
  refine ⟨fun hp b hb => ?_, fun hp b hb => ?_, fun hp c hc => ?_, fun hp c hc => ?_⟩
  · exact (step_of_ptBuild hhost hp).trans (buildPt_of_ok hb)
  · exact (step_of_cBuild hhost hp).trans (buildC_of_ok hb)
  · exact ⟨_, (step_of_ptBuild hhost hp).trans (buildPt_of_error hc), s.raise_endedWith ..⟩
  · exact ⟨_, (step_of_cBuild hhost hp).trans (buildC_of_error hc), s.raise_endedWith ..⟩

/-! ### The degenerate lookup -/

/-- Settles O36: a set degenerate bit is the first thing a lookup tests, for each of the three tables. -/
theorem degenerateLookupConsumesNothing : Obligations.DegenerateLookupConsumesNothing := by
  intro s pk bits
  refine ⟨fun hpt => ⟨?_, ?_⟩, fun hc => ?_⟩
  · exact HufTable.decodeSym_of_degen (t := s.table .t) hpt pk bits
  · exact HufTable.decodeSym_of_degen (t := s.table .p) hpt pk bits
  · exact HufTable.decodeSym_of_degen (t := s.table .c) hc pk bits

end Sys2Proof.Machine
end

section
/-! SUPPORT. The fixed table and the overflow trie of a build: which paths of the code tree its nodes stand for, what
the entry of every path holds, and what a lookup finds there (42_huffman_table.md R124 to R136). -/

namespace Sys2Proof.Machine

/-! ### The branches of the code tree -/

/-- A path of the code tree that is no leaf: a codeword begins with it and goes on. -/
def Branch (lens : List CodeLen) (path : List Bool) : Prop :=
  ∃ v, 0 < lenAt lens v ∧ path <+: wordAt lens v ∧ path ≠ wordAt lens v

/-- The codewords of the used symbols (R125). -/
def words (lens : List CodeLen) : Finset (List Bool) :=
  ((Finset.range lens.length).filter fun v => 0 < lenAt lens v).image (wordAt lens)

/-- All branches of the code tree. -/
def branches (lens : List CodeLen) : Finset (List Bool) :=
  (words lens).biUnion fun w => w.inits.toFinset.erase w

theorem mem_words {lens : List CodeLen} {w : List Bool} :
    w ∈ words lens ↔ ∃ v, 0 < lenAt lens v ∧ wordAt lens v = w := by
  simp only [words, Finset.mem_image, Finset.mem_filter, Finset.mem_range]
  constructor
  · rintro ⟨v, ⟨-, hv⟩, hw⟩
    exact ⟨v, hv, hw⟩
  · rintro ⟨v, hv, hw⟩
    exact ⟨v, ⟨lt_length_of_lenAt_pos hv, hv⟩, hw⟩

theorem mem_branches {lens : List CodeLen} {path : List Bool} : path ∈ branches lens ↔ Branch lens path := by
  simp only [branches, Finset.mem_biUnion, mem_words, Finset.mem_erase, List.mem_toFinset, List.mem_inits]
  constructor
  · rintro ⟨_, ⟨v, hv, rfl⟩, hne, hpre⟩
    exact ⟨v, hv, hpre, hne⟩
  · rintro ⟨v, hv, hpre, hne⟩
    exact ⟨_, ⟨v, hv, rfl⟩, hne, hpre⟩

theorem card_words_le (lens : List CodeLen) : (words lens).card ≤ lens.length :=
  Finset.card_image_le.trans ((Finset.card_filter_le _ _).trans_eq (Finset.card_range _))

/-- A path above a branch is a branch. -/
theorem Branch.of_prefix {lens : List CodeLen} {path above : List Bool} (h : Branch lens path) (hpre : above <+: path) :
    Branch lens above := by
  obtain ⟨v, hv, hword, hne⟩ := h
  refine ⟨v, hv, hpre.trans hword, ?_⟩
  rintro rfl
  exact hne (hword.eq_of_length_le hpre.length_le)

namespace CompleteCode

variable {lens : List CodeLen}

/-- No codeword ends on the way to a branch (R127, point 3). -/
theorem not_prefix_of_branch (hc : CompleteCode lens) {path : List Bool} (h : Branch lens path) {v : Nat}
    (hv : 0 < lenAt lens v) : ¬ wordAt lens v <+: path := by
  obtain ⟨w, hw, hpre, hne⟩ := h
  intro hword
  obtain rfl := hc.prefix_unique hv hw (hword.trans hpre)
  exact hne (hpre.eq_of_length_le hword.length_le)

/-- Both children of a branch are branches or codewords (R127, point 4). -/
theorem child_of_branch (hc : CompleteCode lens) {path : List Bool} (h : Branch lens path) (bit : Bool) :
    path ++ [bit] ∈ branches lens ∪ words lens := by
  obtain ⟨v, hv, hword⟩ := hc.exists_prefix (bits := path ++ [bit] ++ List.replicate 16 false) (by simp)
  rw [Finset.mem_union, mem_branches, mem_words]
  by_cases heq : wordAt lens v = path ++ [bit]
  · exact .inr ⟨v, hv, heq⟩
  · rcases List.prefix_or_prefix_of_prefix hword (List.prefix_append _ _) with hle | hge
    · rcases List.prefix_concat_iff.mp hle with heq' | hle
      · exact absurd heq' heq
      · exact absurd hle (hc.not_prefix_of_branch h hv)
    · exact .inl ⟨v, hv, hge, Ne.symm heq⟩

theorem length_pos (hc : CompleteCode lens) : 0 < lens.length := by
  obtain ⟨v, hv, -⟩ := hc.exists_prefix (bits := List.replicate 16 false) (by simp)
  exact Nat.zero_lt_of_lt (lt_length_of_lenAt_pos hv)

/-- A full binary tree has fewer branches than leaves: each branch has two children, and the root is no child (R127,
point 5). -/
theorem card_branches_lt (hc : CompleteCode lens) : (branches lens).card < lens.length := by
  rcases (branches lens).eq_empty_or_nonempty with hempty | ⟨path, hpath⟩
  · rw [hempty]
    exact hc.length_pos
  · have hroot : [] ∈ branches lens := mem_branches.mpr ((mem_branches.mp hpath).of_prefix List.nil_prefix)
    have hchildren : (branches lens ×ˢ (Finset.univ : Finset Bool)).card ≤
        ((branches lens ∪ words lens).erase []).card := by
      refine Finset.card_le_card_of_injOn (fun c => c.1 ++ [c.2]) (fun c hin => ?_) (fun c _ d _ heq => ?_)
      · have hc1 : Branch lens c.1 := mem_branches.mp (Finset.mem_product.mp hin).1
        exact Finset.mem_erase.mpr ⟨by simp, hc.child_of_branch hc1 c.2⟩
      · simpa [Prod.ext_iff] using List.append_inj' heq rfl
    rw [Finset.card_product, Finset.card_erase_of_mem (Finset.mem_union_left _ hroot)] at hchildren
    have hunion := Finset.card_union_le (branches lens) (words lens)
    have hwords := card_words_le lens
    have hpos := Finset.card_pos.mpr ⟨_, hroot⟩
    simp only [Finset.card_univ, Fintype.card_bool] at hchildren
    omega

/-- Distinct branches are fewer than the symbols. -/
theorem length_lt_of_branches (hc : CompleteCode lens) {nodes : List (List Bool)} (hnodup : nodes.Nodup)
    (hbranch : ∀ path ∈ nodes, Branch lens path) : nodes.length < lens.length :=
  calc nodes.length = nodes.toFinset.card := (List.toFinset_card_of_nodup hnodup).symm
    _ ≤ (branches lens).card :=
      Finset.card_le_card fun path hpath => mem_branches.mpr (hbranch path (List.mem_toFinset.mp hpath))
    _ < lens.length := hc.card_branches_lt

end CompleteCode

/-! ### The entries of a build -/

/-- The address names an entry of the build's memories. -/
def EntryAddr.inside (n : Nat) : EntryAddr → Prop
  | .fix i => i < n
  | .left i => i < 1019
  | .right i => i < 1019

/-- The address of a node's child (R126, D17). -/
def nodeChild (k : Nat) (bit : Bool) : EntryAddr :=
  if bit then .right k else .left k

theorem nodeChild_inj {k l : Nat} {b c : Bool} : nodeChild k b = nodeChild l c ↔ k = l ∧ b = c := by
  cases b <;> cases c <;> simp [nodeChild]

theorem nodeChild_ne_fix (k : Nat) (b : Bool) (i : Nat) : nodeChild k b ≠ .fix i := by
  cases b <;> simp [nodeChild]

theorem nodeChild_inside {n k : Nat} {b : Bool} : (nodeChild k b).inside n ↔ k < 1019 := by
  cases b <;> rfl

section
variable {n : Nat} {b : BuildState n} {p q : EntryAddr}

/-- `*q` after `*p <- e`. -/
theorem entryAt_setEntryAt (hp : p.inside n) (e : Entry) (q : EntryAddr) :
    entryAt (setEntryAt b e p) q = if q = p then e else entryAt b q := by
  cases p <;> simp only [EntryAddr.inside] at hp <;> cases q <;>
    simp only [setEntryAt, entryAt, setEntry_getD _ _ _ _ _ hp, EntryAddr.fix.injEq, EntryAddr.left.injEq,
      EntryAddr.right.injEq, reduceCtorEq, if_false]

@[simp] theorem nextNode_setEntryAt (e : Entry) (p : EntryAddr) : (setEntryAt b e p).nextNode = b.nextNode := by
  cases p <;> rfl

@[simp] theorem codes_setEntryAt (e : Entry) (p : EntryAddr) : (setEntryAt b e p).codes = b.codes := by
  cases p <;> rfl

theorem allocNode_of_ne (h : entryAt b p ≠ Config.emptyEntry) : allocNode b p = b :=
  if_neg h

theorem allocNode_of_empty (h : entryAt b p = Config.emptyEntry) :
    allocNode b p =
      setEntryAt
        { setEntryAt (setEntryAt b Config.emptyEntry (.left b.nextNode)) Config.emptyEntry (.right b.nextNode) with
          nextNode := b.nextNode + 1 }
        (BitVec.ofNat 10 b.nextNode) p :=
  if_pos h

/-- `*q` after a node was allocated at `p`: its id at `p`, its children EMPTY (R126). -/
theorem entryAt_allocNode (h : entryAt b p = Config.emptyEntry) (hp : p.inside n) (hnext : b.nextNode < 1019)
    (q : EntryAddr) :
    entryAt (allocNode b p) q =
      if q = p then BitVec.ofNat 10 b.nextNode
      else if q = nodeChild b.nextNode true then Config.emptyEntry
      else if q = nodeChild b.nextNode false then Config.emptyEntry
      else entryAt b q := by
  have hclear : entryAt (setEntryAt (setEntryAt b Config.emptyEntry (.left b.nextNode)) Config.emptyEntry
      (.right b.nextNode)) q =
      if q = nodeChild b.nextNode true then Config.emptyEntry
      else if q = nodeChild b.nextNode false then Config.emptyEntry
      else entryAt b q := by
    rw [entryAt_setEntryAt (p := .right b.nextNode) hnext, entryAt_setEntryAt (p := .left b.nextNode) hnext]
    rfl
  rw [allocNode_of_empty h, entryAt_setEntryAt hp, ← hclear]
  rfl

theorem nextNode_allocNode (h : entryAt b p = Config.emptyEntry) : (allocNode b p).nextNode = b.nextNode + 1 := by
  rw [allocNode_of_empty h, nextNode_setEntryAt]

@[simp] theorem codes_allocNode (p : EntryAddr) : (allocNode b p).codes = b.codes := by
  by_cases h : entryAt b p = Config.emptyEntry
  · rw [allocNode_of_empty h]; simp
  · rw [allocNode_of_ne h]

theorem childAddr_eq (p : EntryAddr) (bit : Bool) : childAddr b p bit = nodeChild (entryAt b p).toNat bit := rfl

@[simp] theorem codes_insertBits (sym : Nat) (bits : List Bool) (p : EntryAddr) (b : BuildState n) :
    (insertBits sym bits p b).codes = b.codes := by
  induction bits generalizing p b with
  | nil => simp [insertBits]
  | cons bit bits ih => simp [insertBits, ih]

/-- The fixed table after the run of a short codeword (R125). -/
theorem entryAt_insertShort {tb sym len code i : Nat} (h : code / 2 ^ (16 - tb) + 2 ^ (tb - len) ≤ n) :
    entryAt (insertShort tb sym len code b) (.fix i) =
      if code / 2 ^ (16 - tb) ≤ i ∧ i < code / 2 ^ (16 - tb) + 2 ^ (tb - len) then BitVec.ofNat 10 sym
      else entryAt b (.fix i) :=
  fillEntries_getD b.fix _ _ i _ _ h

theorem entryAt_insertShort_nodeChild (tb sym len code k : Nat) (bit : Bool) :
    entryAt (insertShort tb sym len code b) (nodeChild k bit) = entryAt b (nodeChild k bit) := by
  cases bit <;> rfl

/-- One symbol moves on the running code of its own length (R125). -/
theorem codes_insertSymbol (tb sym len : Nat) (b : BuildState n) :
    (insertSymbol tb sym len b).codes =
      if len = 0 then b.codes else b.codes.set len (b.codes.getD len 0 + 2 ^ (16 - len)) := by
  unfold insertSymbol
  split
  · rfl
  · dsimp only
    split <;> simp [insertShort, insertLong]

end

/-! ### Slots and what they hold -/

section
variable (a : Alphabet) (lens : List CodeLen) (m : Nat) (nodes : List (List Bool)) (path : List Bool)

/-- The entry at an address is the one of a path: an entry of the fixed table, or a child of an allocated node. `nodes`
lists the paths of the allocated nodes, the path of node `N + i` at index `i`. -/
inductive SlotAt (p : EntryAddr) : Prop where
  | root (i : Nat) (lt : i < 2 ^ Config.tableBits a) (addr : p = .fix i)
      (path_eq : path = bitsOf (Config.tableBits a) i)
  | child (i : Nat) (above : List Bool) (bit : Bool) (node : nodes[i]? = some above)
      (addr : p = nodeChild (Config.numSymbols a + i) bit) (path_eq : path = above ++ [bit])

/-- What the entry of a path holds once the symbols below `m` are inserted (R125, R126, R127). -/
inductive Stored (e : Entry) : Prop where
  | leaf (v : Nat) (lt : v < m) (used : 0 < lenAt lens v) (word : wordAt lens v <+: path)
      (entry : e = BitVec.ofNat 10 v)
  | node (i : Nat) (node : nodes[i]? = some path) (entry : e = BitVec.ofNat 10 (Config.numSymbols a + i))
  | empty (unused : ∀ v < m, 0 < lenAt lens v → ¬ wordAt lens v <+: path) (noNode : path ∉ nodes)
      (entry : e = Config.emptyEntry)

end

/-- A child of a node that is not one of the alphabet's own (R120). -/
def EntryAddr.foreign (a : Alphabet) : EntryAddr → Prop
  | .fix _ => False
  | .left j => j < Config.numSymbols a ∨ 2 * Config.numSymbols a - 1 ≤ j
  | .right j => j < Config.numSymbols a ∨ 2 * Config.numSymbols a - 1 ≤ j

theorem nodeChild_foreign {a : Alphabet} {k : Nat} {bit : Bool} :
    (nodeChild k bit).foreign a ↔ k < Config.numSymbols a ∨ 2 * Config.numSymbols a - 1 ≤ k := by
  cases bit <;> rfl

/-- The invariant of a build that started as `b₀`, once the symbols below `m` are inserted: its nodes are branches of
the code tree, with every node above them; all branches of the inserted codewords from depth `TB` on are nodes; every
entry holds what its path says; no other alphabet's node was written. -/
structure Trie (a : Alphabet) (lens : List CodeLen) (b₀ : BuildState (2 ^ Config.tableBits a)) (m : Nat)
    (nodes : List (List Bool)) (b : BuildState (2 ^ Config.tableBits a)) : Prop where
  code : CompleteCode lens
  size : lens.length ≤ Config.numSymbols a
  next : b.nextNode = Config.numSymbols a + nodes.length
  nodup : nodes.Nodup
  branch : ∀ path ∈ nodes, Branch lens path
  deep : ∀ path ∈ nodes, Config.tableBits a ≤ path.length
  closed : ∀ path ∈ nodes, ∀ above, above <+: path → Config.tableBits a ≤ above.length → above ∈ nodes
  inserted : ∀ v < m, 0 < lenAt lens v → ∀ above, above <+: wordAt lens v → above ≠ wordAt lens v →
    Config.tableBits a ≤ above.length → above ∈ nodes
  stored : ∀ path p, SlotAt a nodes path p → Stored a lens m nodes path (entryAt b p)
  kept : ∀ p : EntryAddr, p.foreign a → entryAt b p = entryAt b₀ p

theorem numSymbols_le (a : Alphabet) : Config.numSymbols a ≤ 510 := by
  cases a <;> decide

theorem tableBits_lt (a : Alphabet) : Config.tableBits a < 16 := by
  cases a <;> decide

/-- An id below EMPTY is stored as itself (R37). -/
theorem entry_id {k : Nat} (hk : k < 1023) :
    (BitVec.ofNat 10 k).toNat = k ∧ BitVec.ofNat 10 k ≠ Config.emptyEntry := by
  have hid : (BitVec.ofNat 10 k).toNat = k := by rw [BitVec.toNat_ofNat]; omega
  refine ⟨hid, fun heq => ?_⟩
  rw [heq] at hid
  exact absurd hid hk.ne'

namespace SlotAt

variable {a : Alphabet} {nodes : List (List Bool)} {path : List Bool} {p : EntryAddr}

theorem tableBits_le_length (h : SlotAt a nodes path p)
    (hdeep : ∀ path ∈ nodes, Config.tableBits a ≤ path.length) :
    Config.tableBits a ≤ path.length := by
  cases h with
  | root i lt addr path_eq => simp [path_eq]
  | child i above bit node addr path_eq =>
    have := hdeep above (List.mem_of_getElem? node)
    simp [path_eq]
    omega

/-- An address is the slot of one path only. -/
theorem path_unique {path' : List Bool} (h : SlotAt a nodes path p) (h' : SlotAt a nodes path' p) : path = path' := by
  cases h with
  | root i lt addr path_eq =>
    cases h' with
    | root j lt' addr' path_eq' =>
      obtain rfl : i = j := by simpa [addr] using addr'
      rw [path_eq, path_eq']
    | child j above bit node addr' path_eq' => exact absurd (addr'.symm.trans addr) (nodeChild_ne_fix _ _ _)
  | child i above bit node addr path_eq =>
    cases h' with
    | root j lt' addr' path_eq' => exact absurd (addr.symm.trans addr') (nodeChild_ne_fix _ _ _)
    | child j above' bit' node' addr' path_eq' =>
      obtain ⟨hij, rfl⟩ := nodeChild_inj.mp (addr.symm.trans addr')
      obtain rfl : i = j := by omega
      obtain rfl : above = above' := by simpa [node] using node'
      rw [path_eq, path_eq']

/-- A path has one slot only. -/
theorem addr_unique {p' : EntryAddr} (h : SlotAt a nodes path p) (h' : SlotAt a nodes path p') (hnodup : nodes.Nodup)
    (hdeep : ∀ path ∈ nodes, Config.tableBits a ≤ path.length) : p = p' := by
  have hlong {i : Nat} {above : List Bool} (bit : Bool) (j : Nat) (hnode : nodes[i]? = some above) :
      above ++ [bit] ≠ bitsOf (Config.tableBits a) j := fun heq => by
    have hlength := congrArg List.length heq
    have := hdeep above (List.mem_of_getElem? hnode)
    simp at hlength
    omega
  cases h with
  | root i lt addr path_eq =>
    cases h' with
    | root j lt' addr' path_eq' =>
      rw [addr, addr', (bitsOf_inj lt lt').mp (path_eq.symm.trans path_eq')]
    | child j above bit node addr' path_eq' => exact absurd (path_eq'.symm.trans path_eq) (hlong bit i node)
  | child i above bit node addr path_eq =>
    cases h' with
    | root j lt' addr' path_eq' => exact absurd (path_eq.symm.trans path_eq') (hlong bit j node)
    | child j above' bit' node' addr' path_eq' =>
      obtain ⟨rfl, hbit⟩ := List.append_inj' (path_eq.symm.trans path_eq') rfl
      obtain rfl : bit = bit' := by simpa using hbit
      have hi : i < nodes.length := (List.getElem?_eq_some_iff.mp node).1
      rw [addr, addr', (List.getElem?_inj hi hnodup).mp (node.trans node'.symm)]

/-- The slots after one more node: those before, and the two children of the new node. -/
theorem of_concat {new : List Bool} (h : SlotAt a (nodes ++ [new]) path p) :
    SlotAt a nodes path p ∨
      ∃ bit, p = nodeChild (Config.numSymbols a + nodes.length) bit ∧ path = new ++ [bit] := by
  cases h with
  | root i lt addr path_eq => exact .inl (.root i lt addr path_eq)
  | child i above bit node addr path_eq =>
    rcases lt_trichotomy i nodes.length with hlt | rfl | hgt
    · rw [List.getElem?_append_left hlt] at node
      exact .inl (.child i above bit node addr path_eq)
    · obtain rfl : new = above := by simpa using node
      exact .inr ⟨bit, addr, path_eq⟩
    · rw [List.getElem?_eq_none (by simp; omega)] at node
      cases node

/-- A new node's children are no slots before it. -/
theorem ne_child {k : Nat} (h : SlotAt a nodes path p) (hk : Config.numSymbols a + nodes.length ≤ k) (bit : Bool) :
    p ≠ nodeChild k bit := by
  cases h with
  | root i lt addr path_eq => exact addr ▸ (nodeChild_ne_fix _ _ _).symm
  | child i above bit' node addr path_eq =>
    have hi : i < nodes.length := (List.getElem?_eq_some_iff.mp node).1
    rw [addr, Ne, nodeChild_inj]
    omega

end SlotAt

namespace Stored

variable {a : Alphabet} {lens : List CodeLen} {m : Nat} {nodes : List (List Bool)} {path : List Bool} {e : Entry}

/-- Another path's new node changes nothing here. -/
theorem concat {new : List Bool} (h : Stored a lens m nodes path e) (hne : path ≠ new) :
    Stored a lens m (nodes ++ [new]) path e := by
  cases h with
  | leaf v lt used word entry => exact .leaf v lt used word entry
  | node i node entry =>
    exact .node i (by rw [List.getElem?_append_left (List.getElem?_eq_some_iff.mp node).1, node]) entry
  | empty unused noNode entry => exact .empty unused (by simp [noNode, hne]) entry

/-- A symbol whose codeword does not lead here, or that has none, changes nothing here. -/
theorem succ (h : Stored a lens m nodes path e) (hm : 0 < lenAt lens m → ¬ wordAt lens m <+: path) :
    Stored a lens (m + 1) nodes path e := by
  cases h with
  | leaf v lt used word entry => exact .leaf v (Nat.lt_succ_of_lt lt) used word entry
  | node i node entry => exact .node i node entry
  | empty unused noNode entry =>
    refine .empty (fun v hv used => ?_) noNode entry
    rcases Nat.lt_succ_iff_lt_or_eq.mp hv with hlt | rfl
    · exact unused v hlt used
    · exact hm used

end Stored

namespace Trie

variable {a : Alphabet} {lens : List CodeLen} {b₀ b : BuildState (2 ^ Config.tableBits a)} {m : Nat}
  {nodes : List (List Bool)} {path : List Bool} {p : EntryAddr}

/-- The nodes leave room in the alphabet's range (R127, point 5). -/
theorem length_lt (h : Trie a lens b₀ m nodes b) : nodes.length < Config.numSymbols a :=
  (h.code.length_lt_of_branches h.nodup h.branch).trans_le h.size

theorem slot_inside (h : Trie a lens b₀ m nodes b) (hp : SlotAt a nodes path p) :
    p.inside (2 ^ Config.tableBits a) := by
  cases hp with
  | root i lt addr path_eq => rw [addr]; exact lt
  | child i above bit node addr path_eq =>
    have hi : i < nodes.length := (List.getElem?_eq_some_iff.mp node).1
    have := h.length_lt
    have := numSymbols_le a
    rw [addr, nodeChild_inside]
    omega

/-- A slot is no other alphabet's (R120). -/
theorem slot_not_foreign (h : Trie a lens b₀ m nodes b) (hp : SlotAt a nodes path p) : ¬ p.foreign a := by
  cases hp with
  | root i lt addr path_eq => rw [addr]; exact id
  | child i above bit node addr path_eq =>
    have hi : i < nodes.length := (List.getElem?_eq_some_iff.mp node).1
    have := h.length_lt
    rw [addr, nodeChild_foreign]
    omega

/-- A node's id is a number of ten bits that is not EMPTY (R37, R127). -/
theorem node_id (h : Trie a lens b₀ m nodes b) {i : Nat} (hi : nodes[i]? = some path) :
    (BitVec.ofNat 10 (Config.numSymbols a + i)).toNat = Config.numSymbols a + i ∧
    BitVec.ofNat 10 (Config.numSymbols a + i) ≠ Config.emptyEntry := by
  have hlt : i < nodes.length := (List.getElem?_eq_some_iff.mp hi).1
  have := h.length_lt
  have := numSymbols_le a
  exact entry_id (by omega)

/-- A codeword that leads through a child of a node ends there, at the earliest (R127, point 3). -/
theorem eq_of_word_prefix (h : Trie a lens b₀ m nodes b) {i : Nat} {above : List Bool} (hi : nodes[i]? = some above)
    {bit : Bool} {v : Nat} (hv : 0 < lenAt lens v) (hword : wordAt lens v <+: above ++ [bit]) :
    wordAt lens v = above ++ [bit] := by
  rcases List.prefix_concat_iff.mp hword with heq | hle
  · exact heq
  · exact absurd hle (h.code.not_prefix_of_branch (h.branch above (List.mem_of_getElem? hi)) hv)

/-- Another branch leaves room for another node (R127, point 5). -/
theorem length_succ_lt (h : Trie a lens b₀ m nodes b) (hbranch : Branch lens path) (hnode : path ∉ nodes) :
    nodes.length + 1 < Config.numSymbols a := by
  have hnodup : (path :: nodes).Nodup := List.nodup_cons.mpr ⟨hnode, h.nodup⟩
  have hbranches : ∀ above ∈ path :: nodes, Branch lens above := List.forall_mem_cons.mpr ⟨hbranch, h.branch⟩
  exact (h.code.length_lt_of_branches hnodup hbranches).trans_le h.size

/-- Every path above a slot, from depth `TB` on, is a node. -/
theorem mem_of_prefix_slot (h : Trie a lens b₀ m nodes b) (hp : SlotAt a nodes path p) {above : List Bool}
    (hpre : above <+: path) (hne : above ≠ path) (hdeep : Config.tableBits a ≤ above.length) : above ∈ nodes := by
  cases hp with
  | root i lt addr path_eq =>
    refine absurd (hpre.eq_of_length_le ?_) hne
    rwa [path_eq, length_bitsOf]
  | child i parent bit node addr path_eq =>
    rw [path_eq] at hpre hne
    exact h.closed parent (List.mem_of_getElem? node) above ((List.prefix_concat_iff.mp hpre).resolve_left hne) hdeep

/-- Below a branch that is no node nothing is inserted. -/
theorem stored_below (h : Trie a lens b₀ m nodes b) (hbranch : Branch lens path) (hnode : path ∉ nodes)
    (hdeep : Config.tableBits a ≤ path.length) (bit : Bool) :
    Stored a lens m (nodes ++ [path]) (path ++ [bit]) Config.emptyEntry := by
  refine .empty (fun v hv used hword => ?_) (fun hin => ?_) rfl
  · rcases List.prefix_concat_iff.mp hword with heq | hle
    · exact hnode (h.inserted v hv used path (heq ▸ List.prefix_append _ _) (by simp [heq]) hdeep)
    · exact h.code.not_prefix_of_branch hbranch used hle
  · rcases List.mem_append.mp hin with hin | hin
    · exact hnode (h.closed _ hin path (List.prefix_append _ _) hdeep)
    · simp at hin

/-- `*q` after a node was allocated at the slot of a path (R126). -/
theorem entryAt_alloc (h : Trie a lens b₀ m nodes b) (hp : SlotAt a nodes path p) (hbranch : Branch lens path)
    (hnode : path ∉ nodes) (hempty : entryAt b p = Config.emptyEntry) (q : EntryAddr) :
    entryAt (allocNode b p) q =
      if q = p then BitVec.ofNat 10 (Config.numSymbols a + nodes.length)
      else if q = nodeChild (Config.numSymbols a + nodes.length) true then Config.emptyEntry
      else if q = nodeChild (Config.numSymbols a + nodes.length) false then Config.emptyEntry
      else entryAt b q := by
  have hroom := h.length_succ_lt hbranch hnode
  have hN := numSymbols_le a
  rw [entryAt_allocNode hempty (h.slot_inside hp) (by rw [h.next]; omega), h.next]

/-- An EMPTY entry on the way to a codeword gets a node (R126). -/
theorem alloc_empty (h : Trie a lens b₀ m nodes b) (hp : SlotAt a nodes path p) (hbranch : Branch lens path)
    (hnode : path ∉ nodes) (hempty : entryAt b p = Config.emptyEntry) :
    Trie a lens b₀ m (nodes ++ [path]) (allocNode b p) := by
  have hdeep := hp.tableBits_le_length h.deep
  have hentry := h.entryAt_alloc hp hbranch hnode hempty
  have hother {q : EntryAddr} (hqp : q ≠ p) (hq : ∀ bit, q ≠ nodeChild (Config.numSymbols a + nodes.length) bit) :
      entryAt (allocNode b p) q = entryAt b q := by
    rw [hentry, if_neg hqp, if_neg (hq true), if_neg (hq false)]
  exact {
    code := h.code
    size := h.size
    next := by rw [nextNode_allocNode hempty, h.next, List.length_append, List.length_singleton, Nat.add_assoc]
    nodup := List.concat_eq_append ▸ h.nodup.concat hnode
    branch := List.forall_mem_append.mpr ⟨h.branch, List.forall_mem_singleton.mpr hbranch⟩
    deep := List.forall_mem_append.mpr ⟨h.deep, List.forall_mem_singleton.mpr hdeep⟩
    closed := by
      intro below hbelow above hpre habove
      rcases List.mem_append.mp hbelow with hin | hin
      · exact List.mem_append_left _ (h.closed below hin above hpre habove)
      · obtain rfl := List.mem_singleton.mp hin
        by_cases heq : above = below
        · simp [heq]
        · exact List.mem_append_left _ (h.mem_of_prefix_slot hp hpre heq habove)
    inserted := fun v hv used above hpre hne habove =>
      List.mem_append_left _ (h.inserted v hv used above hpre hne habove)
    stored := by
      intro ρ q hq
      rcases hq.of_concat with hq | ⟨bit, rfl, rfl⟩
      · by_cases hqp : q = p
        · subst hqp
          obtain rfl := hq.path_unique hp
          exact .node nodes.length (by simp) (by rw [hentry, if_pos rfl])
        · rw [hother hqp fun bit => hq.ne_child le_rfl bit]
          exact (h.stored ρ q hq).concat fun heq => hqp (hq.addr_unique (heq ▸ hp) h.nodup h.deep)
      · rw [hentry, if_neg (hp.ne_child le_rfl bit).symm]
        cases bit <;> simpa [nodeChild_inj] using h.stored_below hbranch hnode hdeep _
    kept := by
      intro q hq
      rw [← h.kept q hq]
      refine hother ?_ fun bit => ?_
      · rintro rfl
        exact h.slot_not_foreign hp hq
      · rintro rfl
        have hroom := h.length_succ_lt hbranch hnode
        rw [nodeChild_foreign] at hq
        omega }

/-- The loop of rule R126 finds or makes a node at every branch of the codeword it inserts. -/
theorem alloc (h : Trie a lens b₀ m nodes b) (hp : SlotAt a nodes path p) (hm : 0 < lenAt lens m)
    (hpre : path <+: wordAt lens m) (hne : path ≠ wordAt lens m) :
    ∃ nodes' i, Trie a lens b₀ m nodes' (allocNode b p) ∧ nodes'[i]? = some path ∧
      entryAt (allocNode b p) p = BitVec.ofNat 10 (Config.numSymbols a + i) := by
  have hbranch : Branch lens path := ⟨m, hm, hpre, hne⟩
  cases h.stored path p hp with
  | leaf v lt used word entry => exact absurd word (h.code.not_prefix_of_branch hbranch used)
  | node i node entry =>
    have hid := (h.node_id node).2
    rw [allocNode_of_ne (entry ▸ hid)]
    exact ⟨nodes, i, h, node, entry⟩
  | empty unused noNode entry =>
    have h' := h.alloc_empty hp hbranch noNode entry
    exact ⟨nodes ++ [path], nodes.length, h', by simp, by rw [h.entryAt_alloc hp hbranch noNode entry, if_pos rfl]⟩

/-- A write of symbol `m` to exactly the slots its codeword leads to inserts the symbol. -/
theorem store (h : Trie a lens b₀ m nodes b) {b' : BuildState (2 ^ Config.tableBits a)}
    (hm : 0 < lenAt lens m) (hnext : b'.nextNode = b.nextNode)
    (hnodes : ∀ above, above <+: wordAt lens m → above ≠ wordAt lens m → Config.tableBits a ≤ above.length →
      above ∈ nodes)
    (hcovered : ∀ path p, SlotAt a nodes path p → wordAt lens m <+: path → entryAt b' p = BitVec.ofNat 10 m)
    (hfree : ∀ path p, SlotAt a nodes path p → ¬ wordAt lens m <+: path → entryAt b' p = entryAt b p)
    (hkept : ∀ p : EntryAddr, p.foreign a → entryAt b' p = entryAt b p) : Trie a lens b₀ (m + 1) nodes b' where
  code := h.code
  size := h.size
  next := hnext.trans h.next
  nodup := h.nodup
  branch := h.branch
  deep := h.deep
  closed := h.closed
  inserted := by
    intro v hv used
    rcases Nat.lt_succ_iff_lt_or_eq.mp hv with hlt | rfl
    · exact h.inserted v hlt used
    · exact hnodes
  stored := by
    intro path p hp
    by_cases hword : wordAt lens m <+: path
    · exact .leaf m (Nat.lt_succ_self m) hm hword (hcovered path p hp hword)
    · rw [hfree path p hp hword]
      exact (h.stored path p hp).succ fun _ => hword
  kept p hp := (hkept p hp).trans (h.kept p hp)

/-- A symbol without a codeword inserts nothing (R121). -/
theorem skip (h : Trie a lens b₀ m nodes b) (hm : lenAt lens m = 0) : Trie a lens b₀ (m + 1) nodes b :=
  { h with
    inserted := fun v hv used => by
      rcases Nat.lt_succ_iff_lt_or_eq.mp hv with hlt | rfl
      · exact h.inserted v hlt used
      · omega
    stored := fun path p hp => (h.stored path p hp).succ fun used => by omega }

/-- The running codes are no part of the trie. -/
theorem withCodes (h : Trie a lens b₀ m nodes b) (codes : List Nat) :
    Trie a lens b₀ m nodes { b with codes := codes } where
  code := h.code
  size := h.size
  next := h.next
  nodup := h.nodup
  branch := h.branch
  deep := h.deep
  closed := h.closed
  inserted := h.inserted
  stored := h.stored
  kept := h.kept

/-- The leaf of a long codeword (R126). -/
theorem storeLeaf (h : Trie a lens b₀ m nodes b) (hm : Config.tableBits a < lenAt lens m)
    (hp : SlotAt a nodes (wordAt lens m) p) :
    Trie a lens b₀ (m + 1) nodes (setEntryAt b (BitVec.ofNat 10 m) p) := by
  have hused : 0 < lenAt lens m := Nat.zero_lt_of_lt hm
  have hentry := entryAt_setEntryAt (b := b) (h.slot_inside hp) (BitVec.ofNat 10 m)
  refine h.store hused (nextNode_setEntryAt _ _) (fun above => h.mem_of_prefix_slot hp) (fun path q hq hword => ?_)
    (fun path q hq hword => ?_) (fun q hq => ?_)
  · suffices q = p by rw [hentry, if_pos this]
    cases hq with
    | root i lt addr path_eq =>
      have := hword.length_le
      simp [path_eq] at this
      omega
    | child i above bit node addr path_eq =>
      have heq := h.eq_of_word_prefix node hused (path_eq ▸ hword)
      exact SlotAt.addr_unique (.child i above bit node addr heq) hp h.nodup h.deep
  · rw [hentry, if_neg]
    rintro rfl
    exact hword (hq.path_unique hp ▸ List.prefix_rfl)
  · rw [hentry, if_neg]
    rintro rfl
    exact h.slot_not_foreign hp hq

/-- Rule R126, from any entry on the way of the codeword of symbol `m`. -/
theorem after_insertBits {bits : List Bool} (h : Trie a lens b₀ m nodes b) (hm : Config.tableBits a < lenAt lens m)
    (hp : SlotAt a nodes path p) (hword : path ++ bits = wordAt lens m) :
    ∃ nodes', Trie a lens b₀ (m + 1) nodes' (insertBits m bits p b) := by
  induction bits generalizing path p b nodes with
  | nil =>
    rw [List.append_nil] at hword
    exact ⟨nodes, h.storeLeaf hm (hword ▸ hp)⟩
  | cons bit bits ih =>
    obtain ⟨nodes', i, h', hnode, hentry⟩ :=
      h.alloc hp (Nat.zero_lt_of_lt hm) (hword ▸ List.prefix_append _ _) (by rw [← hword]; simp)
    have hchild : SlotAt a nodes' (path ++ [bit]) (childAddr (allocNode b p) p bit) :=
      .child i path bit hnode (by rw [childAddr_eq, hentry, (h'.node_id hnode).1]) rfl
    exact ih h' hchild (by simpa using hword)

/-- Step (d): a code longer than the table's index (R126). -/
theorem after_insertLong (h : Trie a lens b₀ m nodes b) (hm : Config.tableBits a < lenAt lens m) :
    ∃ nodes', Trie a lens b₀ (m + 1) nodes'
      (insertLong (Config.tableBits a) m (lenAt lens m) (codeOf lens m) b) := by
  have hle := h.code.lenAt_le m
  have hlt := h.code.codeOf_div_lt (Nat.zero_lt_of_lt hm) (tableBits_lt a).le
  refine h.after_insertBits hm (.root _ hlt rfl rfl) ?_
  have hlen : lenAt lens m = Config.tableBits a + (lenAt lens m - Config.tableBits a) := by omega
  have hpow : 2 ^ (16 - Config.tableBits a) = 2 ^ (16 - lenAt lens m) * 2 ^ (lenAt lens m - Config.tableBits a) := by
    rw [← pow_add]
    congr 1
    omega
  rw [wordAt, hpow, ← Nat.div_div_eq_div_mul, ← bitsOf_add, ← hlen]

/-- Step (c): a code no longer than the table's index fills its run of entries (R125). -/
theorem after_insertShort (h : Trie a lens b₀ m nodes b) (hm : 0 < lenAt lens m)
    (hle : lenAt lens m ≤ Config.tableBits a) :
    Trie a lens b₀ (m + 1) nodes (insertShort (Config.tableBits a) m (lenAt lens m) (codeOf lens m) b) := by
  have htb := tableBits_lt a
  have hrun := h.code.shortRun_le hm hle htb.le
  have hroot {i : Nat} (hi : i < 2 ^ Config.tableBits a) :
      entryAt (insertShort (Config.tableBits a) m (lenAt lens m) (codeOf lens m) b) (.fix i) =
        if wordAt lens m <+: bitsOf (Config.tableBits a) i then BitVec.ofNat 10 m else entryAt b (.fix i) := by
    rw [entryAt_insertShort hrun]
    exact if_congr (h.code.wordAt_prefix_bitsOf_iff hm hle htb.le hi).symm rfl rfl
  refine h.store hm rfl (fun above hpre hne hdeep => ?_) (fun path p hp hword => ?_) (fun path p hp hword => ?_)
    (fun p hp => ?_)
  · refine absurd (hpre.eq_of_length_le ?_) hne
    rw [length_wordAt]
    omega
  · cases hp with
    | root i lt addr path_eq => rw [addr, hroot lt, if_pos (path_eq ▸ hword)]
    | child i above bit node addr path_eq =>
      have heq := congrArg List.length (h.eq_of_word_prefix node hm (path_eq ▸ hword))
      have := h.deep above (List.mem_of_getElem? node)
      simp at heq
      omega
  · cases hp with
    | root i lt addr path_eq => rw [addr, hroot lt, if_neg (path_eq ▸ hword)]
    | child i above bit node addr path_eq => rw [addr, entryAt_insertShort_nodeChild]
  · cases p with
    | fix i => exact absurd hp id
    | left j => rfl
    | right j => rfl

/-- One symbol of the assignment loop (R125). -/
theorem after_insertSymbol (h : Trie a lens b₀ m nodes b)
    (hcode : 0 < lenAt lens m → b.codes.getD (lenAt lens m) 0 = codeOf lens m) :
    ∃ nodes', Trie a lens b₀ (m + 1) nodes' (insertSymbol (Config.tableBits a) m (lenAt lens m) b) := by
  unfold insertSymbol
  split
  · next hzero => exact ⟨nodes, h.skip hzero⟩
  · next hused =>
    have hused : 0 < lenAt lens m := Nat.pos_of_ne_zero hused
    rw [hcode hused]
    dsimp only
    split
    · next hle => exact ⟨nodes, (h.after_insertShort hused hle).withCodes _⟩
    · next hlong =>
      obtain ⟨nodes', h'⟩ := h.after_insertLong (not_le.mp hlong)
      exact ⟨nodes', h'.withCodes _⟩

end Trie

/-! ### The assignment loop -/

/-- The running codes once the symbols below `m` have theirs (R125). -/
def CodesAt (lens : List CodeLen) (m : Nat) (codes : List Nat) : Prop :=
  codes.length = 17 ∧
  ∀ len, 0 < len → len ≤ 16 → codes.getD len 0 = startOf lens len + countLen (lens.take m) len * 2 ^ (16 - len)

theorem codesAt_start (lens : List CodeLen) : CodesAt lens 0 ((List.range 17).map (startOf lens)) := by
  refine ⟨by simp, fun len _ hlen => ?_⟩
  simp [List.getD_eq_getElem?_getD, show len < 17 by omega, countLen]

theorem CodesAt.getD_eq_codeOf {lens : List CodeLen} {m : Nat} {codes : List Nat} (h : CodesAt lens m codes)
    (hpos : 0 < lenAt lens m) (hle : lenAt lens m ≤ 16) : codes.getD (lenAt lens m) 0 = codeOf lens m :=
  h.2 _ hpos hle

theorem CodesAt.after_insertSymbol {lens : List CodeLen} {m n tb : Nat} {b : BuildState n} (h : CodesAt lens m b.codes)
    (hm : m < lens.length) : CodesAt lens (m + 1) (insertSymbol tb m (lenAt lens m) b).codes := by
  obtain ⟨hlength, hcodes⟩ := h
  rw [codes_insertSymbol]
  split
  · next hzero =>
    refine ⟨hlength, fun len hpos hlen => ?_⟩
    rw [hcodes len hpos hlen, countLen_take_succ hm, if_neg (by omega), Nat.add_zero]
  · next hused =>
    refine ⟨by simpa using hlength, fun len hpos hlen => ?_⟩
    have hread : (b.codes.set (lenAt lens m) (b.codes.getD (lenAt lens m) 0 + 2 ^ (16 - lenAt lens m))).getD len 0 =
        if lenAt lens m = len then b.codes.getD len 0 + 2 ^ (16 - len) else b.codes.getD len 0 := by
      simp only [List.getD_eq_getElem?_getD, List.getElem?_set]
      split
      · next heq => subst heq; rw [if_pos (by omega), Option.getD_some]
      · rfl
    rw [hread, countLen_take_succ hm, hcodes len hpos hlen]
    split
    · rw [Nat.succ_mul, Nat.add_assoc]
    · rfl

/-- The loop inserts every symbol that is left (R125). -/
theorem Trie.after_assignCodes {a : Alphabet} {lens rest : List CodeLen} {b₀ b : BuildState (2 ^ Config.tableBits a)}
    {m : Nat} {nodes : List (List Bool)} (h : Trie a lens b₀ m nodes b) (hcodes : CodesAt lens m b.codes)
    (hrest : lens.drop m = rest) :
    ∃ nodes', Trie a lens b₀ (m + rest.length) nodes' (assignCodes (Config.tableBits a) m rest b) := by
  induction rest generalizing m b nodes with
  | nil => exact ⟨nodes, h⟩
  | cons l rest ih =>
    have hm : m < lens.length := by
      by_contra hge
      rw [List.drop_of_length_le (not_lt.mp hge)] at hrest
      cases hrest
    rw [List.drop_eq_getElem_cons hm, List.cons.injEq] at hrest
    obtain ⟨rfl, hrest⟩ := hrest
    have hlen : lens[m].toNat = lenAt lens m := by rw [lenAt, List.getD_eq_getElem _ _ hm]
    obtain ⟨nodes', h'⟩ := h.after_insertSymbol fun hused => hcodes.getD_eq_codeOf hused (h.code.lenAt_le m)
    obtain ⟨nodes'', h''⟩ := ih h' (hcodes.after_insertSymbol hm) hrest
    refine ⟨nodes'', ?_⟩
    rw [assignCodes, hlen]
    simpa [Nat.add_assoc, Nat.add_comm 1] using h''

/-- A build starts with an empty trie (R124). -/
theorem trie_initBuild {a : Alphabet} {lens : List CodeLen} (hcode : CompleteCode lens)
    (hsize : lens.length ≤ Config.numSymbols a) (left right : Vector Entry 1019) :
    Trie a lens (initBuild _ (Config.numSymbols a) lens left right) 0 []
      (initBuild _ (Config.numSymbols a) lens left right) where
  code := hcode
  size := hsize
  next := rfl
  nodup := List.nodup_nil
  branch := by simp
  deep := by simp
  closed := by simp
  inserted := by simp
  stored path p hp := by
    cases hp with
    | root i lt addr path_eq =>
      refine .empty (by simp) (by simp) ?_
      subst addr
      simp [entryAt, initBuild, lt]
    | child i above bit node addr path_eq => simp at node
  kept _ _ := rfl

/-- A build that succeeds leaves the trie of a complete code (R127). -/
theorem trie_of_build {a : Alphabet} {lens : List CodeLen} {left right : Vector Entry 1019}
    {b : BuildState (2 ^ Config.tableBits a)} (h : build _ a lens left right = .ok b) :
    ∃ nodes, Trie a (lens.take (Config.numSymbols a))
      (initBuild _ (Config.numSymbols a) (lens.take (Config.numSymbols a)) left right)
      (lens.take (Config.numSymbols a)).length nodes b := by
  obtain ⟨hcheck, rfl⟩ := build_ok h
  have hinit := trie_initBuild (a := a) (checkLens_eq_none hcheck) (List.length_take_le _ _) left right
  simpa using hinit.after_assignCodes (codesAt_start _) rfl

/-! ### The nodes of other alphabets -/

theorem toList_getElem?_of_getD {α : Type} {n : Nat} {v w : Vector α n} {j : Nat} {d : α}
    (h : v.toList.getD j d = w.toList.getD j d) : v.toList[j]? = w.toList[j]? := by
  by_cases hj : j < n
  · simpa [hj] using h
  · simp [hj]

/-- Settles O35: an entry that is no child of the alphabet's own nodes is what it was before the build. -/
theorem buildKeepsOtherNodes : Obligations.BuildKeepsOtherNodes := by
  rintro _ a lens left right b j rfl hbuild hj
  obtain ⟨nodes, htrie⟩ := trie_of_build hbuild
  exact ⟨toList_getElem?_of_getD (htrie.kept (.left j) hj), toList_getElem?_of_getD (htrie.kept (.right j) hj)⟩

/-! ### The lookup -/

/-- The walk at a symbol's entry (R132). -/
theorem walk_of_symbol {t : HufTable} {e : Entry} (hne : e ≠ Config.emptyEntry)
    (hlt : e.toNat < Config.numSymbols t.alph) (bits : List Bool) : t.walk e bits = .leaf e.toNat := by
  unfold HufTable.walk
  rw [if_neg hne, if_pos hlt]

/-- The walk at a node's entry with no bit left (R132). -/
theorem walk_of_node_nil {t : HufTable} {e : Entry} (hne : e ≠ Config.emptyEntry)
    (hge : Config.numSymbols t.alph ≤ e.toNat) : t.walk e [] = .ranOut := by
  rw [HufTable.walk, if_neg hne, if_neg (not_lt.mpr hge)]

/-- The walk at a node's entry takes the child its next bit selects (R132). -/
theorem walk_of_node_cons {t : HufTable} {e : Entry} (hne : e ≠ Config.emptyEntry)
    (hge : Config.numSymbols t.alph ≤ e.toNat) (bit : Bool) (rest : List Bool) :
    t.walk e (bit :: rest) =
      t.walk (if bit then t.right.getD e.toNat Config.emptyEntry else t.left.getD e.toNat Config.emptyEntry) rest := by
  rw [HufTable.walk, if_neg hne, if_neg (not_lt.mpr hge)]

/-- A table looks its children up where the build put them. -/
theorem child_tableOf {n : Nat} (a : Alphabet) (const : Nat) (lens : List CodeLen) (b : BuildState n) (k : Nat)
    (bit : Bool) :
    (if bit then (tableOf a const lens b).right.getD k Config.emptyEntry
      else (tableOf a const lens b).left.getD k Config.emptyEntry) = entryAt b (nodeChild k bit) := by
  cases bit <;> rfl

/-- A symbol's id is a number of ten bits that is not EMPTY (R37). -/
theorem symbol_id {a : Alphabet} {v : Nat} (hv : v < Config.numSymbols a) :
    (BitVec.ofNat 10 v).toNat = v ∧ BitVec.ofNat 10 v ≠ Config.emptyEntry :=
  entry_id (by have := numSymbols_le a; omega)

namespace Trie

variable {a : Alphabet} {lens full : List CodeLen} {b₀ b : BuildState (2 ^ Config.tableBits a)} {const v : Nat}
  {nodes : List (List Bool)} {path bits : List Bool} {p : EntryAddr}

/-- In a finished trie no reachable entry is EMPTY: it is the leaf of a codeword that leads there, or a node (R127,
point 2). -/
theorem leaf_or_node (h : Trie a lens b₀ lens.length nodes b) (hp : SlotAt a nodes path p) :
    (∃ v, 0 < lenAt lens v ∧ wordAt lens v <+: path ∧ entryAt b p = BitVec.ofNat 10 v) ∨
    ∃ i, nodes[i]? = some path ∧ entryAt b p = BitVec.ofNat 10 (Config.numSymbols a + i) := by
  cases h.stored path p hp with
  | leaf v lt used word entry => exact .inl ⟨v, used, word, entry⟩
  | node i node entry => exact .inr ⟨i, node, entry⟩
  | empty unused noNode entry =>
    obtain ⟨v, hv, hword⟩ := h.code.exists_prefix (bits := path ++ List.replicate 16 false) (by simp)
    have hlt := lt_length_of_lenAt_pos hv
    have hshort : ¬ wordAt lens v <+: path := unused v hlt hv
    have hpre := (List.prefix_or_prefix_of_prefix hword (List.prefix_append _ _)).resolve_left hshort
    refine absurd (h.inserted v hlt hv path hpre ?_ (hp.tableBits_le_length h.deep)) noNode
    rintro rfl
    exact hshort List.prefix_rfl

/-- The entry a codeword leads to is its symbol (R127, point 2). -/
theorem entry_of_word (h : Trie a lens b₀ lens.length nodes b) (hp : SlotAt a nodes path p) (hv : 0 < lenAt lens v)
    (hword : wordAt lens v <+: path) : entryAt b p = BitVec.ofNat 10 v := by
  rcases h.leaf_or_node hp with ⟨w, hw, hword', hentry⟩ | ⟨i, hi, -⟩
  · rcases List.prefix_or_prefix_of_prefix hword hword' with hle | hle
    · rw [hentry, h.code.prefix_unique hv hw hle]
    · rw [hentry, h.code.prefix_unique hw hv hle]
  · exact absurd hword (h.code.not_prefix_of_branch (h.branch path (List.mem_of_getElem? hi)) hv)

/-- The entry of a branch is a node (R127, point 2). -/
theorem entry_of_branch (h : Trie a lens b₀ lens.length nodes b) (hp : SlotAt a nodes path p)
    (hbranch : Branch lens path) :
    ∃ i, nodes[i]? = some path ∧ entryAt b p = BitVec.ofNat 10 (Config.numSymbols a + i) :=
  (h.leaf_or_node hp).resolve_left fun ⟨_, hv, hword, _⟩ => h.code.not_prefix_of_branch hbranch hv hword

theorem symbol_lt (h : Trie a lens b₀ lens.length nodes b) (hv : 0 < lenAt lens v) : v < Config.numSymbols a :=
  (lt_length_of_lenAt_pos hv).trans_le h.size

/-- The walk ends where a codeword has led (R132). -/
theorem walk_of_word (h : Trie a lens b₀ lens.length nodes b) (hp : SlotAt a nodes path p) (hv : 0 < lenAt lens v)
    (hword : wordAt lens v <+: path) (bits : List Bool) :
    (tableOf a const full b).walk (entryAt b p) bits = .leaf v := by
  obtain ⟨hid, hne⟩ := symbol_id (h.symbol_lt hv)
  rw [h.entry_of_word hp hv hword, walk_of_symbol hne (by rw [hid]; exact h.symbol_lt hv), hid]

/-- The walk at a node goes on at the slot of the longer path (R132). -/
theorem walk_node_cons (h : Trie a lens b₀ lens.length nodes b) {i : Nat} (hi : nodes[i]? = some path)
    (hentry : entryAt b p = BitVec.ofNat 10 (Config.numSymbols a + i)) (bit : Bool) (rest : List Bool) :
    ∃ q, SlotAt a nodes (path ++ [bit]) q ∧
      (tableOf a const full b).walk (entryAt b p) (bit :: rest) = (tableOf a const full b).walk (entryAt b q) rest := by
  obtain ⟨hid, hne⟩ := h.node_id hi
  refine ⟨_, .child i path bit hi rfl rfl, ?_⟩
  rw [hentry, walk_of_node_cons hne (by rw [hid]; exact Nat.le_add_right _ _), child_tableOf, hid]

/-- Along the rest of a codeword the walk ends at its symbol (R132, R136). -/
theorem walk_along_word (h : Trie a lens b₀ lens.length nodes b) (hp : SlotAt a nodes path p) (hv : 0 < lenAt lens v)
    (hword : path ++ bits = wordAt lens v) (more : List Bool) :
    (tableOf a const full b).walk (entryAt b p) (bits ++ more) = .leaf v := by
  induction bits generalizing path p with
  | nil => exact h.walk_of_word hp hv (by rw [← hword, List.append_nil]) _
  | cons bit bits ih =>
    have hbranch : Branch lens path := ⟨v, hv, hword ▸ List.prefix_append _ _, by rw [← hword]; simp⟩
    obtain ⟨i, hi, hentry⟩ := h.entry_of_branch hp hbranch
    obtain ⟨q, hq, hwalk⟩ := h.walk_node_cons (const := const) (full := full) hi hentry bit (bits ++ more)
    exact hwalk.trans (ih hq (by simpa using hword))

/-- No walk meets an EMPTY entry (R127, R134). -/
theorem walk_ne_empty (h : Trie a lens b₀ lens.length nodes b) (hp : SlotAt a nodes path p) (bits : List Bool) :
    (tableOf a const full b).walk (entryAt b p) bits ≠ .empty := by
  induction bits generalizing path p with
  | nil =>
    rcases h.leaf_or_node hp with ⟨v, hv, hword, -⟩ | ⟨i, hi, hentry⟩
    · rw [h.walk_of_word hp hv hword]
      exact nofun
    · obtain ⟨hid, hne⟩ := h.node_id hi
      rw [hentry, walk_of_node_nil hne (by rw [hid]; exact Nat.le_add_right _ _)]
      exact nofun
  | cons bit bits ih =>
    rcases h.leaf_or_node hp with ⟨v, hv, hword, -⟩ | ⟨i, hi, hentry⟩
    · rw [h.walk_of_word hp hv hword]
      exact nofun
    · obtain ⟨q, hq, hwalk⟩ := h.walk_node_cons (const := const) (full := full) hi hentry bit bits
      exact hwalk ▸ ih hq

/-- The dual path finds the symbol whose codeword the bits begin with (R136). -/
theorem lookup_word (h : Trie a lens b₀ lens.length nodes b) (hv : 0 < lenAt lens v) (more : List Bool) :
    (tableOf a const full b).walk (entryAt b (.fix (msbValue (Config.tableBits a) (wordAt lens v ++ more))))
      ((wordAt lens v ++ more).drop (Config.tableBits a)) = .leaf v := by
  have hslot : SlotAt a nodes _ (.fix (msbValue (Config.tableBits a) (wordAt lens v ++ more))) :=
    .root _ (msbValue_lt _ _) rfl rfl
  rw [bitsOf_msbValue] at hslot
  by_cases hshort : lenAt lens v ≤ Config.tableBits a
  · refine h.walk_of_word hslot hv (List.prefix_take_iff.mpr ⟨?_, by simpa using hshort⟩) _
    rw [List.append_assoc]
    exact List.prefix_append _ _
  · have hlen : Config.tableBits a ≤ (wordAt lens v).length := by rw [length_wordAt]; omega
    rw [List.append_assoc, List.take_append_of_le_length hlen] at hslot
    rw [List.drop_append_of_le_length hlen]
    exact h.walk_along_word hslot hv (List.take_append_drop _ _) more

end Trie

/-! ### The symbol at the cursor -/

/-- A lookup that reaches a leaf whose codeword is there (R132, R133). -/
theorem decodeSym_of_leaf {t : HufTable} {pk : PeekPastEnd} {bits rest : List Bool} {w v x : Nat}
    (hdegen : t.degen = false)
    (hpeek : peekBits pk (Config.tableBits t.alph) bits = .ok w)
    (hwalk : t.walk (t.fix.getD w Config.emptyEntry) (bits.drop (Config.tableBits t.alph)) = .leaf v)
    (hpop : popBits (t.lenOf v) bits = .ok (x, rest)) : t.decodeSym pk bits = .ok (v, rest) := by
  simp [HufTable.decodeSym, hdegen, hpeek, hwalk, hpop, -List.getD_eq_getElem?_getD]

/-- A lookup raises EMPTY only where its walk meets one (R134). -/
theorem walk_of_decodeSym_emptyEntry {t : HufTable} {pk : PeekPastEnd} {bits rest : List Bool}
    (h : t.decodeSym pk bits = .error (.emptyEntry rest)) :
    ∃ w, peekBits pk (Config.tableBits t.alph) bits = .ok w ∧
      t.walk (t.fix.getD w Config.emptyEntry) (bits.drop (Config.tableBits t.alph)) = .empty := by
  unfold HufTable.decodeSym at h
  split at h
  · cases h
  · split at h
    · next hpeek =>
      cases h
      cases peekBits_error hpeek
    · next w hpeek =>
      split at h
      · next hwalk => exact ⟨w, hpeek, hwalk⟩
      · cases h
      · split at h
        · next hpop =>
          cases h
          cases (popBits_error hpop).2
        · cases h

/-- A lookahead that reads reads the value of its bits (R60). -/
theorem eq_msbValue_of_peekBits {pk : PeekPastEnd} {n : Nat} {bits : List Bool} {w : Nat}
    (h : peekBits pk n bits = .ok w) : w = msbValue n bits := by
  obtain ⟨hread, hfail⟩ := peekFollowsTheParameter n bits pk
  by_cases hroom : n ≤ bits.length ∨ pk = .zeroFill
  · rw [hread hroom] at h
    cases h
    rfl
  · rw [not_or, not_le] at hroom
    obtain ⟨hshort, hpk⟩ := hroom
    rw [hfail hshort (by cases pk with | fault => rfl | zeroFill => exact absurd rfl hpk)] at h
    cases h

theorem lenAt_take {lens : List CodeLen} {v n : Nat} (hv : v < n) : lenAt (lens.take n) v = lenAt lens v := by
  simp [lenAt, List.getD_eq_getElem?_getD, hv]

/-- A used symbol's codeword reads back as the symbol (R133, R136). -/
theorem decodeSym_codeword {a : Alphabet} {lens : List CodeLen} {left right : Vector Entry 1019}
    {b : BuildState (2 ^ Config.tableBits a)} (hbuild : build _ a lens left right = .ok b) {v : Nat}
    (hv : v < Config.numSymbols a) (hused : 0 < lenAt lens v) (const : Nat) {pk : PeekPastEnd} {more : List Bool}
    (hroom : pk = .fault → Config.tableBits a ≤ ((tableOf a const lens b).codeword v ++ more).length) :
    (tableOf a const lens b).decodeSym pk ((tableOf a const lens b).codeword v ++ more) = .ok (v, more) := by
  obtain ⟨nodes, htrie⟩ := trie_of_build hbuild
  rw [codeword_tableOf hv] at hroom ⊢
  rw [← lenAt_take hv] at hused
  have hwalk := htrie.lookup_word (const := const) (full := lens) hused more
  have hread :
      Config.tableBits a ≤ (wordAt (lens.take (Config.numSymbols a)) v ++ more).length ∨ pk = .zeroFill := by
    cases pk with
    | fault => exact .inl (hroom rfl)
    | zeroFill => exact .inr rfl
  have hpeek := (peekFollowsTheParameter _ _ pk).1 hread
  obtain ⟨x, hpop⟩ := htrie.code.popBits_wordAt hused more
  rw [lenAt_take hv] at hpop
  exact decodeSym_of_leaf rfl hpeek hwalk hpop

/-- Settles O4: the codeword reads back as its symbol, and the raw bits after it do not depend on the table. -/
theorem builtTableRoundTrip : Obligations.BuiltTableRoundTrip := by
  intro i v pk lens left right const b rest hwf hcode hv hused hbuild hroom
  refine decode_encode_of_decodeSym hwf hcode ?_
  rw [encode_of_codeSymbol hcode, List.append_assoc] at hroom ⊢
  exact decodeSym_codeword hbuild hv hused const hroom

/-- Settles O5: the walk starts at an entry of the fixed table, and no walk from a slot of the trie meets EMPTY. -/
theorem builtTableHasNoReachableEmpty : Obligations.BuiltTableHasNoReachableEmpty := by
  intro a lens left right const b pk bits rest hbuild hempty
  obtain ⟨nodes, htrie⟩ := trie_of_build hbuild
  obtain ⟨w, hpeek, hwalk⟩ := walk_of_decodeSym_emptyEntry hempty
  have hw : w < 2 ^ Config.tableBits a := eq_msbValue_of_peekBits hpeek ▸ msbValue_lt _ bits
  exact htrie.walk_ne_empty (.root w hw rfl rfl) _ hwalk

end Sys2Proof.Machine
end

section
/-! SUPPORT. The length arrays (43_length_arrays.md): an element of an array that finds its bits has exactly its effect, a
count and its constant are one step, and the entry loops go on while their condition holds. -/

namespace Sys2Proof.Machine

/-! ### An element that finds its bits -/

/-- The bits of a field are all it needs (R59). -/
theorem State.roomFor_of_field {s : State} {i : Instr} (hcode : i.codeSymbol = none)
    (h : s.bitPos.toNat + s.used i ≤ s.totalBits) : s.roomFor i :=
  ⟨h, fun hsome => absurd hcode hsome⟩

/-- A tail with its bits there (R144). -/
theorem tailThen_of {n : Nat} {s : State} (k : State → Out) (h : s.bitPos.toNat + (n + 1) ≤ s.totalBits) :
    tailThen n s k = k (s.advance (n + 1)) :=
  if_pos h

/-- A length entry whose slot exists (R142). -/
theorem putPtLen_of {l : Nat} {s : State} (h : s.idx.toNat < Config.ptCap) : putPtLen l s = .next (s.placePtLen l) :=
  if_pos h

/-- The three bits and the tail of LEN_LONG, with its bits there (R144). -/
theorem popThen_tailThen_of {n : Nat} {s : State} (k : State → Out) (h : s.bitPos.toNat + (4 + n) ≤ s.totalBits) :
    popThen 3 s (fun s => tailThen n s k) = k (s.advance (4 + n)) := by
  have hfirst : s.bitPos.toNat + 3 ≤ s.totalBits := by omega
  have hpos := State.advance_toNat hfirst
  have hsum : 3 + (n + 1) = 4 + n := by omega
  rw [popThen_of _ hfirst, tailThen_of k (by rw [hpos, State.advance_totalBits]; omega), State.advance_advance, hsum]

/-- A codeword and raw bits, with their bits there (R133). -/
theorem codeRaw_of {a : Alphabet} {v n : Nat} {s : State} (k : State → Out)
    (h : s.bitPos.toNat + ((s.table a).codeBits v + n) ≤ s.totalBits)
    (hlook : (s.table a).degen = false → s.peek = .fault → s.bitPos.toNat + Config.tableBits a ≤ s.totalBits) :
    codeThen a v s (fun s => popThen n s k) = k (s.advance ((s.table a).codeBits v + n)) := by
  have hcode : s.bitPos.toNat + (s.table a).codeBits v ≤ s.totalBits := by omega
  have hpos := State.advance_toNat hcode
  rw [codeThen_of _ hcode hlook, popThen_of k (by rw [hpos, State.advance_totalBits]; omega), State.advance_advance]

/-- An element that only sets registers, selected and with its bits there, has exactly its effect after its bits; a length
entry also needs its slot (R59, R133, R142). The converse of `exec_reg_next`. -/
theorem exec_of_roomFor {i : Instr} {s u : State} (hsel : s.selects i = true) (hroom : s.roomFor i)
    (hslot : i.place = .ptEntry → s.idx.toNat < Config.ptCap) (he : regEffect i (s.advance (s.used i)) = some u) :
    exec i s = .next u := by
  obtain ⟨hbits, hlook⟩ := hroom
  unfold exec
  cases i <;> cases he <;> refine (ifSelected_of _ hsel).trans ?_
  case lenShort l => exact (popThen_of _ hbits).trans (putPtLen_of (hslot rfl))
  case lenLong k => exact (popThen_tailThen_of _ hbits).trans (putPtLen_of (hslot rfl))
  case tZero => exact codeThen_of _ hbits (hlook (Option.some_ne_none _))
  case tRun4 r => exact codeRaw_of _ hbits (hlook (Option.some_ne_none _))
  case tRun9 r => exact codeRaw_of _ hbits (hlook (Option.some_ne_none _))
  case tLen v => exact codeThen_of _ hbits (hlook (Option.some_ne_none _))
  case backref v => exact codeThen_of _ hbits (hlook (Option.some_ne_none _))
  all_goals exact popThen_of _ hbits

/-! ### The counts and their constants -/

/-- Settles O9: the step is the count's, and the constant's where the count leaves PHASE as it was. -/
theorem countStepRunsCountThenConstant : Obligations.CountStepRunsCountThenConstant := by
  intro s p q i rest t hpq hhost hat hfetch hexec
  have hcount : runElement p s = .next t := (runElement_of_fetch hfetch).trans hexec
  rw [step_of_no_move hhost, engineStep_of_count hpq hat]
  refine ⟨runCount_of_moved hcount, fun hstay j rest' hconst => ?_⟩
  rw [runCount_of_stayed hcount hstay, runElement_of_fetch hconst]

theorem posCountBits_eq {f : Variant} {w : Nat} (h : f = .classic ∧ w = 4 ∨ f = .tiano ∧ w = 5) :
    Config.posCountBits f = w := by
  rcases h with ⟨rfl, rfl⟩ | ⟨rfl, rfl⟩ <;> rfl

/-- The phase after a generic count of 5 bits (R140). -/
theorem State.loadPtCount_phase_of_ptCount {s : State} (hp : s.phase = .ptCount) (m : BitVec 5) :
    (s.loadPtCount (m.zeroExtend 9)).phase = if m = 0 then .ptCount else .ptEntry := by
  have hzero : m.zeroExtend 9 = 0 ↔ m = 0 := by bv_omega
  rw [State.loadPtCount_phase, hp]
  simp only [hzero]

/-- The whole state after a generic count of 5 bits, read in `n` bits (R140). -/
theorem State.loadPtCount_advance {s : State} (hp : s.phase = .ptCount) (m : BitVec 5) (n : Nat) :
    (s.advance n).loadPtCount (m.zeroExtend 9) =
      { s with bitPos := BitVec.ofNat 35 (s.bitPos.toNat + n), cnt := m.zeroExtend 9, ptLen := Vector.replicate 31 0,
               idx := 0, phase := if m = 0 then .ptCount else .ptEntry } := by
  rw [← State.loadPtCount_phase_of_ptCount (s := s.advance n) hp m]
  rfl

/-- Settles O26: T_CNT stands at the T count with 5 bits, P_CNT at the P count with the bits of its variant. -/
theorem genericCountClearsTheArray : Obligations.GenericCountClearsTheArray := by
  intro s m hp
  refine ⟨fun halph hbits => ?_, fun w hw halph hm hbits => ?_⟩
  · have hsel : s.selects (.tCnt m) = true := State.selects_iff.mpr ⟨rfl, decide_eq_true ⟨hp, halph⟩⟩
    rw [← State.loadPtCount_advance hp m]
    exact exec_of_roomFor hsel (State.roomFor_of_field rfl hbits) nofun rfl
  · obtain rfl := posCountBits_eq hw
    have hsel : s.selects (.pCnt s.var m) = true :=
      State.selects_iff.mpr ⟨decide_eq_true hm, decide_eq_true ⟨hp, halph, rfl⟩⟩
    rw [← State.loadPtCount_advance hp m]
    exact exec_of_roomFor hsel (State.roomFor_of_field rfl hbits) nofun rfl

/-- Settles O27: after a count of 0 the constant is selected, with the bits of its count. -/
theorem genericConstantMakesTheTableDegenerate : Obligations.GenericConstantMakesTheTableDegenerate := by
  intro s v hp hcnt
  refine ⟨fun halph hbits => ?_, fun w hw halph hv hbits => ?_⟩
  · have hsel : s.selects (.tDegen v) = true := State.selects_iff.mpr ⟨rfl, decide_eq_true ⟨hp, halph, hcnt⟩⟩
    exact exec_of_roomFor hsel (State.roomFor_of_field rfl hbits) nofun rfl
  · obtain rfl := posCountBits_eq hw
    have hsel : s.selects (.pDegen s.var v) = true :=
      State.selects_iff.mpr ⟨decide_eq_true hv, decide_eq_true ⟨hp, halph, rfl, hcnt⟩⟩
    exact exec_of_roomFor hsel (State.roomFor_of_field rfl hbits) nofun rfl

/-- Settles O30: C_CNT is selected at C_COUNT, and C_DEGEN after a count of 0. -/
theorem charCountAndConstant : Obligations.CharCountAndConstant := by
  intro s m hp hbits
  refine ⟨?_, fun hcnt => ?_⟩
  · have hsel : s.selects (.cCnt m) = true := State.selects_iff.mpr ⟨rfl, decide_eq_true hp⟩
    rw [← hp]
    exact exec_of_roomFor hsel (State.roomFor_of_field rfl hbits) nofun rfl
  · have hsel : s.selects (.cDegen m) = true := State.selects_iff.mpr ⟨rfl, decide_eq_true ⟨hp, hcnt⟩⟩
    exact exec_of_roomFor hsel (State.roomFor_of_field rfl hbits) nofun rfl

/-! ### The entries of the arrays -/

/-- Settles O28: both length entries are selected while IDX is below CNT, and place their length in an existing slot. -/
theorem lengthEntryFillsOneSlot : Obligations.LengthEntryFillsOneSlot := by
  intro s i len hi hp hidx hslot hroom
  have hat : s.isAt .ptEntry = true := decide_eq_true ⟨hp, hidx⟩
  rcases hi with ⟨l, rfl, hl, rfl⟩ | ⟨k, rfl, rfl⟩
  · have hsel : s.selects (.lenShort l) = true := State.selects_iff.mpr ⟨decide_eq_true hl, hat⟩
    exact exec_of_roomFor hsel hroom (fun _ => hslot) rfl
  · have hsel : s.selects (.lenLong k) = true := State.selects_iff.mpr ⟨rfl, hat⟩
    exact exec_of_roomFor hsel hroom (fun _ => hslot) rfl

/-- Settles O29: ZRUN2 is selected at PT_ZRUN. -/
theorem zeroRunSkipsSlots : Obligations.ZeroRunSkipsSlots := by
  intro s z hp hbits
  have hsel : s.selects (.zrun2 z) = true := State.selects_iff.mpr ⟨rfl, decide_eq_true hp⟩
  exact exec_of_roomFor hsel (State.roomFor_of_field rfl hbits) nofun rfl

/-- Settles O31: the three zero runs are selected while IDX is below CNT and 510, and skip their run. -/
theorem zeroRunsSkipCharSlots : Obligations.ZeroRunsSkipCharSlots := by
  intro s i run hi hp hidx hcap hroom
  have hat : s.isAt .cEntry = true := decide_eq_true ⟨hp, hidx, hcap⟩
  rcases hi with ⟨rfl, rfl⟩ | ⟨r, rfl, rfl⟩ | ⟨r, rfl, rfl⟩
  · exact exec_of_roomFor (State.selects_iff.mpr ⟨rfl, hat⟩) hroom nofun rfl
  · exact exec_of_roomFor (State.selects_iff.mpr ⟨rfl, hat⟩) hroom nofun rfl
  · exact exec_of_roomFor (State.selects_iff.mpr ⟨rfl, hat⟩) hroom nofun rfl

/-- Settles O32: a T symbol of 3 or above is selected while IDX is below CNT and 510, and places its length. -/
theorem lengthSymbolFillsOneCharSlot : Obligations.LengthSymbolFillsOneCharSlot := by
  intro s v hp hidx hcap hv hroom
  have hsel : s.selects (.tLen v) = true :=
    State.selects_iff.mpr ⟨decide_eq_true hv, decide_eq_true ⟨hp, hidx, hcap⟩⟩
  exact exec_of_roomFor hsel hroom nofun rfl

/-! ### The entry loops -/

/-- The element at an entry of a length array only sets registers (R142, R145, R152). -/
theorem regEffect_ne_none_of_entry {i : Instr} (h : i.place = .ptEntry ∨ i.place = .ptZrun ∨ i.place = .cEntry)
    (s : State) : regEffect i s ≠ none := by
  cases i <;> simp [Instr.place, regEffect] at h ⊢

/-- A step at an entry of a length array that goes on has the effect of an element of that position, after some bits. -/
theorem regEffect_of_entry_step {s t : State} {p : Place} (hp : p = .ptEntry ∨ p = .ptZrun ∨ p = .cEntry)
    (hhost : s.host = []) (hat : s.isAt p = true) (h : step s = .next t) (hb : t.busy = true) :
    ∃ i n, i.place = p ∧ regEffect i (s.advance n) = some t := by
  have hgo : ¬ Raised s t := fun hr => by simp [hr.busy] at hb
  rw [step_of_no_move hhost, engineStep_of_isAt hat (by tauto)] at h
  obtain ⟨i, rest, hfetch, hexec⟩ := (runElement_next h).resolve_left hgo
  obtain ⟨rfl, -, -, -⟩ := State.fetch_readAs hfetch
  obtain ⟨-, he⟩ := (exec_reg_next (regEffect_ne_none_of_entry hp) hexec).2.resolve_left hgo
  exact ⟨i, _, rfl, he⟩

theorem regEffect_ptEntry {i : Instr} {s t : State} (hi : i.place = .ptEntry) (h : regEffect i s = some t) :
    ∃ l, t = s.placePtLen l := by
  cases i <;> cases hi <;> cases h <;> exact ⟨_, rfl⟩

theorem regEffect_ptZrun {i : Instr} {s t : State} (hi : i.place = .ptZrun) (h : regEffect i s = some t) :
    ∃ z ≤ 3, t = s.skipPt z := by
  cases i <;> cases hi
  case zrun2 z =>
    cases h
    exact ⟨z.toNat, by omega, rfl⟩

theorem regEffect_cEntry {i : Instr} {s t : State} (hi : i.place = .cEntry) (h : regEffect i s = some t) :
    (∃ run, 0 < run ∧ t = s.skipC run) ∨ ∃ l, t = s.placeCLen l := by
  cases i <;> cases hi <;> cases h
  case tLen v => exact .inr ⟨_, rfl⟩
  all_goals exact .inl ⟨_, by omega, rfl⟩

/-- At PT_ENTRY the loop goes on from the next slot (R142), the zero-run first after the third of a T array (R145). -/
theorem State.placePtLen_loop {s : State} (hidx : s.idx.toNat < 31) (l : Nat) :
    (s.placePtLen l).idx.toNat = s.idx.toNat + 1 ∧
    (s.placePtLen l).phase = if s.alph = .t ∧ (s.placePtLen l).idx.toNat = 3 then .ptZrun
      else if (s.placePtLen l).idx.toNat < s.cnt.toNat then .ptEntry else .ptBuild := by
  have hmoved : (s.placePtLen l).idx.toNat = s.idx.toNat + 1 := by
    rw [State.placePtLen_idx, BitVec.toNat_ofNat]
    omega
  rw [hmoved]
  exact ⟨rfl, rfl⟩

/-- At PT_ZRUN the loop goes on after the skipped slots (R145). -/
theorem State.skipPt_loop (s : State) (z : Nat) :
    (s.skipPt z).idx.toNat = min (s.idx.toNat + z) 31 ∧
    (s.skipPt z).phase = if (s.skipPt z).idx.toNat < s.cnt.toNat then .ptEntry else .ptBuild := by
  have hmoved : (s.skipPt z).idx.toNat = min (s.idx.toNat + z) 31 := by
    rw [State.skipPt_idx, BitVec.toNat_ofNat, Config.ptCap]
    omega
  rw [hmoved]
  exact ⟨rfl, rfl⟩

/-- After a zero run of the C array the loop goes on at the slot it ends at, at most 510 (R152). -/
theorem State.skipC_loop (s : State) (run : Nat) :
    (s.skipC run).idx.toNat = min (s.idx.toNat + run) 510 ∧
    (s.skipC run).phase = if (s.skipC run).idx.toNat < s.cnt.toNat ∧ (s.skipC run).idx.toNat < 510 then .cEntry
      else .cBuild := by
  have hmoved : (s.skipC run).idx.toNat = min (s.idx.toNat + run) 510 := by
    rw [State.skipC_idx, BitVec.toNat_ofNat, Config.cCap]
    omega
  rw [hmoved]
  exact ⟨rfl, rfl⟩

/-- After a length of the C array the loop goes on at the next slot (R152). -/
theorem State.placeCLen_loop {s : State} (hidx : s.idx.toNat < 510) (l : Nat) :
    (s.placeCLen l).idx.toNat = s.idx.toNat + 1 ∧
    (s.placeCLen l).phase = if (s.placeCLen l).idx.toNat < s.cnt.toNat ∧ (s.placeCLen l).idx.toNat < 510 then .cEntry
      else .cBuild := by
  have hmoved : (s.placeCLen l).idx.toNat = s.idx.toNat + 1 := by
    rw [State.placeCLen_idx, BitVec.toNat_ofNat]
    omega
  rw [hmoved]
  exact ⟨rfl, rfl⟩

/-- Settles O11: a step that goes on has the effect of an entry of its array, which moves IDX and tests the loop's
condition on the IDX it leaves. -/
theorem arrayLoopsEndExactlyAtTheirCount : Obligations.ArrayLoopsEndExactlyAtTheirCount := by
  intro s t hinv hhost h hb
  refine ⟨fun hp => ?_, fun hp => ?_, fun hp => ?_⟩
  · obtain ⟨hidx, hcnt⟩ := hinv.ptEntry hp
    have hat : s.isAt .ptEntry = true := decide_eq_true ⟨hp, hidx⟩
    obtain ⟨i, n, hi, he⟩ := regEffect_of_entry_step (.inl rfl) hhost hat h hb
    obtain ⟨l, rfl⟩ := regEffect_ptEntry hi he
    exact ⟨rfl, State.placePtLen_loop (s := s.advance n) (hidx.trans_le hcnt) l⟩
  · obtain ⟨-, hidx, -⟩ := hinv.ptZrun hp
    have hthree : s.idx.toNat = 3 := by rw [hidx]; rfl
    have hat : s.isAt .ptZrun = true := decide_eq_true hp
    obtain ⟨i, n, hi, he⟩ := regEffect_of_entry_step (.inr (.inl rfl)) hhost hat h hb
    obtain ⟨z, hz, rfl⟩ := regEffect_ptZrun hi he
    obtain ⟨hmoved, hphase⟩ := (s.advance n).skipPt_loop z
    rw [State.advance_idx] at hmoved
    exact ⟨rfl, by omega, by omega, by omega, hphase⟩
  · obtain ⟨hidx, hcap⟩ := hinv.cEntry hp
    rw [Config.cCap] at hcap
    have hat : s.isAt .cEntry = true := decide_eq_true ⟨hp, hidx, hcap⟩
    obtain ⟨i, n, hi, he⟩ := regEffect_of_entry_step (.inr (.inr rfl)) hhost hat h hb
    rcases regEffect_cEntry hi he with ⟨run, hrun, rfl⟩ | ⟨l, rfl⟩
    · obtain ⟨hmoved, hphase⟩ := (s.advance n).skipC_loop run
      rw [State.advance_idx] at hmoved
      exact ⟨rfl, by omega, by omega, hphase⟩
    · obtain ⟨hmoved, hphase⟩ := State.placeCLen_loop (s := s.advance n) hcap l
      rw [State.advance_idx] at hmoved
      exact ⟨rfl, by omega, by omega, hphase⟩

end Sys2Proof.Machine
end

section
/-! SUPPORT. The block driver and the output (44_block_driver_output.md): a literal, a distance and a copied byte that
find what they need have exactly their effect, and a copy repeats the bytes it starts from. -/

namespace Sys2Proof.Machine

/-! ### The block driver -/

/-- Settles O18: BLKHDR is selected at BLK_COUNT, and its 16 bits are all it needs. -/
theorem blockHeaderLoadsRemain : Obligations.BlockHeaderLoadsRemain := by
  intro s n hp hbits
  have hsel : s.selects (.blkhdr n) = true := State.selects_iff.mpr ⟨rfl, decide_eq_true hp⟩
  exact exec_of_roomFor hsel (State.roomFor_of_field rfl hbits) nofun rfl

theorem engineStep_of_blockEnd {s : State} (hp : s.phase = .symbol) (hremain : s.remain = 0) :
    engineStep s = .next (s.goto .blkCount) := by
  simp [engineStep, hp, hremain, nextBlock]

/-- Settles O19: at REMAIN 0 the step reads nothing, otherwise the state stands at a coded symbol. -/
theorem symbolDispatch : Obligations.SymbolDispatch := by
  intro s hhost hp
  refine ⟨fun hremain => ?_, fun hremain i rest hfetch => ?_⟩
  · exact (step_of_no_move hhost).trans (engineStep_of_blockEnd hp hremain)
  · have hat : s.isAt .symbol = true := decide_eq_true ⟨hp, hremain⟩
    exact stepRunsDecodedElement s .symbol i rest hhost hat (by decide) hfetch

/-! ### The output write unit -/

/-- A byte that does not fill DST (R165). -/
theorem writeThen_of_room {b : Byte} {s : State} (k : State → Out) (hlt : s.outLen.toNat < s.dstLen.toNat)
    (hroom : s.outLen + 1 ≠ s.dstLen) : writeThen b s k = k (s.store b) :=
  (if_pos hlt).trans (if_neg hroom)

/-- The byte that fills DST (R106, R165). -/
theorem writeThen_of_full {b : Byte} {s : State} (k : State → Out) (hlt : s.outLen.toNat < s.dstLen.toNat)
    (hfull : s.outLen + 1 = s.dstLen) : writeThen b s k = .next (s.store b).finishFull :=
  (if_pos hlt).trans (if_pos hfull)

/-! ### The coded symbols -/

/-- A literal, selected and with its bits there, counts the symbol and writes its byte (R162, R163). -/
theorem exec_lit_of_roomFor {b : BitVec 8} {s : State} (hsel : s.selects (.lit b) = true) (hroom : s.roomFor (.lit b)) :
    exec (.lit b) s =
      writeThen b (s.advance (s.used (.lit b))).countSymbol fun s => .next (s.goto .symbol) := by
  obtain ⟨hbits, hlook⟩ := hroom
  unfold exec
  refine (ifSelected_of _ hsel).trans ?_
  exact codeThen_of _ hbits (hlook (Option.some_ne_none _))

/-- Settles O20: the literal writes its byte, which fills DST or does not. -/
theorem literalWritesOneByte : Obligations.LiteralWritesOneByte := by
  intro s b hp hremain hroom hlt
  have hsel : s.selects (.lit b) = true := State.selects_iff.mpr ⟨rfl, decide_eq_true ⟨hp, hremain⟩⟩
  rw [exec_lit_of_roomFor hsel hroom]
  refine ⟨fun hmore => ?_, fun hfull => ?_⟩
  · rw [← hp]
    exact writeThen_of_room _ hlt hmore
  · exact ⟨_, writeThen_of_full _ hlt hfull, State.finishFull_endedWith _, hfull, rfl, rfl, rfl⟩

/-- Settles O21: BACKREF is a coded symbol that only sets registers. -/
theorem backrefLoadsCopyLength : Obligations.BackrefLoadsCopyLength := by
  intro s v hp hremain hv hroom
  have hsel : s.selects (.backref v) = true :=
    State.selects_iff.mpr ⟨decide_eq_true hv, decide_eq_true ⟨hp, hremain⟩⟩
  exact exec_of_roomFor hsel hroom nofun rfl

/-! ### The distance -/

/-- The distance a position element names (R78, R181 to R183). -/
def distanceNamed : Instr → Option Nat
  | .pos0 => some 0
  | .pos1 => some 1
  | .posN v x => some (distanceOf v.toNat x.toNat)
  | _ => none

/-- A position element, admitted and with its bits there, has its distance checked after them (R164, R180 to R183). -/
theorem exec_of_distance {i : Instr} {d : Nat} {s : State} (hd : distanceNamed i = some d) (hp : s.phase = .dist)
    (hwf : i.wf = true) (hroom : s.roomFor i) : exec i s = takeDistance d (s.advance (s.used i)) := by
  have hplace : i.place = .dist := by cases i <;> cases hd <;> rfl
  have hat : s.isAt i.place = true := by rw [hplace]; exact decide_eq_true hp
  obtain ⟨hbits, hlook⟩ := hroom
  unfold exec
  cases i <;> cases hd <;> refine (ifSelected_of _ (State.selects_iff.mpr ⟨hwf, hat⟩)).trans ?_
  case pos0 => exact codeThen_of _ hbits (hlook (Option.some_ne_none _))
  case pos1 => exact codeThen_of _ hbits (hlook (Option.some_ne_none _))
  case posN v x => exact codeRaw_of _ hbits (hlook (Option.some_ne_none _))

/-- A distance below OUT_LEN aims the copy (R164). -/
theorem exec_distance_aims {i : Instr} {d : Nat} {s : State} (hd : distanceNamed i = some d) (hp : s.phase = .dist)
    (hwf : i.wf = true) (hroom : s.roomFor i) (hlt : d < s.outLen.toNat) :
    exec i s = .next ((s.advance (s.used i)).aimCopy d) :=
  (exec_of_distance hd hp hwf hroom).trans (if_neg (Nat.not_lt.mpr hlt))

/-- A distance at or beyond OUT_LEN ends the job (R164, R193). -/
theorem exec_distance_malformed {i : Instr} {d : Nat} {s : State} (hd : distanceNamed i = some d) (hp : s.phase = .dist)
    (hwf : i.wf = true) (hroom : s.roomFor i) (hle : s.outLen.toNat ≤ d) :
    ∃ t, exec i s = .next t ∧ t.endedWith .malformedSrcData :=
  ⟨_, (exec_of_distance hd hp hwf hroom).trans (if_pos (Nat.lt_succ_of_le hle)), State.raise_endedWith _ _ _⟩

/-- Settles O22: the three position elements name their distance, which aims the copy. -/
theorem positionsAimTheCopy : Obligations.PositionsAimTheCopy := by
  intro s hp
  refine ⟨fun hroom hlt => ?_, fun hroom hlt => ?_, fun v x hv hx hroom hlt => ?_⟩
  · exact exec_distance_aims (i := .pos0) rfl hp rfl hroom hlt
  · exact exec_distance_aims (i := .pos1) rfl hp rfl hroom hlt
  · have hwf : (Instr.posN v x).wf = true := by simp [Instr.wf, hv, hx]
    exact exec_distance_aims rfl hp hwf hroom hlt

/-- Settles O23: the three position elements name their distance, which fails the range check. -/
theorem distanceBeyondOutputIsMalformed : Obligations.DistanceBeyondOutputIsMalformed := by
  intro s hp
  refine ⟨fun hroom hle => ?_, fun hroom hle => ?_, fun v x hv hx hroom hle => ?_⟩
  · exact exec_distance_malformed (i := .pos0) rfl hp rfl hroom hle.le
  · exact exec_distance_malformed (i := .pos1) rfl hp rfl hroom hle
  · have hwf : (Instr.posN v x).wf = true := by simp [Instr.wf, hv, hx]
    exact exec_distance_malformed rfl hp hwf hroom hle

/-! ### The copied byte -/

/-- The byte at CPY_SRC written at OUT_LEN and counted (R166). -/
def State.copyOne (s : State) : State :=
  (s.store (s.dst.read s.cpySrc.toNat)).countCopy

/-- What COPY finds in a sound state: a byte below the output to read, and room for it (R165, R166). -/
theorem State.Inv.copyRoom {s : State} (hinv : s.Inv) (hp : s.phase = .copy) :
    s.cpySrc.toNat < s.outLen.toNat ∧ s.outLen.toNat < s.dstLen.toNat :=
  ⟨(hinv.copy hp).2.2, (hinv.session (State.inSession_of_phase hp (by decide) (by decide))).2.2⟩

/-- The step at COPY writes the byte at CPY_SRC (R166). -/
theorem step_of_copy {s : State} (hinv : s.Inv) (hhost : s.host = []) (hp : s.phase = .copy) :
    step s = writeThen (s.dst.read s.cpySrc.toNat) s fun s => .next s.countCopy := by
  obtain ⟨hsrc, hlt⟩ := hinv.copyRoom hp
  have hread : s.dstRead s.cpySrc.toNat = some (s.dst.read s.cpySrc.toNat) := if_pos (hsrc.trans hlt)
  simp [step_of_no_move hhost, engineStep, hp, copyByte, hread]

/-- The step at COPY that does not fill DST (R166). -/
theorem step_copyOne {s : State} (hinv : s.Inv) (hhost : s.host = []) (hp : s.phase = .copy)
    (hmore : s.outLen + 1 ≠ s.dstLen) : step s = .next s.copyOne :=
  (step_of_copy hinv hhost hp).trans (writeThen_of_room _ (hinv.copyRoom hp).2 hmore)

/-- The copy ends with its last byte (R166). -/
theorem State.copyOne_phase (s : State) : s.copyOne.phase = if s.cpyLen = 1 then .symbol else .copy := by
  have hlast : s.cpyLen - 1 = 0 ↔ s.cpyLen = 1 := sub_eq_zero
  simp only [State.copyOne, State.countCopy_phase, State.store_cpyLen, hlast]

theorem State.copyOne_dst (s : State) : s.copyOne.dst = s.dst.write s.outLen.toNat (s.dst.read s.cpySrc.toNat) := rfl

/-- OUT_LEN below DST_LEN does not wrap (R165). -/
theorem State.copyOne_outLen {s : State} (h : s.outLen.toNat < s.dstLen.toNat) :
    s.copyOne.outLen.toNat = s.outLen.toNat + 1 := by
  have hadd : s.copyOne.outLen = s.outLen + 1 := rfl
  bv_omega

/-- Nor does CPY_SRC (R166). -/
theorem State.copyOne_cpySrc {s : State} (h : s.cpySrc.toNat < s.dstLen.toNat) :
    s.copyOne.cpySrc.toNat = s.cpySrc.toNat + 1 := by
  have hadd : s.copyOne.cpySrc = s.cpySrc + 1 := rfl
  bv_omega

/-- The bytes of a copy are counted down to 0 (R166). -/
theorem State.copyOne_cpyLen {s : State} (h : 0 < s.cpyLen.toNat) : s.copyOne.cpyLen.toNat = s.cpyLen.toNat - 1 := by
  have hsub : s.copyOne.cpyLen = s.cpyLen - 1 := rfl
  bv_omega

/-- Settles O24: the step writes the copied byte, which fills DST or does not. -/
theorem copyMovesOneByte : Obligations.CopyMovesOneByte := by
  intro s hinv hhost hp
  refine ⟨fun hmore => ?_, fun hfull => ?_⟩
  · rw [step_copyOne hinv hhost hp hmore, ← s.copyOne_phase]
    rfl
  · exact ⟨_, (step_of_copy hinv hhost hp).trans (writeThen_of_full _ (hinv.copyRoom hp).2 hfull),
      State.finishFull_endedWith _, hfull, rfl, rfl⟩

/-! ### The overlapping copy -/

/-- `n` bytes of output repeat the bytes from CPY_SRC to the output, and no byte below the output has changed (R217). -/
structure Repeats (n : Nat) (s t : State) : Prop where
  outLen : t.outLen.toNat = s.outLen.toNat + n
  copied : ∀ j, j < n →
    t.dst.read (s.outLen.toNat + j) = s.dst.read (s.cpySrc.toNat + j % (s.outLen.toNat - s.cpySrc.toNat))
  kept : ∀ a, a < s.outLen.toNat → t.dst.read a = s.dst.read a

theorem Repeats.zero (s : State) : Repeats 0 s s where
  outLen := rfl
  copied := nofun
  kept _ _ := rfl

/-- Once the byte at `src` stands at `out` as well, the window of `out - src` bytes has moved on by one: its byte `j` is
the old window's byte `j + 1`, and its last byte the old window's first. -/
theorem Memory.read_next_window {m : Memory} (hm : m.wf = true) {src out : Nat} (h : src < out) (j : Nat) :
    (m.write out (m.read src)).read (src + 1 + j % (out - src)) = m.read (src + (j + 1) % (out - src)) := by
  have hmod : j % (out - src) < out - src := Nat.mod_lt _ (by omega)
  rw [Memory.read_write hm, ← Nat.mod_add_mod j (out - src) 1]
  by_cases hlast : j % (out - src) + 1 = out - src
  · rw [if_pos (by omega), hlast, Nat.mod_self, Nat.add_zero]
  · have hnext : j % (out - src) + 1 < out - src := by omega
    rw [if_neg (by omega), Nat.mod_eq_of_lt hnext, Nat.add_assoc, Nat.add_comm 1]

/-- A copied byte and `n` more repeat `n + 1` bytes. -/
theorem Repeats.succ {n : Nat} {s t : State} (hwf : s.dst.wf = true) (hsrc : s.cpySrc.toNat < s.outLen.toNat)
    (hlt : s.outLen.toNat < s.dstLen.toNat) (h : Repeats n s.copyOne t) : Repeats (n + 1) s t := by
  obtain ⟨houtLen, hcopied, hkept⟩ := h
  simp only [State.copyOne_outLen hlt, State.copyOne_cpySrc (hsrc.trans hlt), State.copyOne_dst,
    Nat.add_sub_add_right] at houtLen hcopied hkept
  refine ⟨by omega, fun j hj => ?_, fun a ha => ?_⟩
  · cases j with
    | zero => rw [hkept _ (by omega), Memory.read_write hwf]; simp
    | succ j => rw [← Memory.read_next_window hwf hsrc, ← hcopied j (by omega)]; congr 1; omega
  · rw [hkept a (by omega), Memory.read_write_other (by omega)]

/-- The engine at COPY, run for `n` bytes that do not fill DST (R166). -/
theorem run_copy_repeats {n : Nat} {s : State} (hinv : s.Inv) (hhost : s.host = []) (hp : n ≠ 0 → s.phase = .copy)
    (hn : n ≤ s.cpyLen.toNat) (hroom : s.outLen.toNat + n < s.dstLen.toNat) :
    ∃ t : State, Host.Core.run Sys2Proof.core n s = .next t ∧ Repeats n s t := by
  induction n generalizing s with
  | zero => exact ⟨s, run_zero s, .zero s⟩
  | succ n ih =>
    have hcopy := hp (Nat.succ_ne_zero n)
    obtain ⟨hsrc, hlt⟩ := hinv.copyRoom hcopy
    have hstep : step s = .next s.copyOne := step_copyOne hinv hhost hcopy (by bv_omega)
    have hlen := State.copyOne_cpyLen (s := s) (by omega)
    have hout := State.copyOne_outLen hlt
    have hdstLen : s.copyOne.dstLen = s.dstLen := rfl
    have hphase : n ≠ 0 → s.copyOne.phase = .copy := fun hne => by
      rw [State.copyOne_phase, if_neg (by bv_omega)]
    obtain ⟨t, hrun, hrep⟩ := ih (everyStepKeepsInv s _ hinv hstep) hhost hphase (by omega) (by rw [hdstLen]; omega)
    exact ⟨t, (run_next hstep n).trans hrun, hrep.succ hinv.dstWf hsrc hlt⟩

/-- Settles O25: the bytes of a copy repeat its window, by induction over the bytes. -/
theorem overlappingCopyIsPeriodic : Obligations.OverlappingCopyIsPeriodic := by
  intro n s hinv hhost hp hn hroom
  obtain ⟨t, hrun, houtLen, hcopied, hkept⟩ := run_copy_repeats hinv hhost (fun _ => hp) hn hroom
  exact ⟨t, hrun, houtLen, hcopied, hkept⟩

end Sys2Proof.Machine
end

section
/-! SUPPORT. The running job (60_exceptions.md): its STATUS is BUSY alone, and the engine's step keeps that or ends the
job. -/

namespace Sys2Proof.Machine

/-- While a job runs, DONE and ERR still stand as START cleared them (R22, R100). -/
theorem State.Inv.status_of_busy {s : State} (h : s.Inv) (hbusy : s.busy = true) : s.done = false ∧ s.err = .ok :=
  have hdone : s.done = false := h.busyDone hbusy
  ⟨hdone, h.errDone hdone⟩

/-- Settles O40: the step keeps the STATUS of a running job, or it ends the job with DONE. -/
theorem jobsEndOnlyWithDone : Obligations.JobsEndOnlyWithDone := by
  intro s t hinv hbusy h
  obtain ⟨hdone, herr⟩ := hinv.status_of_busy hbusy
  rcases (engineStep_jobStep h).keeps_or_ends with ⟨hb, hd, he⟩ | hended
  · exact .inl ⟨hb.trans hbusy, hd.trans hdone, he.trans herr⟩
  · exact .inr hended

end Sys2Proof.Machine
end

section
/-! SUPPORT. What reset leaves (70_reset_and_hazards.md R210, R211): the state at power-on, and every state after a
reset move, is some `hostReset`, so one reading of its registers settles both. -/

namespace Sys2Proof.Machine

/-- Asserted at power-on, reset changes nothing (R210). -/
theorem State.hostReset_reset : State.reset.hostReset = State.reset := rfl

@[simp] theorem State.hostReset_ctrlWord (s : State) : s.hostReset.ctrlWord = 0 :=
  BitVec.eq_of_toNat_eq s.hostReset.ctrlWord_toNat

@[simp] theorem State.hostReset_statusWord (s : State) : s.hostReset.statusWord = 0 := State.statusWord_eq rfl

theorem step_reset (s : State) (rest : List HostMove) :
    step { s with host := .reset :: rest } = .next { s with host := rest }.hostReset :=
  step_move .reset rest s

/-- The state at power-on, and that after a reset move, is one that reset leaves. -/
theorem eq_hostReset {s t : State} {rest : List HostMove}
    (h : t = State.reset ∨ step { s with host := .reset :: rest } = .next t) : ∃ u : State, t = u.hostReset := by
  rcases h with rfl | h
  · exact ⟨State.reset, State.hostReset_reset.symm⟩
  · rw [step_reset] at h
    cases h
    exact ⟨_, rfl⟩

/-- Settles O60: a state that reset leaves has every register at 0 and stands at IDLE. -/
theorem resetClearsEveryRegister : Obligations.ResetClearsEveryRegister := by
  intro s t rest h
  obtain ⟨u, rfl⟩ := eq_hostReset h
  simp

end Sys2Proof.Machine
end

section
/-! SUPPORT. The field words of 95_test_vectors.md (section 2.4, P1, P2): each is the encoding of the element its row
names, with at most one bit after it, so it reads back by the round trip of the fields. -/

namespace Sys2Proof

/-- A field word reads as the element whose encoding it begins with (R71 to R73). -/
theorem decode_of_eq_encode (i : Instr) {bits : List Bool} (rest : List Bool)
    (hbits : bits = encode HufTable.none i ++ rest) (hwf : i.wf = true) (hcode : i.codeSymbol = none) :
    decode .fault HufTable.none i.place bits = .ok (i, rest) := by
  rw [hbits, fieldElementsRoundTrip i .fault HufTable.none rest hwf hcode]

/-- Settles O1: each word is the encoding of its element; the P count of Classic leaves the last of the five bits. -/
theorem decodedWordsReadRight : Obligations.DecodedWordsReadRight := by
  refine ⟨?blkhdr, ?tCnt, ?cCnt, ?lenShort, ?lenLong_one, ?lenLong_nine, ?pCnt_classic, ?pCnt_tiano⟩
  case blkhdr => exact decode_of_eq_encode (.blkhdr 2) [true] rfl rfl rfl
  case tCnt => exact decode_of_eq_encode (.tCnt 4) [] rfl rfl rfl
  case cCnt => exact decode_of_eq_encode (.cCnt 259) [] rfl rfl rfl
  case lenShort => exact decode_of_eq_encode (.lenShort 6) [] rfl rfl rfl
  case lenLong_one => exact decode_of_eq_encode (.lenLong 1) [] rfl rfl rfl
  case lenLong_nine => exact decode_of_eq_encode (.lenLong 9) [] rfl rfl rfl
  case pCnt_classic => exact decode_of_eq_encode (.pCnt .classic 5) [false] rfl rfl rfl
  case pCnt_tiano => exact decode_of_eq_encode (.pCnt .tiano 10) [] rfl rfl rfl

end Sys2Proof
end
